-- ==== Sys2Proof/Word.lean ====
section
/-! DEFINITION. The words of the core and the tags of its two control-state registers.

Bytes are unsigned 8-bit values (R7), a velocity is a 32-bit binary32 bit pattern (R33, R41). -/

namespace Sys2Proof

/-- An unsigned 8-bit value (R7). -/
abbrev Byte := BitVec 8

/-- The bit pattern of an IEEE-754 binary32 value (R33, R63): never a real number here. -/
abbrev Word32 := BitVec 32

/-- MAGIC, the frame start byte (R5, R9). -/
abbrev magic : Byte := 0x0A#8

/-- MAX_LEN, the largest payload length (R5). -/
abbrev maxLen : Nat := 127

/-- The number of cells of TX.fbuf (R29): 2 + 127 + 127. -/
abbrev frameCap : Nat := 256

/-- The two instances of the checksum cascade (R2, R22): `sel` = 0 selects RXCK, `sel` = 1 TXCK (R70). -/
inductive CkSel
  | rx
  | tx
  deriving DecidableEq, Repr

/-- The values of the 3-bit register RX.state (R23): five tags, and the three illegal values 5, 6 and 7
that only an upset register holds (R131, R135). -/
inductive RxTag
  | waitSync
  | readLength
  | readPayload
  | readChecksum
  | failed
  | illegal5
  | illegal6
  | illegal7
  deriving DecidableEq, Repr

/-- The values of the 2-bit register SC.state (R31): three tags, and the illegal value 3 (R189). -/
inductive ScTag
  | afc
  | active
  | terminal
  | illegal3
  deriving DecidableEq, Repr

end Sys2Proof
end

