-- ==== Sys2Proof/Syntax.lean ====
section
/-! DEFINITION. The operations: one constructor for each row of spec/opcode_table.json.

The first eight are the request words (R71). The next fifteen are the cases of RX_ACCEPT's byte decode (R80), the
three after them the cases of SC's payload decode (R81), the last three the payloads SC sends (R77 to R79). A row of
an inner table carries the bits its key leaves free. -/

namespace Sys2Proof

/-- An operation of the core, or a case of one that the opcode table lists as a row. -/
inductive Instr
  /-- NOP (R200). -/
  | nop
  /-- CK_INIT (R101). -/
  | ckInit (x : CkSel)
  /-- CK_UPDATE (R102): the byte is REQ[7:0]. -/
  | ckUpdate (x : CkSel) (b : Byte)
  /-- CK_FINAL (R103). -/
  | ckFinal (x : CkSel)
  /-- RX_ACCEPT (R120): the byte is REQ[7:0]. -/
  | rxAccept (b : Byte)
  /-- TX_BUILD (R150): its payload stands on the payload-in port (R53). -/
  | txBuild
  /-- SC_TICK (R170). -/
  | scTick
  /-- RESET (R201). -/
  | reset
  /-- Row 1 of R80: the magic byte in WAIT_SYNC (R121). -/
  | rxSync
  /-- Row 2 of R80: any other byte in WAIT_SYNC (R121). -/
  | rxIgnored (b : Byte)
  /-- Row 3 of R80: the length byte 0x00 (R123). -/
  | rxLenBadZero
  /-- Row 4 of R80: a length byte 0x01..0x7F (R122). -/
  | rxLenOk (b : Byte)
  /-- Row 5 of R80: a length byte 0x80..0xFF (R123). -/
  | rxLenBadNeg (b : Byte)
  /-- Row 6 of R80: a payload byte that is not the last (R124). -/
  | rxPayload (b : Byte)
  /-- Row 7 of R80: the last payload byte (R124). -/
  | rxPayloadLast (b : Byte)
  /-- Row 8 of R80: a checksum byte that matches and is not the last (R125). -/
  | rxCkMatch (b : Byte)
  /-- Row 9 of R80: the last checksum byte, matching (R126). -/
  | rxDone (b : Byte)
  /-- Row 10 of R80: a checksum byte that differs (R127). -/
  | rxCkMismatch (b : Byte)
  /-- Row 11 of R80: the magic byte in FAILED with draw 1 (R128). -/
  | rxResync
  /-- Row 12 of R80: the magic byte in FAILED with draw 0 (R128). -/
  | rxResyncReject
  /-- Row 13 of R80: any other byte in FAILED (R128). -/
  | rxFailedNoise (b : Byte)
  /-- Row 14 of R80: the magic byte in the illegal state `st` (R131). -/
  | rxIllegalStateSync (st : RxTag)
  /-- Row 15 of R80: any other byte in the illegal state `st` (R131). -/
  | rxIllegalState (st : RxTag) (b : Byte)
  /-- Row 1 of R81: the payload `[0x01] ++ le32(v) ++ rest`, whose bytes `rest` are ignored (R78, R178). -/
  | cmdVelocity (v : Word32) (rest : List Byte)
  /-- Row 2 of R81: the payload `[0x02, m] ++ rest`, whose bytes `rest` are ignored (R79, R181). -/
  | cmdTempMode (m : Byte) (rest : List Byte)
  /-- Row 3 of R81: any other payload (R182). -/
  | cmdIgnored (p : List Byte)
  /-- The sent payload `[0x00, f]` (R77). -/
  | txHandshake (f : Byte)
  /-- The sent payload `[0x01] ++ le32(w)` (R78). -/
  | txVelocityEcho (w : Word32)
  /-- The sent payload `[0x02, m]` (R79). -/
  | txTempModeEcho (m : Byte)
  deriving DecidableEq, Repr

end Sys2Proof
end

