-- ==== Sys2Proof/Decode.lean ====
section
/-! DEFINITION. The decode tables of spec/30_encoding.md and the encoder written from them.

The tables stand in three layers (R70 to R72, R80, R81 with R76 to R79). Their words overlap as numbers, so a word is
read within its layer: `Encoded` names the layer beside the bits. -/

namespace Sys2Proof

/-! Bits and bytes -/

/-- `le32(w)` (R7, R59): the four bytes of a word, least significant first. -/
def le32 (w : Word32) : List Byte :=
  [w.extractLsb' 0 8, w.extractLsb' 8 8, w.extractLsb' 16 8, w.extractLsb' 24 8]

/-- `from_le32(b0, b1, b2, b3)` (R7, R59): `b3` holds bits 31:24. -/
def fromLe32 (b0 b1 b2 b3 : Byte) : Word32 := b3 ++ b2 ++ b1 ++ b0

/-- The numeric value of a receiver tag (R23). -/
def RxTag.bits : RxTag → BitVec 3
  | .waitSync => 0
  | .readLength => 1
  | .readPayload => 2
  | .readChecksum => 3
  | .failed => 4
  | .illegal5 => 5
  | .illegal6 => 6
  | .illegal7 => 7

/-- The receiver tag of a 3-bit register value (R23). -/
def RxTag.ofBits (v : BitVec 3) : RxTag :=
  match v.toNat with
  | 0 => .waitSync
  | 1 => .readLength
  | 2 => .readPayload
  | 3 => .readChecksum
  | 4 => .failed
  | 5 => .illegal5
  | 6 => .illegal6
  | _ => .illegal7

/-- The values 5, 6 and 7 of RX.state (R23). -/
def RxTag.isIllegal : RxTag → Bool
  | .illegal5 | .illegal6 | .illegal7 => true
  | .waitSync | .readLength | .readPayload | .readChecksum | .failed => false

/-- The numeric value of a session tag (R31). -/
def ScTag.bits : ScTag → BitVec 2
  | .afc => 0
  | .active => 1
  | .terminal => 2
  | .illegal3 => 3

/-- `sel`: 0 selects RXCK, 1 selects TXCK (R70). -/
def CkSel.bit : CkSel → BitVec 1
  | .rx => 0
  | .tx => 1

/-- The instance that REQ[12] selects (R87). -/
def CkSel.ofBit (v : BitVec 1) : CkSel := if v = 0#1 then .rx else .tx

/-! The request word (R70 to R72) -/

/-- Why a word, a key or a payload is no instruction. The first three are R72's three ways to be illegal. -/
inductive DecodeError
  /-- `op` is one of 0x8..0xF. -/
  | reservedOp (op : BitVec 4)
  /-- `sel` = 1 for an operation that is not a CK operation. -/
  | selNotZero (op : BitVec 4)
  /-- `arg` ≠ 0 for an operation other than CK_UPDATE and RX_ACCEPT. -/
  | argNotZero (op : BitVec 4)
  /-- The payload is none that SC sends (R76). -/
  | notSent
  deriving DecidableEq, Repr

/-- REQ[12] (R70). -/
def reqSel (w : BitVec 13) : BitVec 1 := w.extractLsb' 12 1

/-- REQ[11:8] (R70). -/
def reqOp (w : BitVec 13) : BitVec 4 := w.extractLsb' 8 4

/-- REQ[7:0] (R70). -/
def reqArg (w : BitVec 13) : Byte := w.extractLsb' 0 8

/-- The operation of a legal request word (R71). -/
def opInstr (op : BitVec 4) (x : CkSel) (arg : Byte) : Instr :=
  match op.toNat with
  | 0 => .nop
  | 1 => .ckInit x
  | 2 => .ckUpdate x arg
  | 3 => .ckFinal x
  | 4 => .rxAccept arg
  | 5 => .txBuild
  | 6 => .scTick
  | _ => .reset

/-- R203: every 13-bit word either is illegal by R72 or selects an operation by R71. -/
def decodeRequest (w : BitVec 13) : Except DecodeError Instr :=
  let op := reqOp w
  if 8 ≤ op.toNat then .error (.reservedOp op)
  else if reqSel w = 1#1 ∧ ¬(op = 1#4 ∨ op = 2#4 ∨ op = 3#4) then .error (.selNotZero op)
  else if reqArg w ≠ 0#8 ∧ ¬(op = 2#4 ∨ op = 4#4) then .error (.argNotZero op)
  else .ok (opInstr op (CkSel.ofBit (reqSel w)) (reqArg w))

/-- The request word with these fields (R70). -/
def reqWord (sel : BitVec 1) (op : BitVec 4) (arg : Byte) : BitVec 13 := sel ++ op ++ arg

/-! The receiver's byte decode (R80) -/

/-- The fifteen rows of R80, in the table's order. -/
inductive RxRow
  | sync
  | ignored
  | lenBadZero
  | lenOk
  | lenBadNeg
  | payload
  | payloadLast
  | ckMatch
  | done
  | ckMismatch
  | resync
  | resyncReject
  | failedNoise
  | illegalStateSync
  | illegalState
  deriving DecidableEq, Repr

/-- R80: the first row that takes byte `b` in state `st`. The guards are given as bits: `last` is `c + 1 = L` in
READ_PAYLOAD and `i + 1 = N` in READ_CHECKSUM, `hit` is `b = RXCK.acc[i]`, `rnd` is the resync draw. -/
def rxRowOf (st : RxTag) (b : Byte) (last hit rnd : Bool) : RxRow :=
  match st with
  | .waitSync => if b = magic then .sync else .ignored
  | .readLength => if b = 0#8 then .lenBadZero else if b.toNat < 128 then .lenOk else .lenBadNeg
  | .readPayload => if last then .payloadLast else .payload
  | .readChecksum => if hit then (if last then .done else .ckMatch) else .ckMismatch
  | .failed => if b = magic then (if rnd then .resync else .resyncReject) else .failedNoise
  | .illegal5 | .illegal6 | .illegal7 => if b = magic then .illegalStateSync else .illegalState

/-- The instruction of a row of R80 for the state `st` and the byte `b` of the key. -/
def RxRow.instr (st : RxTag) (b : Byte) : RxRow → Instr
  | .sync => .rxSync
  | .ignored => .rxIgnored b
  | .lenBadZero => .rxLenBadZero
  | .lenOk => .rxLenOk b
  | .lenBadNeg => .rxLenBadNeg b
  | .payload => .rxPayload b
  | .payloadLast => .rxPayloadLast b
  | .ckMatch => .rxCkMatch b
  | .done => .rxDone b
  | .ckMismatch => .rxCkMismatch b
  | .resync => .rxResync
  | .resyncReject => .rxResyncReject
  | .failedNoise => .rxFailedNoise b
  | .illegalStateSync => .rxIllegalStateSync st
  | .illegalState => .rxIllegalState st b

/-- The decode key `K = RX.state[2:0] ++ byte[7:0]` (R80). -/
def rxKey (st : RxTag) (b : Byte) : BitVec 11 := st.bits ++ b

/-- R80 on a key and its guard bits. -/
def decodeRxKey (k : BitVec 11) (last hit rnd : Bool) : Instr :=
  let st := RxTag.ofBits (k.extractLsb' 8 3)
  let b : Byte := k.extractLsb' 0 8
  (rxRowOf st b last hit rnd).instr st b

/-! The command payload (R76 to R81) -/

/-- The temperature modes −1, 0 and +1 as bytes (R79). -/
def isMode (m : Byte) : Bool := m == 0xFF#8 || m == 0x00#8 || m == 0x01#8

/-- How SC decodes a payload (R81). -/
inductive Command
  /-- Row 1, with the float32 body of R59. -/
  | velocity (v : Word32)
  /-- Row 2, with the mode byte. -/
  | temperature (m : Byte)
  /-- Row 3. -/
  | ignored
  deriving DecidableEq, Repr

/-- The body of a tag-1 payload as a word (R78): none when it is shorter than 4 bytes. -/
def bodyWord : List Byte → Option Word32
  | b0 :: b1 :: b2 :: b3 :: _ => some (fromLe32 b0 b1 b2 b3)
  | _ => none

/-- R81: rows tried in order, first match wins. -/
def commandOf : List Byte → Command
  | [] => .ignored
  | tag :: body =>
    if tag = 0x01#8 then
      match bodyWord body with
      | some v => .velocity v
      | none => .ignored
    else if tag = 0x02#8 then
      match body with
      | m :: _ => if isMode m then .temperature m else .ignored
      | [] => .ignored
    else .ignored

/-- The `cmd` row that takes a received payload. -/
def decodeCommand (p : List Byte) : Instr :=
  match commandOf p with
  | .velocity v => .cmdVelocity v (p.drop 5)
  | .temperature m => .cmdTempMode m (p.drop 2)
  | .ignored => .cmdIgnored p

/-- The `cmd-tx` row of a payload that SC sends (R76 to R79): a tag-1 payload sent is exactly 5 bytes, the others 2. -/
def decodeSent : List Byte → Except DecodeError Instr
  | [t, f] =>
    if t = 0x00#8 then .ok (.txHandshake f)
    else if t = 0x02#8 ∧ isMode f then .ok (.txTempModeEcho f)
    else .error .notSent
  | [t, b0, b1, b2, b3] => if t = 0x01#8 then .ok (.txVelocityEcho (fromLe32 b0 b1 b2 b3)) else .error .notSent
  | _ => .error .notSent

/-- The sent payload of a velocity (R78). -/
def velocityPayload (w : Word32) : List Byte := 0x01#8 :: le32 w

/-- The sent payload of a mode (R79). -/
def modePayload (m : Byte) : List Byte := [0x02#8, m]

/-- The handshake payload (R77). -/
def handshakePayload (f : Byte) : List Byte := [0x00#8, f]

/-! All layers -/

/-- The bits of a row of the opcode table, with the layer they are read in. -/
inductive Encoded
  /-- A word on the request port (format `req`). -/
  | request (w : BitVec 13)
  /-- A key of the receiver's decode with its guard bits (format `rx-byte`). -/
  | rxByte (key : BitVec 11) (last hit rnd : Bool)
  /-- A received payload (format `cmd`). -/
  | command (p : List Byte)
  /-- A payload to send (format `cmd-tx`). -/
  | sent (p : List Byte)
  deriving DecidableEq, Repr

/-- The decoder, total on the bits of every layer. -/
def decode : Encoded → Except DecodeError Instr
  | .request w => decodeRequest w
  | .rxByte k last hit rnd => .ok (decodeRxKey k last hit rnd)
  | .command p => .ok (decodeCommand p)
  | .sent p => decodeSent p

/-- The words of an instruction, from the encoding tables R71, R80, R81 and R77 to R79. A guard bit the row does not
read is 0. -/
def encode : Instr → Encoded
  | .nop => .request (reqWord 0#1 0#4 0#8)
  | .ckInit x => .request (reqWord x.bit 1#4 0#8)
  | .ckUpdate x b => .request (reqWord x.bit 2#4 b)
  | .ckFinal x => .request (reqWord x.bit 3#4 0#8)
  | .rxAccept b => .request (reqWord 0#1 4#4 b)
  | .txBuild => .request (reqWord 0#1 5#4 0#8)
  | .scTick => .request (reqWord 0#1 6#4 0#8)
  | .reset => .request (reqWord 0#1 7#4 0#8)
  | .rxSync => .rxByte (rxKey .waitSync magic) false false false
  | .rxIgnored b => .rxByte (rxKey .waitSync b) false false false
  | .rxLenBadZero => .rxByte (rxKey .readLength 0#8) false false false
  | .rxLenOk b => .rxByte (rxKey .readLength b) false false false
  | .rxLenBadNeg b => .rxByte (rxKey .readLength b) false false false
  | .rxPayload b => .rxByte (rxKey .readPayload b) false false false
  | .rxPayloadLast b => .rxByte (rxKey .readPayload b) true false false
  | .rxCkMatch b => .rxByte (rxKey .readChecksum b) false true false
  | .rxDone b => .rxByte (rxKey .readChecksum b) true true false
  | .rxCkMismatch b => .rxByte (rxKey .readChecksum b) false false false
  | .rxResync => .rxByte (rxKey .failed magic) false false true
  | .rxResyncReject => .rxByte (rxKey .failed magic) false false false
  | .rxFailedNoise b => .rxByte (rxKey .failed b) false false false
  | .rxIllegalStateSync st => .rxByte (rxKey st magic) false false false
  | .rxIllegalState st b => .rxByte (rxKey st b) false false false
  | .cmdVelocity v rest => .command (velocityPayload v ++ rest)
  | .cmdTempMode m rest => .command (modePayload m ++ rest)
  | .cmdIgnored p => .command p
  | .txHandshake f => .sent (handshakePayload f)
  | .txVelocityEcho w => .sent (velocityPayload w)
  | .txTempModeEcho m => .sent (modePayload m)

/-- A command payload of one tag byte and an operand of zeros (log entry 9). -/
def tagPayload (w : Nat) : List Byte := [BitVec.ofNat 8 w, 0#8, 0#8, 0#8, 0#8]

/-- The instruction that the decoder reads from a word of the opcode table (log entry 9): up to 8 bits are the tag
byte of a received payload whose other bytes are zeros; more are a word on the request port, which has 13 bits. -/
def decodeTableWord (nbits w : Nat) : Option Instr :=
  if nbits ≤ 8 then (if w < 256 then some (decodeCommand (tagPayload w)) else none)
  else if w < 8192 then (decodeRequest (BitVec.ofNat 13 w)).toOption
  else none

end Sys2Proof
end

