-- ==== Sys2Proof/Config.lean ====
section
/-! DEFINITION. The configuration record (R5), the OPEN parameters and the free values.

A parameter the spec leaves OPEN (CLK_W, HANDSHAKE_FLAG, HANDSHAKE_DELAY_US) and an answer of the environment that
no list of the state gives are opaque constants: nothing can evaluate them (log entries 1 and 2). -/

namespace Sys2Proof

/-- The configuration record of R5: fixed when the core is built, and no operation changes it. -/
structure Config where
  /-- `N`, the checksum order: accumulators per cascade and checksum bytes per frame. -/
  n : Nat
  /-- `P_RESYNC`, the duty of the draw source (R234), is the fraction `pNum / pDen`: no rule of the core reads it
  (log entry 1). -/
  pNum : Nat
  /-- The denominator of `P_RESYNC`. -/
  pDen : Nat
  /-- `T_TIMEOUT_US`, the liveness timeout threshold. -/
  timeoutUs : Nat
  /-- `CLK_W`, the bit width of the microsecond counter. -/
  clkW : Nat
  /-- `HANDSHAKE_FLAG`, the body of the tag-0 payload. -/
  flag : Byte
  /-- `HANDSHAKE_DELAY_US`, the wait after a handshake. -/
  delayUs : Nat
  /-- `PIN_LEN_W`, the width of TX_BUILD's payload-length input (D12). -/
  pinLenW : Nat
  deriving DecidableEq, Repr

/-- The legal values of R5's table. -/
abbrev Config.Legal (c : Config) : Prop :=
  1 ≤ c.n ∧ c.n ≤ 127 ∧ 0 < c.pDen ∧ c.pNum ≤ c.pDen ∧ 25 ≤ c.clkW ∧ c.timeoutUs < 2 ^ c.clkW - 1 ∧ 8 ≤ c.pinLenW

/-- OPEN (D14): by how much CLK_W exceeds the 25 bits that the reference timeout needs. -/
opaque Config.openClkExtra : Nat

/-- OPEN (D15): the handshake flag byte. -/
opaque Config.openFlag : Byte

/-- OPEN (D16): the handshake delay in microseconds. -/
opaque Config.openDelayUs : Nat

/-- Free value (R232, U7): how many bytes the transport says are available, before it is bounded by the FIFO. -/
opaque Config.freeCount : Nat → Nat

/-- Free value (R231, U2): a clock reading, before it is reduced to CLK_W bits. -/
opaque Config.freeReading : Nat → Nat

/-- Free value (R233, U4): a corrected velocity. -/
opaque Config.freeVelocity : Nat → Word32

/-- Free value (R129, R234, U1): a resync draw. -/
opaque Config.freeDraw : Nat → Bool

/-- The configuration of `State.reset`: R5's reference values, and the opaque constants for what R5 leaves OPEN. -/
def Config.reference : Config where
  n := 2
  pNum := 3
  pDen := 4
  timeoutUs := 20000000
  clkW := 25 + Config.openClkExtra
  flag := Config.openFlag
  delayUs := Config.openDelayUs
  pinLenW := 16

end Sys2Proof
end

