-- ==== Sys2Proof/Machine/State.lean ====
section
/-! DEFINITION. The core's state is `Record`, exactly the record of R20. `State` is what the host steps: that record,
the parameters of the step relation (R21: the configuration, the environment's answers, the request) and the run's
observation (R237). Plain data. Memory is a list of cells, which lists no unwritten cell (log entry 13). -/

namespace Sys2Proof.Machine

/-- A byte buffer: strictly rising indices, each with its byte; an unlisted index is `unwritten` (R7, R41, R56). -/
abbrev Memory := List Host.Cell

/-- One checksum cascade: the accumulators `acc[0..N−1]` (R22). -/
structure CkState where
  acc : List Byte
  deriving DecidableEq, Repr

/-- The frame receiver's registers (R23 to R27). -/
structure RxUnit where
  /-- RX.state (R23). -/
  state : RxTag
  /-- RX.cnt, the bytes-received counter (R24). -/
  cnt : Byte
  /-- RX.len, the declared payload length (R25). -/
  len : Byte
  /-- RX.pbuf, 127 cells (R26). -/
  pbuf : Memory
  /-- RX.pvalid (R27). -/
  pvalid : Bool
  deriving DecidableEq, Repr

/-- The frame builder's registers (R29, R30). -/
structure TxUnit where
  /-- TX.fbuf, 256 cells (R29). -/
  fbuf : Memory
  /-- TX.flen, 0..256 (R30). -/
  flen : BitVec 9
  deriving DecidableEq, Repr

/-- The session controller's registers (R31 to R34). -/
structure ScUnit where
  /-- SC.state (R31). -/
  state : ScTag
  /-- SC.last_comm, a CLK_W-bit reading (R32): below 2^CLK_W, since every reading is (log entry 19). -/
  lastComm : Nat
  /-- SC.last_vel (R33). -/
  lastVel : Word32
  /-- SC.last_temp (R34). -/
  lastTemp : Byte
  deriving DecidableEq, Repr

/-- An event issued to a collaborator, with its argument and its answer (R230). -/
inductive Event
  /-- `env.bytesAvailable() -> k`. -/
  | bytesAvailable (k : Nat)
  /-- `env.readByte() -> b`. -/
  | readByte (b : Byte)
  /-- `env.writeByte(b)`. -/
  | writeByte (b : Byte)
  /-- `env.applyVelocity(v) -> w`. -/
  | applyVelocity (v w : Word32)
  /-- `env.applyTemperatureMode(m)`. -/
  | applyTemperatureMode (m : Int)
  /-- `env.tickActuation()`. -/
  | tickActuation
  /-- `env.nowMicros() -> t`. -/
  | nowMicros (t : Nat)
  /-- `env.delay(us)`. -/
  | delay (us : Nat)
  deriving DecidableEq, Repr

/-- The response codes by name (R220). OK is the code of TX_BUILD, the CK operations, NOP and RESET. -/
inductive Response
  | ok
  | illegalRequest
  | ignored
  | sync
  | lenOk
  | lenBad
  | payload
  | payloadLast
  | ckMatch
  | done
  | ckMismatch
  | failedNoise
  | resync
  | resyncReject
  | rxIllegalState
  | rxIllegalStateSync
  | oversize
  | afcWait
  | contact
  | activeOk
  | timeout
  | terminalIdle
  | scIllegalState
  deriving DecidableEq, Repr

/-- The optional output of an operation (R71). -/
inductive Output
  /-- No output. -/
  | none
  /-- A byte sequence: CK_FINAL's vector, DONE's payload, TX_BUILD's frame. -/
  | bytes (bs : List Byte)
  /-- SC_TICK's event trace. -/
  | trace (es : List Event)
  deriving DecidableEq, Repr

/-- What a request gives back (R220, R238). -/
structure Report where
  resp : Response
  out : Output
  deriving DecidableEq, Repr

/-- What the requester presents to the core: a request word with its payload-in operand (R53, R70), or the reset
input (R250). -/
inductive Stimulus
  | request (w : BitVec 13) (pin : List Byte)
  | resetInput
  deriving DecidableEq, Repr

/-- The environment: the transport input FIFO (R51), and the answers it will give, in order: parameters of the step
relation (R21), which the host's form of a step keeps beside the record (log entries 3 and 23). Where a
list has run out, the answer is a free value of Config, taken at `drawn` (log entry 2). -/
structure Env where
  /-- The bytes that the transport input will deliver, oldest first. -/
  fifo : List Byte
  /-- Answers to `bytesAvailable`. -/
  counts : List Nat
  /-- Answers to `nowMicros`. -/
  readings : List Nat
  /-- Answers to `applyVelocity`. -/
  velocities : List Word32
  /-- Resync draws, one for each RX_ACCEPT (R129). -/
  draws : List Bool
  /-- How many free values have been taken. -/
  drawn : Nat
  deriving DecidableEq, Repr

/-- The core's state: these fields and nothing else (R20). -/
structure Record where
  /-- RXCK (R22). -/
  rxck : CkState
  /-- TXCK (R22). -/
  txck : CkState
  /-- The frame receiver (R23 to R27). -/
  rx : RxUnit
  /-- The frame builder (R29, R30). -/
  tx : TxUnit
  /-- The session controller (R31 to R34). -/
  sc : ScUnit
  deriving DecidableEq, Repr

/-- What the host steps: the core's record, and beside it what R21 says is not state. The host's `step` takes a State
alone, so the parameters of the step relation stand here too; `coreStep` is that relation with its parameters as
arguments (log entry 23). -/
structure State extends Record where
  /-- The configuration (R5): a parameter, which no operation changes (log entry 1). -/
  cfg : Config
  /-- The payload-in port: the operand of the request being served (R53). -/
  pin : List Byte
  /-- What the requester has issued and the core has not taken yet, oldest first (log entry 6). -/
  queue : List Stimulus
  /-- The environment (R230). -/
  env : Env
  /-- How many frames TX_BUILD and reset have invalidated so far: the name of the frame that the core presents now, which
  an outside reader keeps with it (R155). The model's own observation: no operation of the core reads it (log entry 24). -/
  builds : Nat
  /-- Every event issued so far, oldest first (R237). -/
  trace : List Event
  /-- Every response and output given so far, oldest first (R237). -/
  reports : List Report
  deriving DecidableEq, Repr

/-- Why the machine stops. -/
inductive Fault
  /-- Raised by a write of a received byte outside RX.pbuf[0..126] (R50). Safe: no run from reset reaches it (R28). -/
  | pbufIndex
  /-- Raised by TX_BUILD for a frame longer than TX.fbuf (R50). Safe: only an illegal N makes one (R157). -/
  | fbufIndex
  /-- Raised by RX_ACCEPT in READ_CHECKSUM for a checksum index outside 0..N−1 (R50). Safe: no run from reset reaches
  it (R135). -/
  | ckIndex
  /-- Raised by a read of an unwritten buffer cell (R56): by DONE's output, a send of SC, or an outside reader. Safe. -/
  | unwrittenRead
  /-- Raised by an outside reader of the received payload while RX.pvalid = 0 (R132). Safe. -/
  | payloadInvalid
  /-- Raised by an outside reader of a built frame after a later TX_BUILD or reset (R155, R255). Safe. -/
  | frameInvalid
  deriving DecidableEq, Repr

/-- Why an instruction has no meaning in a state. -/
inductive Refusal
  /-- Raised by exec for an instruction without a meaning. Safe. -/
  | notModelled (mnemonic : String)
  /-- Raised by a row of an inner decode table (R80, R81, R76) that the table does not select in this state: the core
  never runs it there (log entry 8). Safe. -/
  | rowNotSelected
  deriving DecidableEq, Repr

/-- The core's record after `core_reset` under the configuration `c` (R38, R251). -/
def Record.reset (c : Config) : Record where
  rxck := ⟨(List.replicate c.n 0#8).set 0 1#8⟩
  txck := ⟨(List.replicate c.n 0#8).set 0 1#8⟩
  rx := { state := .waitSync, cnt := 0#8, len := 0#8, pbuf := [], pvalid := false }
  tx := { fbuf := [], flen := 0#9 }
  sc := { state := .afc, lastComm := 0, lastVel := 0#32, lastTemp := 0#8 }

/-- The state after reset under the configuration `c`: the reset record, nothing issued and nothing supplied outside
the core (log entry 14). -/
def State.resetWith (c : Config) : State where
  toRecord := Record.reset c
  cfg := c
  pin := []
  queue := []
  env := { fifo := [], counts := [], readings := [], velocities := [], draws := [], drawn := 0 }
  builds := 0
  trace := []
  reports := []

/-- The machine right after reset (R251), under R5's reference configuration. -/
def State.reset : State := State.resetWith Config.reference

end Sys2Proof.Machine
end

