-- ==== Sys2Proof/Machine/Ops.lean ====
section
/-! DEFINITION. The named operations over the buffers, the units and the environment, and the taking of a request.

The core has no trap mechanism (R224): an error is a response code, which `State.respond` gives, and a transition of
RX.state or SC.state, which the families make. -/

namespace Sys2Proof.Machine

/-! The buffers -/

/-- The byte at an index, none when it is `unwritten` (R41, R56). -/
def Memory.read : Memory → Nat → Option Byte
  | [], _ => none
  | (a, b) :: m, i => if a = i then some b else Memory.read m i

/-- `buf[i] <- v` (R8), keeping the indices strictly rising. -/
def Memory.write : Memory → Nat → Byte → Memory
  | [], i, v => [(i, v)]
  | (a, b) :: m, i, v =>
    if i < a then (i, v) :: (a, b) :: m
    else if i = a then (i, v) :: m
    else (a, b) :: Memory.write m i v

/-- Writes of consecutive bytes from index `i` on. -/
def Memory.writeSeq : Memory → Nat → List Byte → Memory
  | m, _, [] => m
  | m, i, b :: bs => Memory.writeSeq (Memory.write m i b) (i + 1) bs

/-- `buf[i..i+n−1]` (R7), none when one of the cells is `unwritten`. -/
def Memory.readSeq : Memory → Nat → Nat → Option (List Byte)
  | _, _, 0 => some []
  | m, i, n + 1 =>
    match Memory.read m i with
    | none => none
    | some b =>
      match Memory.readSeq m (i + 1) n with
      | none => none
      | some bs => some (b :: bs)

/-- The indices rise strictly from `lo` on and stay below `size`. -/
def Memory.wfFrom (size : Nat) : Nat → Memory → Bool
  | _, [] => true
  | lo, (a, _) :: m => decide (lo ≤ a) && decide (a < size) && Memory.wfFrom size (a + 1) m

/-- The canonical form of a buffer of `size` cells. -/
def Memory.wf (size : Nat) (m : Memory) : Bool := Memory.wfFrom size 0 m

/-! Updates of one part of the state -/

/-- Writes RXCK. -/
def State.withRxck (s : State) (c : CkState) : State := { s with rxck := c }

/-- Writes TXCK. -/
def State.withTxck (s : State) (c : CkState) : State := { s with txck := c }

/-- Writes the receiver's registers. -/
def State.withRx (s : State) (r : RxUnit) : State := { s with rx := r }

/-- Writes the builder's registers, which invalidates the frame presented before (R36). -/
def State.withTx (s : State) (t : TxUnit) : State := { s with tx := t, builds := s.builds + 1 }

/-- Writes the session controller's registers. -/
def State.withSc (s : State) (c : ScUnit) : State := { s with sc := c }

/-- Replaces what the environment will do. -/
def State.withEnv (s : State) (e : Env) : State := { s with env := e }

/-- Presents a payload on the payload-in port (R53). -/
def State.withPin (s : State) (p : List Byte) : State := { s with pin := p }

/-- Replaces what the requester has issued. -/
def State.withQueue (s : State) (q : List Stimulus) : State := { s with queue := q }

/-- Issues one event (R61, R230). -/
def State.emit (s : State) (e : Event) : State := { s with trace := s.trace ++ [e] }

/-- Ends a request with its response code and output (R220, R238). -/
def State.respond (s : State) (r : Response) (o : Output) : State := { s with reports := s.reports ++ [⟨r, o⟩] }

/-- One of the two cascades (R22). -/
def State.ck (s : State) : CkSel → CkState
  | .rx => s.rxck
  | .tx => s.txck

/-- Writes one of the two cascades. -/
def State.withCk (s : State) : CkSel → CkState → State
  | .rx, c => s.withRxck c
  | .tx, c => s.withTxck c

/-! Answers of the environment (R230): the next of the state's list, a free value when the list has run out -/

/-- The next answer to `bytesAvailable`, before the FIFO bounds it. -/
def Env.nextCount (e : Env) : Nat × Env :=
  match e.counts with
  | k :: rest => (k, { e with counts := rest })
  | [] => (Config.freeCount e.drawn, { e with drawn := e.drawn + 1 })

/-- The next clock reading, before it is reduced to CLK_W bits. -/
def Env.nextReading (e : Env) : Nat × Env :=
  match e.readings with
  | t :: rest => (t, { e with readings := rest })
  | [] => (Config.freeReading e.drawn, { e with drawn := e.drawn + 1 })

/-- The next corrected velocity. -/
def Env.nextVelocity (e : Env) : Word32 × Env :=
  match e.velocities with
  | v :: rest => (v, { e with velocities := rest })
  | [] => (Config.freeVelocity e.drawn, { e with drawn := e.drawn + 1 })

/-- The next resync draw (R129). -/
def Env.nextDraw (e : Env) : Bool × Env :=
  match e.draws with
  | r :: rest => (r, { e with draws := rest })
  | [] => (Config.freeDraw e.drawn, { e with drawn := e.drawn + 1 })

/-! The events (R230) -/

/-- `env.bytesAvailable()`: a count no larger than the number of bytes in the FIFO (R232, log entry 5). -/
def State.bytesAvailable (s : State) : Nat × State :=
  let d := s.env.nextCount
  let k := min d.1 s.env.fifo.length
  (k, (s.withEnv d.2).emit (.bytesAvailable k))

/-- `env.readByte()` answering `b`: the oldest byte leaves the FIFO (R51). -/
def State.readByte (s : State) (b : Byte) : State :=
  (s.withEnv { s.env with fifo := s.env.fifo.drop 1 }).emit (.readByte b)

/-- `env.writeByte(b)`: always accepted (R52). -/
def State.writeByte (s : State) (b : Byte) : State := s.emit (.writeByte b)

/-- The writes of consecutive bytes, in order (R52, R183). -/
def State.writeBytes (s : State) (bs : List Byte) : State := bs.foldl State.writeByte s

/-- `env.applyVelocity(v)`: any 32-bit pattern answers (R233). -/
def State.applyVelocity (s : State) (v : Word32) : Word32 × State :=
  let d := s.env.nextVelocity
  (d.1, (s.withEnv d.2).emit (.applyVelocity v d.1))

/-- `env.applyTemperatureMode(m)`. -/
def State.applyTemperatureMode (s : State) (m : Int) : State := s.emit (.applyTemperatureMode m)

/-- `env.tickActuation()`. -/
def State.tickActuation (s : State) : State := s.emit .tickActuation

/-- `env.nowMicros()`: a CLK_W-bit reading (R231, log entry 4). -/
def State.nowMicros (s : State) : Nat × State :=
  let d := s.env.nextReading
  let t := d.1 % 2 ^ s.cfg.clkW
  (t, (s.withEnv d.2).emit (.nowMicros t))

/-- `env.delay(HANDSHAKE_DELAY_US)`. -/
def State.delay (s : State) : State := s.emit (.delay s.cfg.delayUs)

/-- The resync draw that the environment supplies with an RX_ACCEPT (R129): an input, not an event. -/
def State.takeDraw (s : State) : Bool × State :=
  let d := s.env.nextDraw
  (d.1, s.withEnv d.2)

/-! Requests -/

/-- The next stimulus of the requester, taken off the queue; none while the core waits (R203, R251). -/
def State.fetch (s : State) : Option (Stimulus × State) :=
  match s.queue with
  | [] => none
  | x :: q => some (x, s.withQueue q)

/-- A step's outcome from an operation that may fault. -/
def ofExcept : Except Fault State → Host.Outcome State Fault Refusal
  | .error f => .fault f
  | .ok s => .next s

/-- The transport output stream (R52): the bytes of the writeByte events, in order. -/
def State.sent (s : State) : List Byte :=
  s.trace.filterMap fun e =>
    match e with
    | .writeByte b => some b
    | _ => none

end Sys2Proof.Machine
end

