-- ==== Sys2Proof/Machine/Operands.lean ====
section
/-! DEFINITION. Operand assembly (R87): bytes and bit patterns read as values, and the guards of the receiver's
decode read from the state. The core has no addressing modes beyond index counters. -/

namespace Sys2Proof.Machine

/-- `sext_8(b)` (R7). -/
def sext8 (b : Byte) : Int := b.toInt

/-- `u -W w` (R7): `(u − w) mod 2^W`. -/
def subW (w u v : Nat) : Nat := (u + (2 ^ w - v % 2 ^ w)) % 2 ^ w

/-- `is_nan(x)` (R179): the exponent field is all ones and the fraction is not 0. -/
def isNan (x : Word32) : Bool := x.extractLsb' 23 8 == 0xFF#8 && x.extractLsb' 0 23 != 0#23

/-- `is_zero(x)` (R179): +0.0 and −0.0. -/
def isZero (x : Word32) : Bool := x.extractLsb' 0 31 == 0#31

/-- `f32_differs(a, b)` (R179): IEEE-754 inequality on bit patterns. -/
def f32Differs (a b : Word32) : Bool := isNan a || isNan b || (!(isZero a && isZero b) && a != b)

/-- The time since last_comm that a reading `t` shows (R184). -/
def State.elapsed (s : State) (t : Nat) : Nat := subW s.cfg.clkW t s.sc.lastComm

/-- The checksum index `i = c − L` in READ_CHECKSUM (R24, R80). -/
def State.ckIndex (s : State) : Nat := s.rx.cnt.toNat - s.rx.len.toNat

/-- The accumulator that the next checksum byte is compared with (R125): it exists when `L ≤ c` and `i < N` (R135). -/
def State.ckExpected (s : State) : Option Byte :=
  if s.rx.len.toNat ≤ s.rx.cnt.toNat then s.rxck.acc[s.ckIndex]? else none

/-- The row of R80 that takes byte `b` with draw `rnd` in this state, its guards read from the registers. In
READ_PAYLOAD the guard is R120's `c + 1 = L` (log entry 12). -/
def State.rxSelect (s : State) (b : Byte) (rnd : Bool) : Except Fault RxRow :=
  match s.rx.state with
  | .readChecksum =>
    match s.ckExpected with
    | none => .error .ckIndex
    | some a => .ok (rxRowOf .readChecksum b (decide (s.ckIndex + 1 = s.cfg.n)) (decide (b = a)) rnd)
  | st => .ok (rxRowOf st b (decide (s.rx.cnt.toNat + 1 = s.rx.len.toNat)) false rnd)

end Sys2Proof.Machine
end

