-- ==== Sys2Proof/Machine/Cascade.lean ====
section
/-! DEFINITION. The Checksum Cascade (spec/40_checksum_cascade.md): its three functions, and CK_INIT, CK_UPDATE and
CK_FINAL. -/

namespace Sys2Proof.Machine

/-- `ck_init` (R101): accumulator 0 is 1, the others 0. -/
def ckSeed (n : Nat) : List Byte := (List.replicate n 0#8).set 0 1#8

/-- The levels of `ck_update` from one level on, where `x` is what this level adds: the byte for level 0, the level
below as already updated for the others (R102). -/
def ckAdd : List Byte → Byte → List Byte
  | [], _ => []
  | a :: as, x => (a + x) :: ckAdd as (a + x)

/-- `ck_update` with the bytes of a sequence, in order. -/
def ckRun (acc : List Byte) (bs : List Byte) : List Byte := bs.foldl ckAdd acc

/-- `ck_init(X)` (R101). -/
def State.ckInit (s : State) (x : CkSel) : State := s.withCk x ⟨ckSeed s.cfg.n⟩

/-- `ck_update(X, b)` (R102). -/
def State.ckUpdate (s : State) (x : CkSel) (b : Byte) : State := s.withCk x ⟨ckAdd (s.ck x).acc b⟩

/-- CK_INIT (R101). -/
def execCkInit (x : CkSel) (s : State) : Host.Outcome State Fault Refusal :=
  .next ((s.ckInit x).respond .ok .none)

/-- CK_UPDATE (R102). -/
def execCkUpdate (x : CkSel) (b : Byte) (s : State) : Host.Outcome State Fault Refusal :=
  .next ((s.ckUpdate x b).respond .ok .none)

/-- CK_FINAL (R103): the vector, index 0 first; no state of the core changes. -/
def execCkFinal (x : CkSel) (s : State) : Host.Outcome State Fault Refusal :=
  .next (s.respond .ok (.bytes (s.ck x).acc))

end Sys2Proof.Machine
end

