-- ==== Sys2Proof/Machine/Control.lean ====
section
/-! DEFINITION. NOP, RESET, the reset input and illegal requests (spec/44_control_ops.md, R250 to R252). -/

namespace Sys2Proof.Machine

/-- `core_reset()` (R251): every state element of the core at its reset value, nothing outside the core touched
(R252). -/
def State.coreReset (s : State) : State :=
  ((((s.ckInit .rx).ckInit .tx).withRx
    { state := .waitSync, cnt := 0#8, len := 0#8, pbuf := [], pvalid := false }).withTx
    { fbuf := [], flen := 0#9 }).withSc
    { state := .afc, lastComm := 0, lastVel := 0#32, lastTemp := 0#8 }

/-- NOP (R200). -/
def execNop (s : State) : Host.Outcome State Fault Refusal := .next (s.respond .ok .none)

/-- RESET (R201). -/
def execReset (s : State) : Host.Outcome State Fault Refusal := .next (s.coreReset.respond .ok .none)

/-- The reset input (R250): core_reset, and no request to respond to (log entry 17). -/
def takeResetInput (s : State) : Host.Outcome State Fault Refusal := .next s.coreReset

/-- An illegal request (R72, R202): no state change, no event, the response ILLEGAL_REQUEST (log entry 7). -/
def takeIllegalRequest (s : State) : Host.Outcome State Fault Refusal := .next (s.respond .illegalRequest .none)

/-- A waiting core (R229, R251): without a request nothing changes. -/
def waitForRequest (s : State) : Host.Outcome State Fault Refusal := .next s

end Sys2Proof.Machine
end

