-- ==== Sys2Proof/Machine/Builder.lean ====
section
/-! DEFINITION. The Frame Builder (spec/42_frame_builder.md): TX_BUILD, which SC's sends use too (R183). -/

namespace Sys2Proof.Machine

/-- What a TX_BUILD gives back (R150): the state after it, its response, and the frame. -/
structure TxReply where
  state : State
  resp : Response
  out : List Byte
  deriving DecidableEq, Repr

/-- The frame of a payload (R73, R152): magic, length byte, payload, then the accumulators of a fresh cascade over
the payload, index 0 first. -/
def frameOf (n : Nat) (q : List Byte) : List Byte :=
  magic :: BitVec.ofNat 8 q.length :: (q ++ ckRun (ckSeed n) q)

/-- TX_BUILD(pin, L) (R150). The previous result is invalidated first; TXCK is left alone by OVERSIZE (R151). -/
def txBuild (q : List Byte) (s : State) : Except Fault TxReply :=
  if maxLen < q.length then .ok ⟨s.withTx { fbuf := [], flen := 0#9 }, .oversize, []⟩
  else if frameCap < (frameOf s.cfg.n q).length then .error .fbufIndex
  else
    .ok ⟨(s.withTxck ⟨ckRun (ckSeed s.cfg.n) q⟩).withTx
        { fbuf := Memory.writeSeq [] 0 (frameOf s.cfg.n q)
          flen := BitVec.ofNat 9 (frameOf s.cfg.n q).length }, .ok, frameOf s.cfg.n q⟩

/-- TX_BUILD (R150): the operand stands on the payload-in port (R53). -/
def execTxBuild (s : State) : Host.Outcome State Fault Refusal :=
  match txBuild s.pin s with
  | .error f => .fault f
  | .ok r => .next (r.state.respond r.resp (.bytes r.out))

/-- The frame that the core presents (R155): `fbuf[0..flen−1]`. -/
def State.presentedFrame (s : State) : Except Fault (List Byte) :=
  match Memory.readSeq s.tx.fbuf 0 s.tx.flen.toNat with
  | none => .error .unwrittenRead
  | some bs => .ok bs

/-- An outside read of the byte `j` of a frame (R155), which the reader names by `State.builds` of a state that presented
it. After a later TX_BUILD, on the port or by SC_TICK, or a reset the read faults; until then it faults at or past
flen. -/
def State.readFrameByte (s : State) (frame j : Nat) : Except Fault Byte :=
  if frame = s.builds then
    if j < s.tx.flen.toNat then
      match Memory.read s.tx.fbuf j with
      | none => .error .unwrittenRead
      | some b => .ok b
    else .error .unwrittenRead
  else .error .frameInvalid

end Sys2Proof.Machine
end

