-- ==== Sys2Proof/Machine/Receiver.lean ====
section
/-! DEFINITION. The Frame Receiver (spec/41_frame_receiver.md): one action per row of R80, RX_ACCEPT over them, and
each row as an instruction of its own. -/

namespace Sys2Proof.Machine

/-- What an RX_ACCEPT gives back (R120): the state after it, its response, and the payload on DONE. -/
structure RxReply where
  state : State
  resp : Response
  out : Option (List Byte)
  deriving DecidableEq, Repr

/-- The receiver's registers with this state tag. -/
def RxUnit.goto (r : RxUnit) (t : RxTag) : RxUnit := { r with state := t }

/-! The actions of the rows -/

/-- SYNC and RESYNC, and the fallback on the magic byte (R121, R128, R131): the counter is cleared. -/
def rxStartFrame (s : State) (r : Response) : Except Fault RxReply :=
  .ok ⟨s.withRx { s.rx with cnt := 0#8, state := .readLength }, r, none⟩

/-- The byte is consumed and nothing changes (R121, R128). -/
def rxDiscard (s : State) (r : Response) : Except Fault RxReply := .ok ⟨s, r, none⟩

/-- Entry to FAILED (R123, R127, R224): only RX.state changes. -/
def rxFail (s : State) (r : Response) : Except Fault RxReply := .ok ⟨s.withRx (s.rx.goto .failed), r, none⟩

/-- LEN_OK (R122). -/
def rxActLenOk (b : Byte) (s : State) : Except Fault RxReply :=
  .ok ⟨(s.withRx { s.rx with len := b, pbuf := [], pvalid := false, state := .readPayload }).ckInit .rx, .lenOk, none⟩

/-- A payload byte (R124): stored at `cnt`, fed to RXCK, counted; `t` is the state that follows. -/
def rxStore (b : Byte) (t : RxTag) (r : Response) (s : State) : Except Fault RxReply :=
  if s.rx.cnt.toNat < maxLen then
    .ok ⟨(s.withRx { s.rx with
        pbuf := Memory.write s.rx.pbuf s.rx.cnt.toNat b
        cnt := s.rx.cnt + 1#8
        state := t }).ckUpdate .rx b, r, none⟩
  else .error .pbufIndex

/-- A matching checksum byte that is not the last (R125). -/
def rxActCkMatch (s : State) : Except Fault RxReply :=
  .ok ⟨s.withRx { s.rx with cnt := s.rx.cnt + 1#8 }, .ckMatch, none⟩

/-- DONE (R126): the payload is the receiver's output. -/
def rxActDone (s : State) : Except Fault RxReply :=
  match Memory.readSeq s.rx.pbuf 0 s.rx.len.toNat with
  | none => .error .unwrittenRead
  | some p => .ok ⟨s.withRx { s.rx with pvalid := true, state := .waitSync }, .done, some p⟩

/-- The fallback on another byte (R131). -/
def rxActIllegal (s : State) : Except Fault RxReply := .ok ⟨s.withRx (s.rx.goto .waitSync), .rxIllegalState, none⟩

/-- The action of a row of R80 on the byte `b`. -/
def rxRun (row : RxRow) (b : Byte) (s : State) : Except Fault RxReply :=
  match row with
  | .sync => rxStartFrame s .sync
  | .ignored => rxDiscard s .ignored
  | .lenBadZero => rxFail s .lenBad
  | .lenOk => rxActLenOk b s
  | .lenBadNeg => rxFail s .lenBad
  | .payload => rxStore b .readPayload .payload s
  | .payloadLast => rxStore b .readChecksum .payloadLast s
  | .ckMatch => rxActCkMatch s
  | .done => rxActDone s
  | .ckMismatch => rxFail s .ckMismatch
  | .resync => rxStartFrame s .resync
  | .resyncReject => rxDiscard s .resyncReject
  | .failedNoise => rxDiscard s .failedNoise
  | .illegalStateSync => rxStartFrame s .rxIllegalStateSync
  | .illegalState => rxActIllegal s

/-! The operation -/

/-- RX_ACCEPT(b, rnd) (R120): the row that R80 selects. -/
def rxAccept (b : Byte) (rnd : Bool) (s : State) : Except Fault RxReply :=
  match s.rxSelect b rnd with
  | .error f => .error f
  | .ok row => rxRun row b s

/-- The output of an RX_ACCEPT on the request port (R71): the payload on DONE. -/
def payloadOutput : Option (List Byte) → Output
  | none => .none
  | some p => .bytes p

/-- The end of an RX_ACCEPT on the request port. -/
def rxFinish : Except Fault RxReply → Host.Outcome State Fault Refusal
  | .error f => .fault f
  | .ok r => .next (r.state.respond r.resp (payloadOutput r.out))

/-- RX_ACCEPT (R120), its draw taken from the draw source (R129). -/
def execRxAccept (b : Byte) (s : State) : Host.Outcome State Fault Refusal :=
  rxFinish (rxAccept b s.takeDraw.1 s.takeDraw.2)

/-! The rows as instructions (log entry 8) -/

/-- The RX_ACCEPT of the byte `b` in the case that the row `row` names: where R80 selects another row, this is not
the operation the core performs. -/
def rxRowExec (row : RxRow) (b : Byte) (s : State) : Host.Outcome State Fault Refusal :=
  match s.takeDraw.2.rxSelect b s.takeDraw.1 with
  | .error f => .fault f
  | .ok r => if r = row then rxFinish (rxRun row b s.takeDraw.2) else .refused .rowNotSelected

/-- Row 1 of R80 (R121). -/
def execRxSync (s : State) : Host.Outcome State Fault Refusal := rxRowExec .sync magic s

/-- Row 2 of R80 (R121). -/
def execRxIgnored (b : Byte) (s : State) : Host.Outcome State Fault Refusal := rxRowExec .ignored b s

/-- Row 3 of R80 (R123). -/
def execRxLenBadZero (s : State) : Host.Outcome State Fault Refusal := rxRowExec .lenBadZero 0#8 s

/-- Row 4 of R80 (R122). -/
def execRxLenOk (b : Byte) (s : State) : Host.Outcome State Fault Refusal := rxRowExec .lenOk b s

/-- Row 5 of R80 (R123). -/
def execRxLenBadNeg (b : Byte) (s : State) : Host.Outcome State Fault Refusal := rxRowExec .lenBadNeg b s

/-- Row 6 of R80 (R124). -/
def execRxPayload (b : Byte) (s : State) : Host.Outcome State Fault Refusal := rxRowExec .payload b s

/-- Row 7 of R80 (R124). -/
def execRxPayloadLast (b : Byte) (s : State) : Host.Outcome State Fault Refusal := rxRowExec .payloadLast b s

/-- Row 8 of R80 (R125). -/
def execRxCkMatch (b : Byte) (s : State) : Host.Outcome State Fault Refusal := rxRowExec .ckMatch b s

/-- Row 9 of R80 (R126). -/
def execRxDone (b : Byte) (s : State) : Host.Outcome State Fault Refusal := rxRowExec .done b s

/-- Row 10 of R80 (R127). -/
def execRxCkMismatch (b : Byte) (s : State) : Host.Outcome State Fault Refusal := rxRowExec .ckMismatch b s

/-- Row 11 of R80 (R128). -/
def execRxResync (s : State) : Host.Outcome State Fault Refusal := rxRowExec .resync magic s

/-- Row 12 of R80 (R128). -/
def execRxResyncReject (s : State) : Host.Outcome State Fault Refusal := rxRowExec .resyncReject magic s

/-- Row 13 of R80 (R128). -/
def execRxFailedNoise (b : Byte) (s : State) : Host.Outcome State Fault Refusal := rxRowExec .failedNoise b s

/-- Row 14 of R80 (R131): the key holds the illegal state `st`. -/
def execRxIllegalStateSync (st : RxTag) (s : State) : Host.Outcome State Fault Refusal :=
  if s.rx.state = st then rxRowExec .illegalStateSync magic s else .refused .rowNotSelected

/-- Row 15 of R80 (R131): the key holds the illegal state `st`. -/
def execRxIllegalState (st : RxTag) (b : Byte) (s : State) : Host.Outcome State Fault Refusal :=
  if s.rx.state = st then rxRowExec .illegalState b s else .refused .rowNotSelected

/-! The receiver's output -/

/-- The payload that the core presents while RX.pvalid = 1 (R132, R254). -/
def State.presentedPayload (s : State) : Except Fault (List Byte) :=
  if s.rx.pvalid then
    match Memory.readSeq s.rx.pbuf 0 s.rx.len.toNat with
    | none => .error .unwrittenRead
    | some p => .ok p
  else .error .payloadInvalid

end Sys2Proof.Machine
end

