-- ==== Sys2Proof/Machine/Session.lean ====
section
/-! DEFINITION. The Session Controller (spec/43_session_controller.md): SC_TICK, and the rows of the payload decode
(R81) and of the sent payloads (R77 to R79) as instructions of their own. -/

namespace Sys2Proof.Machine

/-- The session controller's registers with this state tag. -/
def ScUnit.goto (c : ScUnit) (t : ScTag) : ScUnit := { c with state := t }

/-- SC.last_comm <- t. -/
def ScUnit.comm (c : ScUnit) (t : Nat) : ScUnit := { c with lastComm := t }

/-- SC.last_vel <- v. -/
def ScUnit.vel (c : ScUnit) (v : Word32) : ScUnit := { c with lastVel := v }

/-- SC.last_temp <- m. -/
def ScUnit.temp (c : ScUnit) (m : Byte) : ScUnit := { c with lastTemp := m }

/-- `send_frame(q)` (R183): TX_BUILD, then one writeByte for each byte of `fbuf[0..flen−1]`, in index order. -/
def sendFrame (q : List Byte) (s : State) : Except Fault State :=
  match txBuild q s with
  | .error f => .error f
  | .ok r =>
    match r.state.presentedFrame with
    | .error f => .error f
    | .ok bs => .ok (r.state.writeBytes bs)

/-! Dispatch (R177 to R182) -/

/-- SC.last_comm <- env.nowMicros() (R173, R180). -/
def State.refreshComm (s : State) : State := s.nowMicros.2.withSc (s.sc.comm s.nowMicros.1)

/-- Steps 1 and 2 of R178: a velocity that differs is applied, and the corrected value recorded. -/
def applyIfDiffers (v : Word32) (s : State) : State :=
  if f32Differs v s.sc.lastVel then (s.applyVelocity v).2.withSc (s.sc.vel (s.applyVelocity v).1) else s

/-- Dispatch of tag 1 (R178). -/
def dispatchVelocity (v : Word32) (s : State) : Except Fault State :=
  match sendFrame (velocityPayload (applyIfDiffers v s).sc.lastVel) (applyIfDiffers v s) with
  | .error f => .error f
  | .ok s' => .ok s'.refreshComm

/-- Steps 1 and 2 of R181. -/
def applyMode (m : Byte) (s : State) : State := (s.applyTemperatureMode (sext8 m)).withSc (s.sc.temp m)

/-- Dispatch of tag 2 (R181). -/
def dispatchTempMode (m : Byte) (s : State) : Except Fault State :=
  match sendFrame (modePayload m) (applyMode m s) with
  | .error f => .error f
  | .ok s' => .ok s'.refreshComm

/-- `dispatch(p)` (R81, R170). -/
def dispatch (p : List Byte) (s : State) : Except Fault State :=
  match commandOf p with
  | .velocity v => dispatchVelocity v s
  | .temperature m => dispatchTempMode m s
  | .ignored => .ok s

/-! The tick -/

/-- What an SC_TICK gives back: the state after it and its response (R170). -/
structure ScReply where
  state : State
  resp : Response
  deriving DecidableEq, Repr

/-- The end of an AFC tick (R171, R173): the availability check after the handshake and the delay. -/
def afcCheck (s : State) : ScReply :=
  if 0 < s.bytesAvailable.1 then
    ⟨s.bytesAvailable.2.refreshComm.withSc (s.bytesAvailable.2.refreshComm.sc.goto .active), .contact⟩
  else ⟨s.bytesAvailable.2, .afcWait⟩

/-- A tick in AWAIT_FIRST_CONTACT (R171 to R173): transmit, delay, check. -/
def tickAfc (s : State) : Except Fault ScReply :=
  match sendFrame (handshakePayload s.cfg.flag) s with
  | .error f => .error f
  | .ok s' => .ok (afcCheck s'.delay)

/-- One byte of step (b) (R176, R177): read, accepted with the next draw, and a completed message dispatched at once. -/
def drainByte (b : Byte) (s : State) : Except Fault State :=
  match rxAccept b (s.readByte b).takeDraw.1 (s.readByte b).takeDraw.2 with
  | .error f => .error f
  | .ok r =>
    match r.out with
    | none => .ok r.state
    | some p => dispatch p r.state

/-- Step (b) of an ACTIVE tick over the bytes it reads, in order. -/
def drain : List Byte → State → Except Fault State
  | [], s => .ok s
  | b :: bs, s =>
    match drainByte b s with
    | .error f => .error f
    | .ok s' => drain bs s'

/-- Step (c) on timeout (R186): the velocity call's answer is discarded, no echo is sent. -/
def enterTerminal (s : State) : State :=
  ((s.applyVelocity 0#32).2.applyTemperatureMode 0).withSc
    { s.sc with lastVel := 0#32, lastTemp := 0#8, state := .terminal }

/-- Step (c) of an ACTIVE tick (R184): one clock reading, and a strict unsigned comparison. -/
def livenessCheck (s : State) : ScReply :=
  if s.cfg.timeoutUs < s.elapsed s.nowMicros.1 then ⟨enterTerminal s.nowMicros.2, .timeout⟩
  else ⟨s.nowMicros.2, .activeOk⟩

/-- A tick in ACTIVE (R174 to R186): (a) actuation, (b) drain of the bytes available, (c) liveness. -/
def tickActive (s : State) : Except Fault ScReply :=
  match drain (s.env.fifo.take s.tickActuation.bytesAvailable.1) s.tickActuation.bytesAvailable.2 with
  | .error f => .error f
  | .ok s' => .ok (livenessCheck s')

/-- SC_TICK (R170), by session state. TERMINAL does nothing (R187); the value 3 re-enters AFC (R189). -/
def scTick (s : State) : Except Fault ScReply :=
  match s.sc.state with
  | .afc => tickAfc s
  | .active => tickActive s
  | .terminal => .ok ⟨s, .terminalIdle⟩
  | .illegal3 => .ok ⟨s.withSc (s.sc.goto .afc), .scIllegalState⟩

/-- SC_TICK (R170): its output is the trace of the events it issued (R71). -/
def execScTick (s : State) : Host.Outcome State Fault Refusal :=
  match scTick s with
  | .error f => .fault f
  | .ok r => .next (r.state.respond r.resp (.trace (r.state.trace.drop s.trace.length)))

/-! The rows of the payload tables as instructions. R170 dispatches in ACTIVE alone and sends the handshake in AFC alone.
These rows do not read SC.state, as `dispatch` and `send_frame` of R170 do not, so an instruction of its own runs in
every SC.state, TERMINAL included: the model's choice (log entry 8). -/

/-- Row 1 of R81 (R178): the dispatch of tag 1, in every SC.state (log entry 8). -/
def execCmdVelocity (v : Word32) (_rest : List Byte) (s : State) : Host.Outcome State Fault Refusal :=
  ofExcept (dispatchVelocity v s)

/-- Row 2 of R81 (R181): the dispatch of tag 2, for a mode of the domain, in every SC.state (log entry 8). -/
def execCmdTempMode (m : Byte) (_rest : List Byte) (s : State) : Host.Outcome State Fault Refusal :=
  if isMode m then ofExcept (dispatchTempMode m s) else .refused .rowNotSelected

/-- Row 3 of R81 (R182): no event and no state change, for a payload that the rows above do not take, in every SC.state
(log entry 8). -/
def execCmdIgnored (p : List Byte) (s : State) : Host.Outcome State Fault Refusal :=
  if commandOf p = .ignored then .next s else .refused .rowNotSelected

/-- The handshake (R77, R172): sent with the configured flag, in every SC.state (log entry 8). -/
def execTxHandshake (f : Byte) (s : State) : Host.Outcome State Fault Refusal :=
  if f = s.cfg.flag then ofExcept (sendFrame (handshakePayload f) s) else .refused .rowNotSelected

/-- The velocity echo (R78, R178): sent with the value recorded in SC.last_vel, in every SC.state (log entry 8). -/
def execTxVelocityEcho (w : Word32) (s : State) : Host.Outcome State Fault Refusal :=
  if w = s.sc.lastVel then ofExcept (sendFrame (velocityPayload w) s) else .refused .rowNotSelected

/-- The mode echo (R79, R181): sent with a mode of the domain, in every SC.state (log entry 8). -/
def execTxTempModeEcho (m : Byte) (s : State) : Host.Outcome State Fault Refusal :=
  if isMode m then ofExcept (sendFrame (modePayload m) s) else .refused .rowNotSelected

/-! Placing an operation where the next step takes it (log entries 9 and 10) -/

/-- The machine about to take the request word `w`, with nothing on the payload-in port. -/
def State.withRequest (s : State) (w : BitVec 13) : State := s.withQueue (.request w [] :: s.queue)

/-- The machine about to dispatch the payload `p`: the session ACTIVE, the receiver in WAIT_SYNC, the payload's frame
available on the transport, and an SC_TICK requested. -/
def State.withCommand (s : State) (p : List Byte) : State :=
  ((((s.withSc (s.sc.goto .active)).withRx (s.rx.goto .waitSync)).withEnv
    { s.env with
      fifo := frameOf s.cfg.n p ++ s.env.fifo
      counts := (frameOf s.cfg.n p).length :: s.env.counts })).withRequest (reqWord 0#1 6#4 0#8)

end Sys2Proof.Machine
end

