-- ==== Sys2Proof/Machine/Dispatch.lean ====
section
/-! DEFINITION. One arm per constructor of Instr. -/

namespace Sys2Proof.Machine

/-- The meaning of an instruction. -/
def exec (i : Instr) (s : State) : Host.Outcome State Fault Refusal :=
  match i with
  | .nop => Sys2Proof.Machine.execNop s
  | .ckInit x => Sys2Proof.Machine.execCkInit x s
  | .ckUpdate x b => Sys2Proof.Machine.execCkUpdate x b s
  | .ckFinal x => Sys2Proof.Machine.execCkFinal x s
  | .rxAccept b => Sys2Proof.Machine.execRxAccept b s
  | .txBuild => Sys2Proof.Machine.execTxBuild s
  | .scTick => Sys2Proof.Machine.execScTick s
  | .reset => Sys2Proof.Machine.execReset s
  | .rxSync => Sys2Proof.Machine.execRxSync s
  | .rxIgnored b => Sys2Proof.Machine.execRxIgnored b s
  | .rxLenBadZero => Sys2Proof.Machine.execRxLenBadZero s
  | .rxLenOk b => Sys2Proof.Machine.execRxLenOk b s
  | .rxLenBadNeg b => Sys2Proof.Machine.execRxLenBadNeg b s
  | .rxPayload b => Sys2Proof.Machine.execRxPayload b s
  | .rxPayloadLast b => Sys2Proof.Machine.execRxPayloadLast b s
  | .rxCkMatch b => Sys2Proof.Machine.execRxCkMatch b s
  | .rxDone b => Sys2Proof.Machine.execRxDone b s
  | .rxCkMismatch b => Sys2Proof.Machine.execRxCkMismatch b s
  | .rxResync => Sys2Proof.Machine.execRxResync s
  | .rxResyncReject => Sys2Proof.Machine.execRxResyncReject s
  | .rxFailedNoise b => Sys2Proof.Machine.execRxFailedNoise b s
  | .rxIllegalStateSync st => Sys2Proof.Machine.execRxIllegalStateSync st s
  | .rxIllegalState st b => Sys2Proof.Machine.execRxIllegalState st b s
  | .cmdVelocity v rest => Sys2Proof.Machine.execCmdVelocity v rest s
  | .cmdTempMode m rest => Sys2Proof.Machine.execCmdTempMode m rest s
  | .cmdIgnored p => Sys2Proof.Machine.execCmdIgnored p s
  | .txHandshake f => Sys2Proof.Machine.execTxHandshake f s
  | .txVelocityEcho w => Sys2Proof.Machine.execTxVelocityEcho w s
  | .txTempModeEcho m => Sys2Proof.Machine.execTxTempModeEcho m s

end Sys2Proof.Machine
end

