-- ==== Sys2Proof/Machine/Step.lean ====
section
/-! DEFINITION. One step: the core takes the next stimulus of the requester and runs it to completion (R55, R203). The
same step as a relation over the core's record, with its parameters as arguments (R21). -/

namespace Sys2Proof.Machine

/-- One step. A request word that decodes is presented with its payload-in operand and run. An illegal one is
answered ILLEGAL_REQUEST (R202), the reset input resets (R250), and without a stimulus the core waits (R251). -/
def step (s : State) : Host.Outcome State Fault Refusal :=
  match s.fetch with
  | none => waitForRequest s
  | some (.resetInput, s') => takeResetInput s'
  | some (.request w pin, s') =>
    match decodeRequest w with
    | .error _ => takeIllegalRequest (s'.withPin pin)
    | .ok i => exec i (s'.withPin pin)

/-- What a step of the core gives: the next record, what is left of the environment, and what it adds to the observation
of the run (R237). -/
structure Reaction where
  record : Record
  env : Env
  builds : Nat
  events : List Event
  reports : List Report
  deriving DecidableEq, Repr

/-- The step relation of R20 and R21: from a record to a record, with the configuration, the environment's answers and
the request as parameters. `step` is this relation on the record that a State holds (log entry 23). -/
def coreStep (c : Config) (e : Env) (x : Stimulus) (r : Record) : Host.Outcome Reaction Fault Refusal :=
  match step { toRecord := r, cfg := c, pin := [], queue := [x], env := e, builds := 0, trace := [], reports := [] } with
  | .next t => .next ⟨t.toRecord, t.env, t.builds, t.trace, t.reports⟩
  | .fault f => .fault f
  | .refused f => .refused f

/-- The state whose next step takes the instruction that `decodeTableWord nbits w` reads (log entries 9 and 10): a
request word, or a payload that the next SC_TICK dispatches. -/
def State.withFetchWord (s : State) (nbits w : Nat) : State :=
  if nbits ≤ 8 then s.withCommand (tagPayload w) else s.withRequest (BitVec.ofNat 13 w)

end Sys2Proof.Machine
end

