-- ==== Sys2Proof/Machine/Flags.lean ====
section
/-! DEFINITION. The response codes. The core has no flags or condition codes (R37): the 4-bit response code is an
operation's only status, an output that nothing reads back. -/

namespace Sys2Proof.Machine

/-- The 4-bit code of a response in its operation's code space (R220). -/
def Response.code : Response → BitVec 4
  | .ok => 0x0
  | .illegalRequest => 0xF
  | .ignored => 0x0
  | .sync => 0x1
  | .lenOk => 0x2
  | .lenBad => 0x3
  | .payload => 0x4
  | .payloadLast => 0x5
  | .ckMatch => 0x6
  | .done => 0x7
  | .ckMismatch => 0x8
  | .failedNoise => 0x9
  | .resync => 0xA
  | .resyncReject => 0xB
  | .rxIllegalState => 0xC
  | .rxIllegalStateSync => 0xD
  | .oversize => 0x1
  | .afcWait => 0x0
  | .contact => 0x1
  | .activeOk => 0x2
  | .timeout => 0x3
  | .terminalIdle => 0x4
  | .scIllegalState => 0x5

end Sys2Proof.Machine
end

