-- ==== Sys2Proof/WellFormed.lean ====
section
/-! DEFINITION. Which operands a row of the opcode table admits. A request word's operands are all legal (R70, R72);
a row of an inner table leaves to its operand what the rows above it do not take (R80, R81). -/

namespace Sys2Proof

/-- The operand values that the instruction's row of the opcode table admits. A payload has 1 to 127 bytes (R9). -/
def Instr.wf : Instr → Bool
  | .nop | .ckInit _ | .ckUpdate _ _ | .ckFinal _ | .rxAccept _ | .txBuild | .scTick | .reset => true
  | .rxSync | .rxLenBadZero | .rxResync | .rxResyncReject => true
  | .rxIgnored b => b != magic
  | .rxLenOk b => decide (1 ≤ b.toNat) && decide (b.toNat ≤ 127)
  | .rxLenBadNeg b => decide (128 ≤ b.toNat)
  | .rxPayload _ | .rxPayloadLast _ | .rxCkMatch _ | .rxDone _ | .rxCkMismatch _ => true
  | .rxFailedNoise b => b != magic
  | .rxIllegalStateSync st => st.isIllegal
  | .rxIllegalState st b => st.isIllegal && b != magic
  | .cmdVelocity _ rest => decide (rest.length ≤ 122)
  | .cmdTempMode m rest => isMode m && decide (rest.length ≤ 125)
  | .cmdIgnored p => decide (1 ≤ p.length) && decide (p.length ≤ 127) && decide (commandOf p = .ignored)
  | .txHandshake _ | .txVelocityEcho _ => true
  | .txTempModeEcho m => isMode m

end Sys2Proof
end

