-- ==== Sys2Proof/Safety.lean ====
section
/-! DEFINITION. What the claims speak of: the invariant of the machine (R28, R30, R31, R32), runs of bytes through the
receiver (R136), and the tables that the decode is held against. -/

namespace Sys2Proof.Machine

/-- The cells `0..n−1` of a buffer are written. -/
def Written (m : Memory) (n : Nat) : Prop := ∀ j, j < n → (Memory.read m j).isSome

/-- The cells from `n` on are unwritten. -/
def UnwrittenFrom (m : Memory) (n : Nat) : Prop := ∀ j, n ≤ j → Memory.read m j = none

/-- The receiver's invariants (R28). -/
structure RxInv (n : Nat) (r : RxUnit) : Prop where
  /-- RX.state is one of 0..4. -/
  legal : r.state.isIllegal = false
  length : r.state = .readLength → r.cnt = 0#8
  payload : r.state = .readPayload →
    1 ≤ r.len.toNat ∧ r.len.toNat ≤ 127 ∧ r.cnt.toNat < r.len.toNat ∧ Written r.pbuf r.cnt.toNat ∧
      UnwrittenFrom r.pbuf r.cnt.toNat
  checksum : r.state = .readChecksum →
    1 ≤ r.len.toNat ∧ r.len.toNat ≤ 127 ∧ r.len.toNat ≤ r.cnt.toNat ∧ r.cnt.toNat < r.len.toNat + n ∧
      Written r.pbuf r.len.toNat
  valid : r.pvalid = true →
    (r.state = .waitSync ∨ r.state = .readLength ∨ r.state = .failed) ∧ 1 ≤ r.len.toNat ∧ r.len.toNat ≤ 127 ∧
      Written r.pbuf r.len.toNat

/-- The builder's invariants: `flen` is a frame length, and `fbuf[0..flen−1]` are the written cells (R29, R30). -/
structure TxInv (u : TxUnit) : Prop where
  bound : u.flen.toNat ≤ frameCap
  written : Written u.fbuf u.flen.toNat
  unwritten : UnwrittenFrom u.fbuf u.flen.toNat

/-- The invariant of the machine: every step keeps it, and it rules out the states in which an index could leave its
range (R50) or an unwritten cell be read (R56). -/
structure Inv (s : State) : Prop where
  /-- The configuration is legal (R5). -/
  cfg : s.cfg.Legal
  /-- RXCK has N accumulators (R22). -/
  rxck : s.rxck.acc.length = s.cfg.n
  /-- TXCK has N accumulators (R22). -/
  txck : s.txck.acc.length = s.cfg.n
  /-- RX.pbuf is in canonical form. -/
  pbuf : Memory.wf maxLen s.rx.pbuf = true
  /-- TX.fbuf is in canonical form. -/
  fbuf : Memory.wf frameCap s.tx.fbuf = true
  rx : RxInv s.cfg.n s.rx
  tx : TxInv s.tx
  /-- SC.state is one of 0..2 (R31). -/
  sc : s.sc.state ≠ .illegal3
  /-- SC.last_comm is a CLK_W-bit value (R32). -/
  comm : s.sc.lastComm < 2 ^ s.cfg.clkW

/-- Running operations one after the other, stopping at the first fault or refusal (R61). -/
def runInstrs : List Instr → State → Host.Outcome State Fault Refusal
  | [], s => .next s
  | i :: is, s =>
    match exec i s with
    | .next s' => runInstrs is s'
    | .fault f => .fault f
    | .refused r => .refused r

/-- Feeding bytes by RX_ACCEPT, one after the other (R84's RX.FEED). -/
def feed (bs : List Byte) (s : State) : Host.Outcome State Fault Refusal := runInstrs (bs.map .rxAccept) s

/-- Bytes through a cascade, one after the other (R84's CK.RUN, less its CK_FINAL). -/
def ckRunInstrs (x : CkSel) (bs : List Byte) (s : State) : Host.Outcome State Fault Refusal :=
  runInstrs (.ckInit x :: bs.map (.ckUpdate x)) s

/-- The accumulators of a fresh cascade of order `n` (R101): accumulator 0 is 1, the others 0. -/
def IsSeed (n : Nat) (acc : List Byte) : Prop :=
  acc.length = n ∧ ∀ c, c < n → acc[c]? = some (if c = 0 then 1#8 else 0#8)

/-- `acc'` is `acc` after one update with `b` (R102): level 0 has added `b`, and every other level the level below it
as already updated. -/
def CkUpdated (acc : List Byte) (b : Byte) (acc' : List Byte) : Prop :=
  acc'.length = acc.length ∧ (∀ a, acc[0]? = some a → acc'[0]? = some (a + b)) ∧
    ∀ c a, acc[c + 1]? = some a → ∃ p, acc'[c]? = some p ∧ acc'[c + 1]? = some (a + p)

/-- The bytes are what the cells `0..len−1` of a buffer hold. -/
def HoldsBytes (m : Memory) (bs : List Byte) : Prop := ∀ j, j < bs.length → Memory.read m j = bs[j]?

/-- An RX_ACCEPT, on the port or as a row, answers a next state: the receiver's registers and RXCK are these, the
response and the output are reported, the draw source and no other part of the environment may have moved, and
everything else is as before. -/
def RxCompletes (o : Host.Outcome State Fault Refusal) (s : State) (r : RxUnit) (c : CkState) (resp : Response)
    (out : Output) : Prop :=
  ∃ t, o = .next t ∧
    t = { s with
      rx := r, rxck := c
      env := { s.env with draws := t.env.draws, drawn := t.env.drawn }
      reports := s.reports ++ [⟨resp, out⟩] }

/-- The builder after a send of the payload `q` from `s` (R150, R183): the frame of `q` is what the core presents, and
TXCK is what CK_INIT and one CK_UPDATE for each byte of `q` make of it. -/
def Built (s t : State) (q : List Byte) : Prop :=
  t.presentedFrame = .ok (frameOf s.cfg.n q) ∧ ∃ v, ckRunInstrs .tx q s = .next v ∧ t.txck = v.txck

/-- A payload whose handling is a dispatch (R180): row 1 or row 2 of R81 takes it. -/
def isDispatched (p : List Byte) : Bool :=
  (p[0]? == some 0x01#8 && decide (5 ≤ p.length)) ||
    (p[0]? == some 0x02#8 && (p[1]? == some 0xFF#8 || p[1]? == some 0x00#8 || p[1]? == some 0x01#8))

/-- One byte of step (b) (R170, R176, R177): the readByte event that takes it off the FIFO, the effect of RX_ACCEPT on
it, and, where that completes a payload, at once the effect of the instruction which that payload decodes to. Inside a
tick RX_ACCEPT gives its answer to SC, so it adds nothing to the reports. -/
def DrainedByte (b : Byte) (s t : State) (payload : Option (List Byte)) : Prop :=
  ∃ u r, exec (.rxAccept b) { s with
      env := { s.env with fifo := s.env.fifo.drop 1 }, trace := s.trace ++ [.readByte b] } = .next u ∧
    u.reports = s.reports ++ [r] ∧
    match r.out with
    | .bytes p => payload = some p ∧ exec (decodeCommand p) { u with reports := s.reports } = .next t
    | .none | .trace _ => payload = none ∧ t = { u with reports := s.reports }

/-- Step (b) over its bytes, in order, with the payloads that it completes, in order. -/
def Drained : List Byte → State → List (List Byte) → State → Prop
  | [], s, ps, t => ps = [] ∧ t = s
  | b :: bs, s, ps, t => ∃ u p qs, DrainedByte b s u p ∧ Drained bs u qs t ∧ ps = p.toList ++ qs

/-- The state in which step (b) of an ACTIVE tick begins its reads: the tick has issued tickActuation and asked once how
many bytes are available (R175, R176). -/
def drainStart (s : State) : State :=
  { s with
    env := s.bytesAvailable.2.env
    trace := s.trace ++ [.tickActuation, .bytesAvailable s.bytesAvailable.1] }

/-- The reading of a clock event. -/
def Event.reading : Event → Option Nat
  | .nowMicros t => some t
  | _ => none

/-- The byte of a read event. -/
def Event.byteRead : Event → Option Byte
  | .readByte b => some b
  | _ => none

end Sys2Proof.Machine

namespace Sys2Proof

/-- The instruction is a row of the receiver's byte decode (R80), with the state tag and the byte of its key. -/
def Instr.rxRowKey : Instr → Option (RxRow × RxTag × Byte)
  | .rxSync => some (.sync, .waitSync, magic)
  | .rxIgnored b => some (.ignored, .waitSync, b)
  | .rxLenBadZero => some (.lenBadZero, .readLength, 0#8)
  | .rxLenOk b => some (.lenOk, .readLength, b)
  | .rxLenBadNeg b => some (.lenBadNeg, .readLength, b)
  | .rxPayload b => some (.payload, .readPayload, b)
  | .rxPayloadLast b => some (.payloadLast, .readPayload, b)
  | .rxCkMatch b => some (.ckMatch, .readChecksum, b)
  | .rxDone b => some (.done, .readChecksum, b)
  | .rxCkMismatch b => some (.ckMismatch, .readChecksum, b)
  | .rxResync => some (.resync, .failed, magic)
  | .rxResyncReject => some (.resyncReject, .failed, magic)
  | .rxFailedNoise b => some (.failedNoise, .failed, b)
  | .rxIllegalStateSync st => some (.illegalStateSync, st, magic)
  | .rxIllegalState st b => some (.illegalState, st, b)
  | .nop | .ckInit _ | .ckUpdate _ _ | .ckFinal _ | .rxAccept _ | .txBuild | .scTick | .reset => none
  | .cmdVelocity _ _ | .cmdTempMode _ _ | .cmdIgnored _ => none
  | .txHandshake _ | .txVelocityEcho _ | .txTempModeEcho _ => none

/-- The instruction builds no frame and resets nothing: it is neither TX_BUILD, RESET, SC_TICK nor a row that SC builds a
frame for (R36). -/
def Instr.keepsFrame : Instr → Bool
  | .txBuild | .scTick | .reset | .cmdVelocity _ _ | .cmdTempMode _ _ => false
  | .txHandshake _ | .txVelocityEcho _ | .txTempModeEcho _ => false
  | .nop | .ckInit _ | .ckUpdate _ _ | .ckFinal _ | .rxAccept _ | .cmdIgnored _ => true
  | .rxSync | .rxIgnored _ | .rxLenBadZero | .rxLenOk _ | .rxLenBadNeg _ | .rxPayload _ | .rxPayloadLast _ => true
  | .rxCkMatch _ | .rxDone _ | .rxCkMismatch _ | .rxResync | .rxResyncReject | .rxFailedNoise _ => true
  | .rxIllegalStateSync _ | .rxIllegalState _ _ => true

/-- The responses of a request's operation, in the order of its code space (R220), ILLEGAL_REQUEST left out; none for
a row of an inner table, which is no request. -/
def Instr.responses : Instr → List Machine.Response
  | .nop | .ckInit _ | .ckUpdate _ _ | .ckFinal _ | .reset => [.ok]
  | .rxAccept _ =>
    [.ignored, .sync, .lenOk, .lenBad, .payload, .payloadLast, .ckMatch, .done, .ckMismatch, .failedNoise, .resync,
      .resyncReject, .rxIllegalState, .rxIllegalStateSync]
  | .txBuild => [.ok, .oversize]
  | .scTick => [.afcWait, .contact, .activeOk, .timeout, .terminalIdle, .scIllegalState]
  | .rxSync | .rxIgnored _ | .rxLenBadZero | .rxLenOk _ | .rxLenBadNeg _ | .rxPayload _ | .rxPayloadLast _ => []
  | .rxCkMatch _ | .rxDone _ | .rxCkMismatch _ | .rxResync | .rxResyncReject | .rxFailedNoise _ => []
  | .rxIllegalStateSync _ | .rxIllegalState _ _ => []
  | .cmdVelocity _ _ | .cmdTempMode _ _ | .cmdIgnored _ | .txHandshake _ | .txVelocityEcho _ | .txTempModeEcho _ => []

/-- A row of the opcode table of format `rx-byte`: its match and mask over the key K, and its guard on the bits
`last`, `hit` and `rnd` (R80). -/
structure RxTableRow where
  row : RxRow
  pattern : BitVec 11
  mask : BitVec 11
  guard : Bool → Bool → Bool → Bool

/-- The rows of format `rx-byte` of spec/opcode_table.json, in the table's order. -/
def rxTable : List RxTableRow :=
  [ ⟨.sync, 0x00A, 0x7FF, fun _ _ _ => true⟩,
    ⟨.ignored, 0x000, 0x700, fun _ _ _ => true⟩,
    ⟨.lenBadZero, 0x100, 0x7FF, fun _ _ _ => true⟩,
    ⟨.lenOk, 0x100, 0x780, fun _ _ _ => true⟩,
    ⟨.lenBadNeg, 0x180, 0x780, fun _ _ _ => true⟩,
    ⟨.payload, 0x200, 0x700, fun last _ _ => !last⟩,
    ⟨.payloadLast, 0x200, 0x700, fun last _ _ => last⟩,
    ⟨.ckMatch, 0x300, 0x700, fun last hit _ => hit && !last⟩ ] ++
  [ ⟨.done, 0x300, 0x700, fun last hit _ => hit && last⟩,
    ⟨.ckMismatch, 0x300, 0x700, fun _ hit _ => !hit⟩,
    ⟨.resync, 0x40A, 0x7FF, fun _ _ rnd => rnd⟩,
    ⟨.resyncReject, 0x40A, 0x7FF, fun _ _ rnd => !rnd⟩,
    ⟨.failedNoise, 0x400, 0x700, fun _ _ _ => true⟩,
    ⟨.illegalStateSync, 0x40A, 0x4FF, fun _ _ _ => true⟩,
    ⟨.illegalState, 0x400, 0x400, fun _ _ _ => true⟩ ]

/-- The row takes this key under these guard bits. -/
def RxTableRow.takes (r : RxTableRow) (k : BitVec 11) (last hit rnd : Bool) : Bool :=
  k &&& r.mask == r.pattern && r.guard last hit rnd

end Sys2Proof
end

