-- ==== Sys2Proof/Certificates/Slice0/Obligations.lean ====
section
/-! DEFINITION. The statements for the provers, from the spec's numbered rules. -/

open Sys2Proof Sys2Proof.Machine

/-! Encodings -/

/-- R71, R80, R81: words, keys and payloads written out from the tables decode to what they stand for. -/
def Obligations.SpecWordsDecode : Prop :=
  decodeRequest 0x0000#13 = .ok .nop ∧ decodeRequest 0x1100#13 = .ok (.ckInit .tx) ∧
  decodeRequest 0x12FF#13 = .ok (.ckUpdate .tx 0xFF#8) ∧ decodeRequest 0x0300#13 = .ok (.ckFinal .rx) ∧
  decodeRequest 0x040A#13 = .ok (.rxAccept 0x0A#8) ∧ decodeRequest 0x0500#13 = .ok .txBuild ∧
  decodeRequest 0x0600#13 = .ok .scTick ∧ decodeRequest 0x0700#13 = .ok .reset ∧
  decodeRequest 0x140A#13 = .error (.selNotZero 4#4) ∧ decodeRequest 0x0501#13 = .error (.argNotZero 5#4) ∧
  decodeRequest 0x0800#13 = .error (.reservedOp 8#4) ∧
  decodeRxKey 0x00A#11 false false false = .rxSync ∧ decodeRxKey 0x17F#11 false false false = .rxLenOk 0x7F#8 ∧
  decodeRxKey 0x1FF#11 false false false = .rxLenBadNeg 0xFF#8 ∧ decodeRxKey 0x40A#11 false false true = .rxResync ∧
  decodeRxKey 0x60A#11 false false false = .rxIllegalStateSync .illegal6 ∧
  decodeCommand [0x01#8, 0x00#8, 0x00#8, 0x80#8, 0x3F#8] = .cmdVelocity 0x3F800000#32 [] ∧
  decodeCommand [0x02#8, 0xFF#8, 0x00#8] = .cmdTempMode 0xFF#8 [0x00#8] ∧
  decodeCommand [0x02#8, 0x05#8] = .cmdIgnored [0x02#8, 0x05#8]

/-- R72: a request word is illegal exactly when one of the three conditions holds. -/
def Obligations.RequestIllegalExactlyWhen : Prop :=
  ∀ w : BitVec 13,
    (∃ e, decodeRequest w = .error e) ↔
      8 ≤ (w.toNat / 256) % 16 ∨
      (w.toNat / 4096 = 1 ∧ (w.toNat / 256) % 16 ∉ [1, 2, 3]) ∨
      (w.toNat % 256 ≠ 0 ∧ (w.toNat / 256) % 16 ∉ [2, 4])

/-- R70, R71, R80, R81: no bit of an encoding is dropped: every well-formed instruction decodes from its own words. -/
def Obligations.DecodeEncodeRoundTrip : Prop := ∀ i : Instr, i.wf = true → decode (encode i) = .ok i

/-- R71, R81, R76: each request word, received payload and sent payload that decodes has one instruction, which is
well-formed and encodes back to it. -/
def Obligations.EncodeDecodeRoundTrip : Prop :=
  (∀ w i, decodeRequest w = .ok i → i.wf = true ∧ encode i = .request w) ∧
  (∀ p : List Byte, 1 ≤ p.length → p.length ≤ 127 → (decodeCommand p).wf = true ∧ encode (decodeCommand p) = .command p) ∧
  (∀ p i, decodeSent p = .ok i → i.wf = true ∧ encode i = .sent p)

/-- R80: the decode of a byte is the first row of the opcode table, in the table's order, whose match, mask and guard
take the key. -/
def Obligations.RxDecodeIsFirstMatchingRow : Prop :=
  ∀ (st : RxTag) (b : Byte) (last hit rnd : Bool),
    (rxTable.find? fun r => r.takes (rxKey st b) last hit rnd).map RxTableRow.row = some (rxRowOf st b last hit rnd)

/-! Steps -/

/-- R203: a step takes the oldest request off the queue, presents its payload-in operand and runs what the word
decodes to. -/
def Obligations.StepRunsDecodedInstruction : Prop :=
  ∀ (s : State) (w : BitVec 13) (pin : List Byte) (q : List Stimulus) (i : Instr),
    s.queue = .request w pin :: q → decodeRequest w = .ok i → step s = exec i { s with queue := q, pin := pin }

/-- R202 with log entry 7, R251 with log entry 6: an illegal request is taken and answered ILLEGAL_REQUEST, no state of
the core changes and no event is issued; without a request the core waits. -/
def Obligations.StepWithoutInstruction : Prop :=
  (∀ (s : State) (w : BitVec 13) (pin : List Byte) (q : List Stimulus) (e : DecodeError),
    s.queue = .request w pin :: q → decodeRequest w = .error e →
    step s = .next { s with queue := q, pin := pin, reports := s.reports ++ [⟨.illegalRequest, .none⟩] }) ∧
  ∀ s : State, s.queue = [] → step s = .next s

/-- R220 with log entry 15: every request that is answered adds one response, of its operation's code space; the codes of
a space count up from 0, and ILLEGAL_REQUEST is 0xF. -/
def Obligations.ResponsesStayInCodeSpace : Prop :=
  (∀ (i : Instr) (s t : State), i.responses ≠ [] → exec i s = .next t →
    ∃ r : Report, t.reports = s.reports ++ [r] ∧ r.resp ∈ i.responses) ∧
  (∀ i : Instr, i.responses.map Response.code = (List.range i.responses.length).map (BitVec.ofNat 4)) ∧
  (∀ i : Instr, Response.illegalRequest ∉ i.responses) ∧ Response.illegalRequest.code = 0xF#4

/-! Reset and control -/

/-- R38, R251: the core's record after reset, under any configuration. -/
def Obligations.ResetStateHoldsResetValues : Prop :=
  ∀ c : Config,
    (∀ x, IsSeed c.n ((State.resetWith c).ck x).acc) ∧
    (State.resetWith c).rx = { state := .waitSync, cnt := 0#8, len := 0#8, pbuf := [], pvalid := false } ∧
    (State.resetWith c).tx = { fbuf := [], flen := 0#9 } ∧
    (State.resetWith c).sc = { state := .afc, lastComm := 0, lastVel := 0#32, lastTemp := 0#8 } ∧
    State.reset = State.resetWith Config.reference

/-- The reset state meets the invariant, under the reference configuration whatever its OPEN parameters are. -/
def Obligations.ResetStateMeetsInvariant : Prop := Inv State.reset

/-- R200: the word 0x0000 is NOP, which changes no state and issues no event. -/
def Obligations.NopOnlyResponds : Prop :=
  decodeRequest 0x0000#13 = .ok .nop ∧ ∀ s : State, exec .nop s = .next { s with reports := s.reports ++ [⟨.ok, .none⟩] }

/-- R201, R250, R251, R252: RESET sets every element of the core to its reset value and touches nothing outside it;
the reset input has the same effect, with no response (log entry 17). State.builds counts it (log entry 24). -/
def Obligations.ResetSetsEveryElement : Prop :=
  ∀ s : State, ∃ c d : CkState, IsSeed s.cfg.n c.acc ∧ IsSeed s.cfg.n d.acc ∧
    (let t : State := { s with
        rxck := c, txck := d
        rx := { state := .waitSync, cnt := 0#8, len := 0#8, pbuf := [], pvalid := false }
        tx := { fbuf := [], flen := 0#9 }
        sc := { state := .afc, lastComm := 0, lastVel := 0#32, lastTemp := 0#8 }
        builds := s.builds + 1 };
      exec .reset s = .next { t with reports := s.reports ++ [⟨.ok, .none⟩] } ∧
      ∀ q, s.queue = .resetInput :: q → step s = .next { t with queue := q })

/-! The checksum cascade -/

/-- R101: the words 0x0100 and 0x1100 are CK_INIT of RXCK and of TXCK; CK_INIT seeds the selected cascade, and the other
cascade and everything else stay. -/
def Obligations.CkInitSeedsOneCascade : Prop :=
  decodeRequest 0x0100#13 = .ok (.ckInit .rx) ∧ decodeRequest 0x1100#13 = .ok (.ckInit .tx) ∧
  ∀ (x : CkSel) (s : State), ∃ t, exec (.ckInit x) s = .next t ∧
    IsSeed s.cfg.n (t.ck x).acc ∧ (∀ y, y ≠ x → t.ck y = s.ck y) ∧
    t = { s with rxck := t.rxck, txck := t.txck, reports := s.reports ++ [⟨.ok, .none⟩] }

/-- R102: the words 0x0200 + b and 0x1200 + b are CK_UPDATE of RXCK and of TXCK; CK_UPDATE adds the byte to level 0 and
each updated level to the next, and the other cascade and everything else stay. -/
def Obligations.CkUpdateAddsLevelByLevel : Prop :=
  (∀ b : Byte, decodeRequest (0x0200#13 + b.setWidth 13) = .ok (.ckUpdate .rx b) ∧
    decodeRequest (0x1200#13 + b.setWidth 13) = .ok (.ckUpdate .tx b)) ∧
  ∀ (x : CkSel) (b : Byte) (s : State), ∃ t, exec (.ckUpdate x b) s = .next t ∧
    CkUpdated (s.ck x).acc b (t.ck x).acc ∧ (∀ y, y ≠ x → t.ck y = s.ck y) ∧
    t = { s with rxck := t.rxck, txck := t.txck, reports := s.reports ++ [⟨.ok, .none⟩] }

/-- R103: the words 0x0300 and 0x1300 are CK_FINAL of RXCK and of TXCK; CK_FINAL outputs the selected vector, index 0
first, and changes no state. -/
def Obligations.CkFinalReadsVector : Prop :=
  decodeRequest 0x0300#13 = .ok (.ckFinal .rx) ∧ decodeRequest 0x1300#13 = .ok (.ckFinal .tx) ∧
  ∀ (x : CkSel) (s : State),
    exec (.ckFinal x) s = .next { s with reports := s.reports ++ [⟨.ok, .bytes (s.ck x).acc⟩] }

/-- R105: after CK_INIT and k updates, accumulator c holds (C(k+c−1, c) + Σ C(k−i+c, c)·b_i) mod 256; with no update
it holds the seed. -/
def Obligations.CascadeHasClosedForm : Prop :=
  ∀ (x : CkSel) (bs : List Byte) (s : State), ∃ t, ckRunInstrs x bs s = .next t ∧
    (bs = [] → IsSeed s.cfg.n (t.ck x).acc) ∧
    (1 ≤ bs.length → ∀ c, c < s.cfg.n →
      ((t.ck x).acc[c]?).map BitVec.toNat = some
        ((Nat.choose (bs.length + c - 1) c +
          ∑ i ∈ Finset.range bs.length, Nat.choose (bs.length - (i + 1) + c) c * (bs.getD i 0#8).toNat) % 256))

/-- R106: two sequences of one length that differ in exactly one position have vectors that differ in acc[0], by the
difference of the two bytes. -/
def Obligations.SubstitutionAlwaysDetected : Prop :=
  ∀ (x : CkSel) (pre post : List Byte) (a b : Byte) (s : State), 1 ≤ s.cfg.n → a ≠ b →
    ∃ t u va vb, ckRunInstrs x (pre ++ a :: post) s = .next t ∧ ckRunInstrs x (pre ++ b :: post) s = .next u ∧
      (t.ck x).acc[0]? = some va ∧ (u.ck x).acc[0]? = some vb ∧ vb - va = b - a ∧ va ≠ vb

/-- R107: a swap of two bytes at distance d leaves acc[0] alone and changes acc[1] by d·(b_j − b_i); so with N = 1 none
is seen, with N ≥ 2 every swap of distinct neighbours is, and a swap at distance 2 by 128 is not seen in acc[1]. -/
def Obligations.SwapDetection : Prop :=
  ∀ (x : CkSel) (pre mid post : List Byte) (a b : Byte) (s : State), 1 ≤ s.cfg.n → a ≠ b →
    ∃ t u, ckRunInstrs x (pre ++ a :: (mid ++ b :: post)) s = .next t ∧
      ckRunInstrs x (pre ++ b :: (mid ++ a :: post)) s = .next u ∧
      (t.ck x).acc[0]? = (u.ck x).acc[0]? ∧
      (s.cfg.n = 1 → t.ck x = u.ck x) ∧
      (2 ≤ s.cfg.n → ∃ va vb, (t.ck x).acc[1]? = some va ∧ (u.ck x).acc[1]? = some vb ∧
        vb - va = BitVec.ofNat 8 (mid.length + 1) * (b - a) ∧
        (mid = [] → va ≠ vb) ∧ (mid.length = 1 → b - a = 128#8 → va = vb))

/-! The frame receiver -/

/-- R80, R120: RX_ACCEPT is the row that the decode selects: the row's instruction and RX_ACCEPT of the byte answer
alike. -/
def Obligations.RxAcceptIsSelectedRow : Prop :=
  ∀ (s : State) (b : Byte) (row : RxRow), s.rxSelect b s.takeDraw.1 = .ok row →
    exec (row.instr s.rx.state b) s = exec (.rxAccept b) s

/-- Log entry 8: a row of the byte decode runs where R80 selects it for the key it names, and is refused by name
elsewhere. -/
def Obligations.RxRowRefusedUnlessSelected : Prop :=
  ∀ (i : Instr) (row : RxRow) (st : RxTag) (b : Byte) (s : State) (r : RxRow),
    i.rxRowKey = some (row, st, b) → s.rxSelect b s.takeDraw.1 = .ok r →
    exec i s = if r.instr s.rx.state b = i then exec (.rxAccept b) s else .refused .rowNotSelected

/-- R121: in WAIT_SYNC the magic byte clears the counter and starts a frame, and any other byte changes nothing. -/
def Obligations.WaitSyncLooksForMagic : Prop :=
  ∀ s : State, s.rx.state = .waitSync →
    (∀ i ∈ [Instr.rxSync, .rxAccept 0x0A#8],
      RxCompletes (exec i s) s { s.rx with cnt := 0#8, state := .readLength } s.rxck .sync .none) ∧
    ∀ b, b ≠ 0x0A#8 → ∀ i ∈ [Instr.rxIgnored b, .rxAccept b], RxCompletes (exec i s) s s.rx s.rxck .ignored .none

/-- R122: in READ_LENGTH a length 1..127 is stored, the buffer and the earlier payload are invalidated and RXCK is
seeded. -/
def Obligations.LengthAccepted : Prop :=
  ∀ (s : State) (b : Byte), s.rx.state = .readLength → 1 ≤ b.toNat → b.toNat ≤ 127 →
    ∃ c : CkState, IsSeed s.cfg.n c.acc ∧ ∀ i ∈ [Instr.rxLenOk b, .rxAccept b],
      RxCompletes (exec i s) s { s.rx with len := b, pbuf := [], pvalid := false, state := .readPayload } c .lenOk .none

/-- R123, R139: in READ_LENGTH a byte that is zero or negative as int8 enters FAILED and changes nothing else. -/
def Obligations.LengthRejected : Prop :=
  ∀ s : State, s.rx.state = .readLength →
    (∀ i ∈ [Instr.rxLenBadZero, .rxAccept 0x00#8],
      RxCompletes (exec i s) s { s.rx with state := .failed } s.rxck .lenBad .none) ∧
    ∀ b : Byte, b.toInt < 0 → ∀ i ∈ [Instr.rxLenBadNeg b, .rxAccept b],
      RxCompletes (exec i s) s { s.rx with state := .failed } s.rxck .lenBad .none

/-- R124: in READ_PAYLOAD a byte is stored at pbuf[cnt], fed to RXCK and counted; the last one ends the payload. -/
def Obligations.PayloadByteStored : Prop :=
  ∀ (s : State) (b : Byte), s.rx.state = .readPayload → s.rx.cnt.toNat < 127 →
    ∃ (m : Memory) (c : CkState), CkUpdated s.rxck.acc b c.acc ∧
      (∀ j, Memory.read m j = if j = s.rx.cnt.toNat then some b else Memory.read s.rx.pbuf j) ∧
      (s.rx.cnt.toNat + 1 < s.rx.len.toNat → ∀ i ∈ [Instr.rxPayload b, .rxAccept b],
        RxCompletes (exec i s) s { s.rx with cnt := s.rx.cnt + 1#8, pbuf := m } c .payload .none) ∧
      (s.rx.cnt.toNat + 1 = s.rx.len.toNat → ∀ i ∈ [Instr.rxPayloadLast b, .rxAccept b],
        RxCompletes (exec i s) s { s.rx with cnt := s.rx.cnt + 1#8, pbuf := m, state := .readChecksum } c
          .payloadLast .none)

/-- R125: in READ_CHECKSUM a byte that matches RXCK.acc[cnt − len] and is not the last is counted; RXCK stays. -/
def Obligations.ChecksumByteMatches : Prop :=
  ∀ (s : State) (b : Byte), s.rx.state = .readChecksum → s.rx.len.toNat ≤ s.rx.cnt.toNat →
    s.rxck.acc[s.rx.cnt.toNat - s.rx.len.toNat]? = some b → s.rx.cnt.toNat - s.rx.len.toNat + 1 ≠ s.cfg.n →
    ∀ i ∈ [Instr.rxCkMatch b, .rxAccept b],
      RxCompletes (exec i s) s { s.rx with cnt := s.rx.cnt + 1#8 } s.rxck .ckMatch .none

/-- R126: the last matching checksum byte returns the payload pbuf[0..len−1], sets pvalid and re-enters WAIT_SYNC. -/
def Obligations.DoneReturnsPayload : Prop :=
  ∀ (s : State) (b : Byte) (p : List Byte), s.rx.state = .readChecksum → s.rx.len.toNat ≤ s.rx.cnt.toNat →
    s.rxck.acc[s.rx.cnt.toNat - s.rx.len.toNat]? = some b → s.rx.cnt.toNat - s.rx.len.toNat + 1 = s.cfg.n →
    p.length = s.rx.len.toNat → HoldsBytes s.rx.pbuf p →
    ∀ i ∈ [Instr.rxDone b, .rxAccept b],
      RxCompletes (exec i s) s { s.rx with pvalid := true, state := .waitSync } s.rxck .done (.bytes p)

/-- R127, R224: a checksum byte that differs enters FAILED and changes nothing else. -/
def Obligations.ChecksumMismatchFails : Prop :=
  ∀ (s : State) (a b : Byte), s.rx.state = .readChecksum → s.rx.len.toNat ≤ s.rx.cnt.toNat →
    s.rxck.acc[s.rx.cnt.toNat - s.rx.len.toNat]? = some a → b ≠ a →
    ∀ i ∈ [Instr.rxCkMismatch b, .rxAccept b],
      RxCompletes (exec i s) s { s.rx with state := .failed } s.rxck .ckMismatch .none

/-- R128, R225: in FAILED the magic byte resynchronises exactly when the draw is 1; every other byte is noise. -/
def Obligations.FailedResynchronises : Prop :=
  ∀ s : State, s.rx.state = .failed →
    (s.takeDraw.1 = true → ∀ i ∈ [Instr.rxResync, .rxAccept 0x0A#8],
      RxCompletes (exec i s) s { s.rx with cnt := 0#8, state := .readLength } s.rxck .resync .none) ∧
    (s.takeDraw.1 = false → ∀ i ∈ [Instr.rxResyncReject, .rxAccept 0x0A#8],
      RxCompletes (exec i s) s s.rx s.rxck .resyncReject .none) ∧
    ∀ b, b ≠ 0x0A#8 → ∀ i ∈ [Instr.rxFailedNoise b, .rxAccept b],
      RxCompletes (exec i s) s s.rx s.rxck .failedNoise .none

/-- R131: an illegal state value takes the byte as WAIT_SYNC would, under a response of its own. -/
def Obligations.IllegalRxStateActsAsWaitSync : Prop :=
  ∀ s : State, s.rx.state ∈ [RxTag.illegal5, .illegal6, .illegal7] →
    (∀ i ∈ [Instr.rxIllegalStateSync s.rx.state, .rxAccept 0x0A#8],
      RxCompletes (exec i s) s { s.rx with cnt := 0#8, state := .readLength } s.rxck .rxIllegalStateSync .none) ∧
    ∀ b, b ≠ 0x0A#8 → ∀ i ∈ [Instr.rxIllegalState s.rx.state b, .rxAccept b],
      RxCompletes (exec i s) s { s.rx with state := .waitSync } s.rxck .rxIllegalState .none

/-- R50, R56 with log entry 12: where RX_ACCEPT stops, what it does in READ_PAYLOAD past the declared length, and where
TX_BUILD stops under an N that R5 does not allow; no run from reset reaches these states. -/
def Obligations.OperationsStopOutsideRanges : Prop :=
  ∀ (s : State) (b : Byte),
    (s.rx.state = .readPayload → 127 ≤ s.rx.cnt.toNat → exec (.rxAccept b) s = .fault .pbufIndex) ∧
    (s.rx.state = .readPayload → s.rx.cnt.toNat < 127 → s.rx.len.toNat ≤ s.rx.cnt.toNat →
      ∃ t, exec (.rxAccept b) s = .next t ∧ t.rx.state = .readPayload ∧
        t.reports = s.reports ++ [⟨.payload, .none⟩]) ∧
    (s.rx.state = .readChecksum → s.rx.cnt.toNat < s.rx.len.toNat → exec (.rxAccept b) s = .fault .ckIndex) ∧
    (s.rx.state = .readChecksum → s.rx.len.toNat ≤ s.rx.cnt.toNat →
      s.rxck.acc.length ≤ s.rx.cnt.toNat - s.rx.len.toNat → exec (.rxAccept b) s = .fault .ckIndex) ∧
    (s.rx.state = .readChecksum → s.rx.len.toNat ≤ s.rx.cnt.toNat →
      s.rxck.acc[s.rx.cnt.toNat - s.rx.len.toNat]? = some b → s.rx.cnt.toNat - s.rx.len.toNat + 1 = s.cfg.n →
      ¬Written s.rx.pbuf s.rx.len.toNat → exec (.rxAccept b) s = .fault .unwrittenRead) ∧
    (s.pin.length ≤ 127 → 256 < s.pin.length + s.cfg.n + 2 → exec .txBuild s = .fault .fbufIndex)

/-- R22, R25, R26, R27, R226: the frame of RX_ACCEPT and of every row of the byte decode: TX, TXCK, SC, the transport
and the records stay; a cell of pbuf changes only when a payload byte is stored there or LEN_OK makes all unwritten;
only LEN_OK writes len, only DONE sets pvalid and only LEN_OK clears it. -/
def Obligations.RxOperationsFrame : Prop :=
  ∀ (i : Instr) (s t : State), (i.rxRowKey.isSome ∨ ∃ b, i = .rxAccept b) → exec i s = .next t →
    ∃ r : Report,
      t = { s with
        rx := t.rx, rxck := t.rxck
        env := { s.env with draws := t.env.draws, drawn := t.env.drawn }
        reports := s.reports ++ [r] } ∧
      (∀ j, Memory.read t.rx.pbuf j ≠ Memory.read s.rx.pbuf j →
        (r.resp = .lenOk ∧ Memory.read t.rx.pbuf j = none) ∨
        ((r.resp = .payload ∨ r.resp = .payloadLast) ∧ j = s.rx.cnt.toNat)) ∧
      (t.rx.len ≠ s.rx.len → r.resp = .lenOk) ∧
      (t.rx.pvalid ≠ s.rx.pvalid → (t.rx.pvalid = true ∧ r.resp = .done) ∨ (t.rx.pvalid = false ∧ r.resp = .lenOk)) ∧
      (r.out ≠ .none → r.resp = .done)

/-- R132, R254: under the invariant a payload that the core presents stays as it is through an RX_ACCEPT, but for
LEN_OK, after which a read of it faults. -/
def Obligations.PayloadStaysUntilLengthAccepted : Prop :=
  ∀ (s t : State) (b : Byte) (p : List Byte), Inv s → s.presentedPayload = .ok p → exec (.rxAccept b) s = .next t →
    t.presentedPayload =
      if s.rx.state = .readLength ∧ 1 ≤ b.toNat ∧ b.toNat ≤ 127 then .error .payloadInvalid else .ok p

/-- R136: a frame that TX_BUILD gives for a payload of 1 to 127 bytes, fed to a receiver in WAIT_SYNC, is answered
SYNC, LEN_OK, PAYLOAD (L−1 times), PAYLOAD_LAST, CK_MATCH (N−1 times) and DONE with exactly that payload, for every
draw. -/
def Obligations.BuiltFrameRoundTrips : Prop :=
  ∀ (b u s : State) (frame : List Byte), b.cfg.Legal → 1 ≤ b.pin.length → b.pin.length ≤ 127 →
    exec .txBuild b = .next u → u.reports = b.reports ++ [⟨.ok, .bytes frame⟩] →
    s.cfg.n = b.cfg.n → s.rx.state = .waitSync →
    ∃ t, feed frame s = .next t ∧
      t.reports = s.reports ++ ([⟨.sync, .none⟩, ⟨.lenOk, .none⟩] ++
        List.replicate (b.pin.length - 1) ⟨.payload, .none⟩ ++ [⟨.payloadLast, .none⟩] ++
        List.replicate (b.cfg.n - 1) ⟨.ckMatch, .none⟩ ++ [⟨.done, .bytes b.pin⟩]) ∧
      t.rx.state = .waitSync ∧ t.presentedPayload = .ok b.pin

/-- R137: one flipped bit at an offset from 2 to L+N+1 of a frame that TX_BUILD gives, fed to a receiver in WAIT_SYNC, is
answered CK_MISMATCH and enters FAILED at the first checksum byte that differs, which is the first of all for a payload
bit and the flipped one itself for a checksum bit, and no RX_ACCEPT of the frame returns a payload, for every draw. -/
def Obligations.SingleBitFlipDetected : Prop :=
  ∀ (b u s : State) (frame : List Byte) (k j : Nat), 1 ≤ b.pin.length → b.pin.length ≤ 127 →
    exec .txBuild b = .next u → u.reports = b.reports ++ [⟨.ok, .bytes frame⟩] →
    s.cfg.n = b.cfg.n → Inv s → s.rx.state = .waitSync →
    2 ≤ k → k ≤ b.pin.length + b.cfg.n + 1 → j < 8 →
    let bad := frame.set k (frame.getD k 0#8 ^^^ BitVec.ofNat 8 (2 ^ j))
    let at' := if k < 2 + b.pin.length then 2 + b.pin.length else k
    ∃ (t v : State) (rs : List Report),
      feed bad s = .next t ∧ t.reports = s.reports ++ rs ∧ (∀ r ∈ rs, r.out = .none) ∧
      rs[at']? = some ⟨.ckMismatch, .none⟩ ∧ (∀ m, m < at' → rs[m]? ≠ some ⟨.ckMismatch, .none⟩) ∧
      feed (bad.take (at' + 1)) s = .next v ∧ v.rx.state = .failed

/-! The frame builder -/

/-- R152, R153, R156: for each N and payload of at most 127 bytes there is one frame (magic, length byte, payload, and
the vector of a fresh cascade over the payload alone) that TX_BUILD outputs and stores in fbuf from index 0, with every
other cell unwritten, whatever the state before; the receiver, SC and the environment stay. -/
def Obligations.TxBuildMakesFrame : Prop :=
  ∀ (n : Nat) (p : List Byte), 1 ≤ n → n ≤ 127 → p.length ≤ 127 →
    ∃ (acc : List Byte) (m : Memory), acc.length = n ∧
      (let frame := 0x0A#8 :: BitVec.ofNat 8 p.length :: (p ++ acc);
        frame.length = p.length + n + 2 ∧ (∀ j, Memory.read m j = frame[j]?) ∧
        ∀ s : State, s.cfg.n = n → s.pin = p →
          (∃ v, ckRunInstrs .tx p s = .next v ∧ v.txck.acc = acc) ∧
          ∃ k, exec .txBuild s = .next { s with
            txck := ⟨acc⟩
            tx := { fbuf := m, flen := BitVec.ofNat 9 frame.length }
            builds := k
            reports := s.reports ++ [⟨.ok, .bytes frame⟩] })

/-- R151: a longer payload gives an empty result: flen 0, every cell unwritten, nothing presented, TXCK and everything
else as before. -/
def Obligations.TxBuildRejectsOversize : Prop :=
  ∀ s : State, 127 < s.pin.length →
    ∃ k, (let t : State := { s with
        tx := { fbuf := [], flen := 0#9 }
        builds := k
        reports := s.reports ++ [⟨.oversize, .bytes []⟩] };
      exec .txBuild s = .next t ∧ t.presentedFrame = .ok [] ∧ ∀ j, Memory.read t.tx.fbuf j = none)

/-- R154: an empty payload is built as [0x0A, 0x00, 0x01, 0x00, …] of N + 2 bytes, and a receiver in WAIT_SYNC rejects
that frame at its length byte. -/
def Obligations.EmptyPayloadFrameRejected : Prop :=
  ∀ (s r : State), s.cfg.Legal → s.pin = [] → r.rx.state = .waitSync →
    (let frame := [0x0A#8, 0x00#8, 0x01#8] ++ List.replicate (s.cfg.n - 1) 0x00#8;
      frame.length = s.cfg.n + 2 ∧
      (∃ t, exec .txBuild s = .next t ∧ t.reports = s.reports ++ [⟨.ok, .bytes frame⟩] ∧
        t.presentedFrame = .ok frame) ∧
      ∃ t, feed (frame.take 2) r = .next t ∧ t.rx.state = .failed ∧
        t.reports = r.reports ++ [⟨.sync, .none⟩, ⟨.lenBad, .none⟩])

/-- R157, R74: under a legal configuration TX_BUILD never leaves fbuf; the largest frame is 256 bytes, for L = 127 and
N = 127. -/
def Obligations.LargestFrameFits : Prop :=
  ∀ s : State, s.cfg.Legal → ∃ t, exec .txBuild s = .next t ∧ t.tx.flen.toNat ≤ 256 ∧
    (t.tx.flen.toNat = 256 ↔ s.pin.length = 127 ∧ s.cfg.n = 127)

/-- R155: after an OK build the core presents the frame; a read of it gives its byte at each index below flen and faults
at or past flen, and a read meant for a frame presented before the build faults at every index. A reader names a frame
by State.builds of a state that presented it (log entry 24). -/
def Obligations.BuiltFrameIsPresented : Prop :=
  ∀ (s t : State) (frame : List Byte), s.cfg.Legal → s.pin.length ≤ 127 → exec .txBuild s = .next t →
    t.reports = s.reports ++ [⟨.ok, .bytes frame⟩] →
    t.presentedFrame = .ok frame ∧
    (∀ j, t.readFrameByte t.builds j = match frame[j]? with
      | some b => .ok b
      | none => .error .unwrittenRead) ∧
    ∀ k j, k ≤ s.builds → t.readFrameByte k j = .error .frameInvalid

/-- R30, R36, R155, R255: the frame that the core presents stands through every instruction but TX_BUILD, SC_TICK, RESET
and the rows that SC builds frames for, and wherever its name still holds, fbuf and flen are as they were. Through any
run a read of it gives what it gave before or faults as invalid; it faults after a run with a TX_BUILD or a RESET, and
gives what it gave before after a run that builds nothing and resets nothing. A reader names a frame by State.builds of
a state that presented it (log entry 24). -/
def Obligations.FrameStaysUntilNextBuild : Prop :=
  (∀ (i : Instr) (s t : State), exec i s = .next t →
    s.builds ≤ t.builds ∧ (t.builds = s.builds → t.tx = s.tx) ∧ (i.keepsFrame = true → t.builds = s.builds) ∧
    (i = .txBuild ∨ i = .reset → t.builds = s.builds + 1)) ∧
  ∀ (is : List Instr) (s t : State) (j : Nat), runInstrs is s = .next t →
    (t.readFrameByte s.builds j = s.readFrameByte s.builds j ∨ t.readFrameByte s.builds j = .error .frameInvalid) ∧
    (.txBuild ∈ is ∨ .reset ∈ is → t.readFrameByte s.builds j = .error .frameInvalid) ∧
    ((∀ i ∈ is, i.keepsFrame = true) → t.readFrameByte s.builds j = s.readFrameByte s.builds j)

/-! The session controller -/

/-- R171, R172, R183: an AFC tick that finds no byte writes the handshake frame, delays and asks; it stays in AFC, TXCK
holds the vector of the handshake payload, and the receiver, SC's registers and the transport input stay. State.builds
counts the build (log entry 24). -/
def Obligations.AfcTickWithoutContact : Prop :=
  ∀ s : State, s.cfg.Legal → s.sc.state = .afc → s.bytesAvailable.1 = 0 →
    (let es := (frameOf s.cfg.n [0x00#8, s.cfg.flag]).map Event.writeByte ++ [.delay s.cfg.delayUs, .bytesAvailable 0];
      ∃ t, exec .scTick s = .next t ∧ Built s t [0x00#8, s.cfg.flag] ∧
        t = { s with
          tx := t.tx, txck := t.txck, builds := s.builds + 1
          env := { s.env with counts := s.env.counts.tail, drawn := t.env.drawn }
          trace := s.trace ++ es
          reports := s.reports ++ [⟨.afcWait, .trace es⟩] })

/-- R171, R173: an AFC tick that finds bytes records the clock reading after that answer in SC.last_comm and enters
ACTIVE; the bytes stay in the FIFO. The reading is the environment's next one, modulo 2^CLK_W (log entries 3 and 4), and
State.builds counts the build (log entry 24). -/
def Obligations.AfcTickFirstContact : Prop :=
  ∀ s : State, s.cfg.Legal → s.sc.state = .afc → 0 < s.bytesAvailable.1 →
    (let now := s.bytesAvailable.2.nowMicros.1;
      let es := (frameOf s.cfg.n [0x00#8, s.cfg.flag]).map Event.writeByte ++
          [.delay s.cfg.delayUs, .bytesAvailable s.bytesAvailable.1, .nowMicros now];
      now < 2 ^ s.cfg.clkW ∧ (∀ x ∈ s.env.readings.head?, now = x % 2 ^ s.cfg.clkW) ∧
      ∃ t : State, exec .scTick s = .next t ∧ Built s t [0x00#8, s.cfg.flag] ∧
        t = { s with
          tx := t.tx, txck := t.txck, builds := s.builds + 1
          sc := { s.sc with state := .active, lastComm := now }
          env := { s.env with counts := s.env.counts.tail, readings := s.env.readings.tail, drawn := t.env.drawn }
          trace := s.trace ++ es
          reports := s.reports ++ [⟨.contact, .trace es⟩] })

/-- R175, R176, R184, R186: an ACTIVE tick that finds no byte advances the actuation, asks once and reads the clock; it
times out exactly when (t − last_comm) mod 2^CLK_W is strictly above T_TIMEOUT_US, and then commands velocity +0.0 and
temperature mode 0, in that order, and enters TERMINAL. The reading and the discarded velocity are the environment's
next ones (log entries 3 and 4). -/
def Obligations.ActiveTickWithoutBytes : Prop :=
  ∀ s : State, s.sc.state = .active → s.bytesAvailable.1 = 0 →
    (let now := s.bytesAvailable.2.nowMicros.1;
      let w := (s.bytesAvailable.2.nowMicros.2.applyVelocity 0x00000000#32).1;
      let es := [Event.tickActuation, .bytesAvailable 0, .nowMicros now];
      let fs := es ++ [.applyVelocity 0x00000000#32 w, .applyTemperatureMode 0];
      now < 2 ^ s.cfg.clkW ∧ (∀ x ∈ s.env.readings.head?, now = x % 2 ^ s.cfg.clkW) ∧
      (∀ x ∈ s.env.velocities.head?, w = x) ∧
      ∃ t : State, exec .scTick s = .next t ∧
        t = if (s.cfg.timeoutUs : Int) < ((now : Int) - s.sc.lastComm) % 2 ^ s.cfg.clkW then
          { s with
            sc := { s.sc with state := .terminal, lastVel := 0x00000000#32, lastTemp := 0x00#8 }
            env := { s.env with
              counts := s.env.counts.tail, readings := s.env.readings.tail, velocities := s.env.velocities.tail
              drawn := t.env.drawn }
            trace := s.trace ++ fs, reports := s.reports ++ [⟨.timeout, .trace fs⟩] }
        else
          { s with
            env := { s.env with
              counts := s.env.counts.tail, readings := s.env.readings.tail, drawn := t.env.drawn }
            trace := s.trace ++ es, reports := s.reports ++ [⟨.activeOk, .trace es⟩] })

/-- R170, R174, R175, R176, R177, R184, R186: every ACTIVE tick issues tickActuation, then one bytesAvailable answering
k, and no further one of either; it takes exactly the k oldest bytes off the FIFO, in order, each by a readByte, then
RX_ACCEPT, then at once the dispatch of the payload completed, if any, before the next byte; it ends with one clock
reading and, on timeout, the two safe-default calls. The answer k is the environment's next count, cut to the FIFO (log
entry 5). -/
def Obligations.ActiveTickOrder : Prop :=
  ∀ s : State, Inv s → s.sc.state = .active →
    (∀ x ∈ s.env.counts.head?, s.bytesAvailable.1 = min x s.env.fifo.length) ∧
    s.bytesAvailable.1 ≤ s.env.fifo.length ∧
    ∃ (t u : State) (ps : List (List Byte)) (mid : List Event),
      exec .scTick s = .next t ∧ Drained (s.env.fifo.take s.bytesAvailable.1) (drainStart s) ps u ∧
      u.sc.state = .active ∧ u.env.fifo = s.env.fifo.drop s.bytesAvailable.1 ∧
      u.trace = (drainStart s).trace ++ mid ∧
      mid.filterMap Event.byteRead = s.env.fifo.take s.bytesAvailable.1 ∧
      (∀ e ∈ mid, e ≠ .tickActuation ∧ ∀ k, e ≠ .bytesAvailable k) ∧
      (let now := u.nowMicros.1;
        let v := u.nowMicros.2.applyVelocity 0x00000000#32;
        let es := [.tickActuation, .bytesAvailable s.bytesAvailable.1] ++ mid ++ [.nowMicros now];
        let fs := es ++ [.applyVelocity 0x00000000#32 v.1, .applyTemperatureMode 0];
        t = if (s.cfg.timeoutUs : Int) < ((now : Int) - u.sc.lastComm) % 2 ^ s.cfg.clkW then
          { u with
            sc := { u.sc with state := .terminal, lastVel := 0x00000000#32, lastTemp := 0x00#8 }
            env := v.2.env, trace := s.trace ++ fs, reports := s.reports ++ [⟨.timeout, .trace fs⟩] }
        else
          { u with
            env := u.nowMicros.2.env, trace := s.trace ++ es, reports := s.reports ++ [⟨.activeOk, .trace es⟩] })

/-- R178, R180, R183, R191: the dispatch of tag 1 applies a velocity that differs and records the corrected value,
makes no actuation call when it does not differ, echoes the recorded value in either case, and then reads the clock
into SC.last_comm; TXCK holds the vector of the echoed payload, the receiver and the transport input stay. The corrected
value and the reading are the environment's next ones (log entries 3 and 4), SC.state may be any (log entry 8), and
State.builds counts the build (log entry 24). -/
def Obligations.VelocityDispatch : Prop :=
  ∀ (s : State) (v : Word32) (rest : List Byte), s.cfg.Legal →
    (let d := f32Differs v s.sc.lastVel;
      let w := if d then (s.applyVelocity v).1 else s.sc.lastVel;
      let now := (if d then (s.applyVelocity v).2 else s).nowMicros.1;
      now < 2 ^ s.cfg.clkW ∧ (∀ x ∈ s.env.readings.head?, now = x % 2 ^ s.cfg.clkW) ∧
      (d = true → ∀ x ∈ s.env.velocities.head?, w = x) ∧
      ∃ t : State, exec (.cmdVelocity v rest) s = .next t ∧ Built s t (0x01#8 :: le32 w) ∧
        t = { s with
          tx := t.tx, txck := t.txck, builds := s.builds + 1
          sc := { s.sc with lastVel := w, lastComm := now }
          env := { s.env with
            readings := s.env.readings.tail
            velocities := if d then s.env.velocities.tail else s.env.velocities
            drawn := t.env.drawn }
          trace := s.trace ++ ((if d then [Event.applyVelocity v w] else []) ++
            (frameOf s.cfg.n (0x01#8 :: le32 w)).map Event.writeByte ++ [.nowMicros now]) })

/-- R181, R180, R183: the dispatch of tag 2 applies the mode every time, records its byte, echoes it and then reads the
clock into SC.last_comm; TXCK holds the vector of the echoed payload, the receiver and the transport input stay. The
reading is the environment's next one (log entries 3 and 4), SC.state may be any (log entry 8), and State.builds counts
the build (log entry 24). -/
def Obligations.TemperatureDispatch : Prop :=
  ∀ (s : State) (m : Byte) (rest : List Byte), s.cfg.Legal → m ∈ [0xFF#8, 0x00#8, 0x01#8] →
    (let now := s.nowMicros.1;
      now < 2 ^ s.cfg.clkW ∧ (∀ x ∈ s.env.readings.head?, now = x % 2 ^ s.cfg.clkW) ∧
      ∃ t : State, exec (.cmdTempMode m rest) s = .next t ∧ Built s t [0x02#8, m] ∧
        t = { s with
          tx := t.tx, txck := t.txck, builds := s.builds + 1
          sc := { s.sc with lastTemp := m, lastComm := now }
          env := { s.env with readings := s.env.readings.tail, drawn := t.env.drawn }
          trace := s.trace ++ ([Event.applyTemperatureMode m.toInt] ++
            (frameOf s.cfg.n [0x02#8, m]).map Event.writeByte ++ [.nowMicros now]) })

/-- R182: a payload with another tag, a tag-1 payload shorter than 5 bytes, and a tag-2 payload shorter than 2 bytes or
with a mode outside its domain cause no event and no state change. The row runs in every SC.state (log entry 8). -/
def Obligations.OtherPayloadsIgnored : Prop :=
  ∀ (s : State) (p : List Byte),
    ¬(p[0]? = some 0x01#8 ∧ 5 ≤ p.length) →
    ¬(p[0]? = some 0x02#8 ∧ ∃ m, p[1]? = some m ∧ m ∈ [0xFF#8, 0x00#8, 0x01#8]) →
    exec (.cmdIgnored p) s = .next s

/-- R77, R78, R79, R183: the handshake, the velocity echo and the mode echo write the frame of their payload, byte by
byte in index order, TXCK holds the payload's vector, and the receiver, SC's registers and the environment stay.
SC.state may be any (log entry 8), and State.builds counts the build (log entry 24). -/
def Obligations.SentPayloadsAreFramed : Prop :=
  ∀ (s : State) (m : Byte), s.cfg.Legal → m ∈ [0xFF#8, 0x00#8, 0x01#8] →
    ∀ iq ∈ [(Instr.txHandshake s.cfg.flag, [0x00#8, s.cfg.flag]), (.txVelocityEcho s.sc.lastVel, 0x01#8 :: le32 s.sc.lastVel),
        (.txTempModeEcho m, [0x02#8, m])],
      ∃ t, exec iq.1 s = .next t ∧ Built s t iq.2 ∧
        t = { s with
          tx := t.tx, txck := t.txck, builds := s.builds + 1
          trace := s.trace ++ (frameOf s.cfg.n iq.2).map Event.writeByte }

/-- Log entry 8: a row of the payload tables is refused by name for operands that SC never gives it; the row of ignored
payloads is refused for a payload that row 1 or row 2 of R81 takes. -/
def Obligations.PayloadRowRefusedUnlessSelected : Prop :=
  ∀ (s : State) (m f : Byte) (w : Word32) (p : List Byte),
    (m ∉ [0xFF#8, 0x00#8, 0x01#8] → ∀ rest, exec (.cmdTempMode m rest) s = .refused .rowNotSelected) ∧
    (m ∉ [0xFF#8, 0x00#8, 0x01#8] → exec (.txTempModeEcho m) s = .refused .rowNotSelected) ∧
    (f ≠ s.cfg.flag → exec (.txHandshake f) s = .refused .rowNotSelected) ∧
    (w ≠ s.sc.lastVel → exec (.txVelocityEcho w) s = .refused .rowNotSelected) ∧
    (p[0]? = some 0x01#8 → 5 ≤ p.length → exec (.cmdIgnored p) s = .refused .rowNotSelected) ∧
    (p[0]? = some 0x02#8 → p[1]? = some m → m ∈ [0xFF#8, 0x00#8, 0x01#8] →
      exec (.cmdIgnored p) s = .refused .rowNotSelected)

/-- R179: two patterns differ when one of them is a NaN, or when they are not both zeros and their bits differ. -/
def Obligations.DiffersIsIeeeInequality : Prop :=
  ∀ a b : Word32,
    (let nan : Word32 → Prop := fun x => x.toNat / 2 ^ 23 % 256 = 255 ∧ x.toNat % 2 ^ 23 ≠ 0;
      let zero : Word32 → Prop := fun x => x.toNat % 2 ^ 31 = 0;
      f32Differs a b = true ↔ nan a ∨ nan b ∨ (¬(zero a ∧ zero b) ∧ a ≠ b))

/-- R185: with readings that are true times modulo 2^CLK_W, the elapsed time is the true gap modulo 2^CLK_W: the true
gap itself while that is below 2^CLK_W, wrapped or not. -/
def Obligations.ElapsedSurvivesWrap : Prop :=
  ∀ (s : State) (d c : Nat), d ≤ c → s.sc.lastComm = d % 2 ^ s.cfg.clkW →
    s.elapsed (c % 2 ^ s.cfg.clkW) = (c - d) % 2 ^ s.cfg.clkW ∧
    (c - d < 2 ^ s.cfg.clkW → s.elapsed (c % 2 ^ s.cfg.clkW) = c - d)

/-- R187: a TERMINAL tick issues no event and changes no state. -/
def Obligations.TerminalTickIsIdle : Prop :=
  ∀ s : State, s.sc.state = .terminal →
    exec .scTick s = .next { s with reports := s.reports ++ [⟨.terminalIdle, .trace []⟩] }

/-- R188: a step leaves TERMINAL only by the RESET request or the reset input. -/
def Obligations.OnlyResetLeavesTerminal : Prop :=
  ∀ s t : State, s.sc.state = .terminal → step s = .next t → t.sc.state ≠ .terminal →
    t.sc.state = .afc ∧
      ∃ q, s.queue = .resetInput :: q ∨ ∃ pin, s.queue = .request 0x0700#13 pin :: q

/-- R189: a tick in state value 3 re-enters AFC, issues no event and changes nothing else. -/
def Obligations.IllegalScStateReentersAfc : Prop :=
  ∀ s : State, s.sc.state = .illegal3 →
    exec .scTick s = .next { s with
      sc := { s.sc with state := .afc }, reports := s.reports ++ [⟨.scIllegalState, .trace []⟩] }

/-- R190: an ACTIVE tick issues at most 2 + k + d·(N + 9) + 3 events, for k bytes read and d ≤ k dispatches (one clock
reading each, beside the check's), and an AFC tick at most N + 7. -/
def Obligations.TickEventBound : Prop :=
  ∀ s : State, Inv s → ∃ (t : State) (es : List Event), exec .scTick s = .next t ∧ t.trace = s.trace ++ es ∧
    (s.sc.state = .active → ∃ d, (es.filterMap Event.reading).length = d + 1 ∧ d ≤ (es.filterMap Event.byteRead).length ∧
      (es.filterMap Event.byteRead).length = s.bytesAvailable.1 ∧
      es.length ≤ 2 + s.bytesAvailable.1 + d * (s.cfg.n + 9) + 3) ∧
    (s.sc.state = .afc → es.length ≤ s.cfg.n + 7)

/-- R180, R184, R186, R192: a byte of an ACTIVE tick that completes a dispatched payload (row 1 or row 2 of R81) reads the
clock once, into SC.last_comm, and every other byte reads no clock and leaves SC.last_comm. So the readings of the tick
are those of its dispatches, one each, and then the check's. The tick ends TERMINAL exactly when the check lies more than
T_TIMEOUT_US after the last dispatch's reading, or after the SC.last_comm it began with when it dispatches nothing, and
SC.last_comm holds that reading. -/
def Obligations.LivenessWindow : Prop :=
  (∀ (b : Byte) (s t : State) (p : Option (List Byte)), DrainedByte b s t p → ∃ es : List Event, t.trace = s.trace ++ es ∧
    if p.any isDispatched then ∃ now, es.filterMap Event.reading = [now] ∧ t.sc.lastComm = now
    else es.filterMap Event.reading = [] ∧ t.sc.lastComm = s.sc.lastComm) ∧
  ∀ s : State, Inv s → s.sc.state = .active →
    ∃ (t u : State) (ps : List (List Byte)) (es : List Event) (ds : List Nat),
      exec .scTick s = .next t ∧ Drained (s.env.fifo.take s.bytesAvailable.1) (drainStart s) ps u ∧
      t.trace = s.trace ++ es ∧ es.filterMap Event.reading = ds ++ [u.nowMicros.1] ∧
      ds.length = (ps.filter isDispatched).length ∧ t.sc.lastComm = ds.getLastD s.sc.lastComm ∧
      (t.sc.state = .terminal ↔
        (s.cfg.timeoutUs : Int) < ((u.nowMicros.1 : Int) - t.sc.lastComm) % 2 ^ s.cfg.clkW) ∧
      (t.sc.state = .terminal → t.sc.lastVel = 0x00000000#32 ∧ t.sc.lastTemp = 0x00#8) ∧
      (t.sc.state ≠ .terminal → t.sc.state = .active)

/-! The whole machine -/

/-- R28, R29, R30, R32, R135, R257: every step keeps the invariant. -/
def Obligations.StepKeepsInvariant : Prop := ∀ s t : State, Inv s → step s = .next t → Inv t

/-- From a state that meets the invariant every step answers a next state. R50, R56 and R135: no index leaves its range
and no unwritten cell is read. No request word is refused because the model answers an illegal one ILLEGAL_REQUEST (log
entry 7), and with no request waiting it waits (log entry 6). -/
def Obligations.StepNeverStopsUnderInvariant : Prop := ∀ s : State, Inv s → ∃ t, step s = .next t

/-- R5, R20, R21, R237: no instruction changes the configuration, the port's operand or the requests waiting, and none
takes back an event or a response; a step is the step relation over the record of R20, with the configuration, the
environment's answers and the request as its parameters, so that it depends neither on what happened before nor on the
requests behind (log entries 6, 15 and 23). -/
def Obligations.InstructionsKeepConfigAndHistory : Prop :=
  (∀ (i : Instr) (s t : State), exec i s = .next t →
    t.cfg = s.cfg ∧ t.pin = s.pin ∧ t.queue = s.queue ∧ s.trace <+: t.trace ∧ s.reports <+: t.reports) ∧
  ∀ (s : State) (x : Stimulus) (q : List Stimulus), s.queue = x :: q →
    match coreStep s.cfg s.env x s.toRecord with
    | .next r => ∃ pin, step s = .next {
        toRecord := r.record, cfg := s.cfg, pin := pin, queue := q, env := r.env
        builds := s.builds + r.builds, trace := s.trace ++ r.events, reports := s.reports ++ r.reports }
    | .fault f => step s = .fault f
    | .refused f => step s = .refused f

/-- R51, R52, R55 and R230 for the events and the transport, R31 to R34, R38 and R40 for the registers: only SC_TICK and
the dispatches and sends it makes issue events or take bytes of the transport, and only SC_TICK, the dispatches and
RESET write SC's registers. -/
def Obligations.OnlySessionTouchesEnvironment : Prop :=
  ∀ (i : Instr) (s t : State), exec i s = .next t →
    (match i with
      | .scTick | .cmdVelocity _ _ | .cmdTempMode _ _ => False
      | .txHandshake _ | .txVelocityEcho _ | .txTempModeEcho _ => False
      | _ => True) →
    t.trace = s.trace ∧ t.env.fifo = s.env.fifo ∧ (i ≠ .reset → t.sc = s.sc)
end

