-- ==== Sys2Proof/Laws/State.lean ====
section
/-! SUPPORT. One lemma per field of State and update of State, each true by rfl: no later proof unfolds an update. -/

namespace Sys2Proof.Machine

@[simp] theorem State.withRxck_cfg (s : State) (c : CkState) : (s.withRxck c).cfg = s.cfg := rfl
@[simp] theorem State.withRxck_rxck (s : State) (c : CkState) : (s.withRxck c).rxck = c := rfl
@[simp] theorem State.withRxck_txck (s : State) (c : CkState) : (s.withRxck c).txck = s.txck := rfl
@[simp] theorem State.withRxck_rx (s : State) (c : CkState) : (s.withRxck c).rx = s.rx := rfl
@[simp] theorem State.withRxck_tx (s : State) (c : CkState) : (s.withRxck c).tx = s.tx := rfl
@[simp] theorem State.withRxck_sc (s : State) (c : CkState) : (s.withRxck c).sc = s.sc := rfl
@[simp] theorem State.withRxck_pin (s : State) (c : CkState) : (s.withRxck c).pin = s.pin := rfl
@[simp] theorem State.withRxck_queue (s : State) (c : CkState) : (s.withRxck c).queue = s.queue := rfl
@[simp] theorem State.withRxck_builds (s : State) (c : CkState) : (s.withRxck c).builds = s.builds := rfl
@[simp] theorem State.withRxck_env (s : State) (c : CkState) : (s.withRxck c).env = s.env := rfl
@[simp] theorem State.withRxck_trace (s : State) (c : CkState) : (s.withRxck c).trace = s.trace := rfl
@[simp] theorem State.withRxck_reports (s : State) (c : CkState) : (s.withRxck c).reports = s.reports := rfl

@[simp] theorem State.withTxck_cfg (s : State) (c : CkState) : (s.withTxck c).cfg = s.cfg := rfl
@[simp] theorem State.withTxck_rxck (s : State) (c : CkState) : (s.withTxck c).rxck = s.rxck := rfl
@[simp] theorem State.withTxck_txck (s : State) (c : CkState) : (s.withTxck c).txck = c := rfl
@[simp] theorem State.withTxck_rx (s : State) (c : CkState) : (s.withTxck c).rx = s.rx := rfl
@[simp] theorem State.withTxck_tx (s : State) (c : CkState) : (s.withTxck c).tx = s.tx := rfl
@[simp] theorem State.withTxck_sc (s : State) (c : CkState) : (s.withTxck c).sc = s.sc := rfl
@[simp] theorem State.withTxck_pin (s : State) (c : CkState) : (s.withTxck c).pin = s.pin := rfl
@[simp] theorem State.withTxck_queue (s : State) (c : CkState) : (s.withTxck c).queue = s.queue := rfl
@[simp] theorem State.withTxck_builds (s : State) (c : CkState) : (s.withTxck c).builds = s.builds := rfl
@[simp] theorem State.withTxck_env (s : State) (c : CkState) : (s.withTxck c).env = s.env := rfl
@[simp] theorem State.withTxck_trace (s : State) (c : CkState) : (s.withTxck c).trace = s.trace := rfl
@[simp] theorem State.withTxck_reports (s : State) (c : CkState) : (s.withTxck c).reports = s.reports := rfl

@[simp] theorem State.withRx_cfg (s : State) (r : RxUnit) : (s.withRx r).cfg = s.cfg := rfl
@[simp] theorem State.withRx_rxck (s : State) (r : RxUnit) : (s.withRx r).rxck = s.rxck := rfl
@[simp] theorem State.withRx_txck (s : State) (r : RxUnit) : (s.withRx r).txck = s.txck := rfl
@[simp] theorem State.withRx_rx (s : State) (r : RxUnit) : (s.withRx r).rx = r := rfl
@[simp] theorem State.withRx_tx (s : State) (r : RxUnit) : (s.withRx r).tx = s.tx := rfl
@[simp] theorem State.withRx_sc (s : State) (r : RxUnit) : (s.withRx r).sc = s.sc := rfl
@[simp] theorem State.withRx_pin (s : State) (r : RxUnit) : (s.withRx r).pin = s.pin := rfl
@[simp] theorem State.withRx_queue (s : State) (r : RxUnit) : (s.withRx r).queue = s.queue := rfl
@[simp] theorem State.withRx_builds (s : State) (r : RxUnit) : (s.withRx r).builds = s.builds := rfl
@[simp] theorem State.withRx_env (s : State) (r : RxUnit) : (s.withRx r).env = s.env := rfl
@[simp] theorem State.withRx_trace (s : State) (r : RxUnit) : (s.withRx r).trace = s.trace := rfl
@[simp] theorem State.withRx_reports (s : State) (r : RxUnit) : (s.withRx r).reports = s.reports := rfl

@[simp] theorem State.withTx_cfg (s : State) (u : TxUnit) : (s.withTx u).cfg = s.cfg := rfl
@[simp] theorem State.withTx_rxck (s : State) (u : TxUnit) : (s.withTx u).rxck = s.rxck := rfl
@[simp] theorem State.withTx_txck (s : State) (u : TxUnit) : (s.withTx u).txck = s.txck := rfl
@[simp] theorem State.withTx_rx (s : State) (u : TxUnit) : (s.withTx u).rx = s.rx := rfl
@[simp] theorem State.withTx_tx (s : State) (u : TxUnit) : (s.withTx u).tx = u := rfl
@[simp] theorem State.withTx_sc (s : State) (u : TxUnit) : (s.withTx u).sc = s.sc := rfl
@[simp] theorem State.withTx_pin (s : State) (u : TxUnit) : (s.withTx u).pin = s.pin := rfl
@[simp] theorem State.withTx_queue (s : State) (u : TxUnit) : (s.withTx u).queue = s.queue := rfl
@[simp] theorem State.withTx_builds (s : State) (u : TxUnit) : (s.withTx u).builds = s.builds + 1 := rfl
@[simp] theorem State.withTx_env (s : State) (u : TxUnit) : (s.withTx u).env = s.env := rfl
@[simp] theorem State.withTx_trace (s : State) (u : TxUnit) : (s.withTx u).trace = s.trace := rfl
@[simp] theorem State.withTx_reports (s : State) (u : TxUnit) : (s.withTx u).reports = s.reports := rfl

@[simp] theorem State.withSc_cfg (s : State) (c : ScUnit) : (s.withSc c).cfg = s.cfg := rfl
@[simp] theorem State.withSc_rxck (s : State) (c : ScUnit) : (s.withSc c).rxck = s.rxck := rfl
@[simp] theorem State.withSc_txck (s : State) (c : ScUnit) : (s.withSc c).txck = s.txck := rfl
@[simp] theorem State.withSc_rx (s : State) (c : ScUnit) : (s.withSc c).rx = s.rx := rfl
@[simp] theorem State.withSc_tx (s : State) (c : ScUnit) : (s.withSc c).tx = s.tx := rfl
@[simp] theorem State.withSc_sc (s : State) (c : ScUnit) : (s.withSc c).sc = c := rfl
@[simp] theorem State.withSc_pin (s : State) (c : ScUnit) : (s.withSc c).pin = s.pin := rfl
@[simp] theorem State.withSc_queue (s : State) (c : ScUnit) : (s.withSc c).queue = s.queue := rfl
@[simp] theorem State.withSc_builds (s : State) (c : ScUnit) : (s.withSc c).builds = s.builds := rfl
@[simp] theorem State.withSc_env (s : State) (c : ScUnit) : (s.withSc c).env = s.env := rfl
@[simp] theorem State.withSc_trace (s : State) (c : ScUnit) : (s.withSc c).trace = s.trace := rfl
@[simp] theorem State.withSc_reports (s : State) (c : ScUnit) : (s.withSc c).reports = s.reports := rfl

@[simp] theorem State.withEnv_cfg (s : State) (e : Env) : (s.withEnv e).cfg = s.cfg := rfl
@[simp] theorem State.withEnv_rxck (s : State) (e : Env) : (s.withEnv e).rxck = s.rxck := rfl
@[simp] theorem State.withEnv_txck (s : State) (e : Env) : (s.withEnv e).txck = s.txck := rfl
@[simp] theorem State.withEnv_rx (s : State) (e : Env) : (s.withEnv e).rx = s.rx := rfl
@[simp] theorem State.withEnv_tx (s : State) (e : Env) : (s.withEnv e).tx = s.tx := rfl
@[simp] theorem State.withEnv_sc (s : State) (e : Env) : (s.withEnv e).sc = s.sc := rfl
@[simp] theorem State.withEnv_pin (s : State) (e : Env) : (s.withEnv e).pin = s.pin := rfl
@[simp] theorem State.withEnv_queue (s : State) (e : Env) : (s.withEnv e).queue = s.queue := rfl
@[simp] theorem State.withEnv_builds (s : State) (e : Env) : (s.withEnv e).builds = s.builds := rfl
@[simp] theorem State.withEnv_env (s : State) (e : Env) : (s.withEnv e).env = e := rfl
@[simp] theorem State.withEnv_trace (s : State) (e : Env) : (s.withEnv e).trace = s.trace := rfl
@[simp] theorem State.withEnv_reports (s : State) (e : Env) : (s.withEnv e).reports = s.reports := rfl

@[simp] theorem State.withPin_cfg (s : State) (p : List Byte) : (s.withPin p).cfg = s.cfg := rfl
@[simp] theorem State.withPin_rxck (s : State) (p : List Byte) : (s.withPin p).rxck = s.rxck := rfl
@[simp] theorem State.withPin_txck (s : State) (p : List Byte) : (s.withPin p).txck = s.txck := rfl
@[simp] theorem State.withPin_rx (s : State) (p : List Byte) : (s.withPin p).rx = s.rx := rfl
@[simp] theorem State.withPin_tx (s : State) (p : List Byte) : (s.withPin p).tx = s.tx := rfl
@[simp] theorem State.withPin_sc (s : State) (p : List Byte) : (s.withPin p).sc = s.sc := rfl
@[simp] theorem State.withPin_pin (s : State) (p : List Byte) : (s.withPin p).pin = p := rfl
@[simp] theorem State.withPin_queue (s : State) (p : List Byte) : (s.withPin p).queue = s.queue := rfl
@[simp] theorem State.withPin_builds (s : State) (p : List Byte) : (s.withPin p).builds = s.builds := rfl
@[simp] theorem State.withPin_env (s : State) (p : List Byte) : (s.withPin p).env = s.env := rfl
@[simp] theorem State.withPin_trace (s : State) (p : List Byte) : (s.withPin p).trace = s.trace := rfl
@[simp] theorem State.withPin_reports (s : State) (p : List Byte) : (s.withPin p).reports = s.reports := rfl

@[simp] theorem State.withQueue_cfg (s : State) (q : List Stimulus) : (s.withQueue q).cfg = s.cfg := rfl
@[simp] theorem State.withQueue_rxck (s : State) (q : List Stimulus) : (s.withQueue q).rxck = s.rxck := rfl
@[simp] theorem State.withQueue_txck (s : State) (q : List Stimulus) : (s.withQueue q).txck = s.txck := rfl
@[simp] theorem State.withQueue_rx (s : State) (q : List Stimulus) : (s.withQueue q).rx = s.rx := rfl
@[simp] theorem State.withQueue_tx (s : State) (q : List Stimulus) : (s.withQueue q).tx = s.tx := rfl
@[simp] theorem State.withQueue_sc (s : State) (q : List Stimulus) : (s.withQueue q).sc = s.sc := rfl
@[simp] theorem State.withQueue_pin (s : State) (q : List Stimulus) : (s.withQueue q).pin = s.pin := rfl
@[simp] theorem State.withQueue_queue (s : State) (q : List Stimulus) : (s.withQueue q).queue = q := rfl
@[simp] theorem State.withQueue_builds (s : State) (q : List Stimulus) : (s.withQueue q).builds = s.builds := rfl
@[simp] theorem State.withQueue_env (s : State) (q : List Stimulus) : (s.withQueue q).env = s.env := rfl
@[simp] theorem State.withQueue_trace (s : State) (q : List Stimulus) : (s.withQueue q).trace = s.trace := rfl
@[simp] theorem State.withQueue_reports (s : State) (q : List Stimulus) : (s.withQueue q).reports = s.reports := rfl

@[simp] theorem State.emit_cfg (s : State) (e : Event) : (s.emit e).cfg = s.cfg := rfl
@[simp] theorem State.emit_rxck (s : State) (e : Event) : (s.emit e).rxck = s.rxck := rfl
@[simp] theorem State.emit_txck (s : State) (e : Event) : (s.emit e).txck = s.txck := rfl
@[simp] theorem State.emit_rx (s : State) (e : Event) : (s.emit e).rx = s.rx := rfl
@[simp] theorem State.emit_tx (s : State) (e : Event) : (s.emit e).tx = s.tx := rfl
@[simp] theorem State.emit_sc (s : State) (e : Event) : (s.emit e).sc = s.sc := rfl
@[simp] theorem State.emit_pin (s : State) (e : Event) : (s.emit e).pin = s.pin := rfl
@[simp] theorem State.emit_queue (s : State) (e : Event) : (s.emit e).queue = s.queue := rfl
@[simp] theorem State.emit_builds (s : State) (e : Event) : (s.emit e).builds = s.builds := rfl
@[simp] theorem State.emit_env (s : State) (e : Event) : (s.emit e).env = s.env := rfl
@[simp] theorem State.emit_trace (s : State) (e : Event) : (s.emit e).trace = s.trace ++ [e] := rfl
@[simp] theorem State.emit_reports (s : State) (e : Event) : (s.emit e).reports = s.reports := rfl

@[simp] theorem State.respond_cfg (s : State) (r : Response) (o : Output) : (s.respond r o).cfg = s.cfg := rfl
@[simp] theorem State.respond_rxck (s : State) (r : Response) (o : Output) : (s.respond r o).rxck = s.rxck := rfl
@[simp] theorem State.respond_txck (s : State) (r : Response) (o : Output) : (s.respond r o).txck = s.txck := rfl
@[simp] theorem State.respond_rx (s : State) (r : Response) (o : Output) : (s.respond r o).rx = s.rx := rfl
@[simp] theorem State.respond_tx (s : State) (r : Response) (o : Output) : (s.respond r o).tx = s.tx := rfl
@[simp] theorem State.respond_sc (s : State) (r : Response) (o : Output) : (s.respond r o).sc = s.sc := rfl
@[simp] theorem State.respond_pin (s : State) (r : Response) (o : Output) : (s.respond r o).pin = s.pin := rfl
@[simp] theorem State.respond_queue (s : State) (r : Response) (o : Output) : (s.respond r o).queue = s.queue := rfl
@[simp] theorem State.respond_builds (s : State) (r : Response) (o : Output) : (s.respond r o).builds = s.builds := rfl
@[simp] theorem State.respond_env (s : State) (r : Response) (o : Output) : (s.respond r o).env = s.env := rfl
@[simp] theorem State.respond_trace (s : State) (r : Response) (o : Output) : (s.respond r o).trace = s.trace := rfl
@[simp] theorem State.respond_reports (s : State) (r : Response) (o : Output) : (s.respond r o).reports = s.reports ++ [⟨r, o⟩] := rfl

@[simp] theorem State.ck_rx (s : State) : s.ck .rx = s.rxck := rfl
@[simp] theorem State.withCk_rx (s : State) (c : CkState) : s.withCk .rx c = s.withRxck c := rfl
@[simp] theorem State.ck_tx (s : State) : s.ck .tx = s.txck := rfl
@[simp] theorem State.withCk_tx (s : State) (c : CkState) : s.withCk .tx c = s.withTxck c := rfl

/-- Every field but the two cascades is untouched by an update of one of them. -/
theorem State.withCk_frame (s : State) (x : CkSel) (c : CkState) :
    s.withCk x c = { s with rxck := (s.withCk x c).rxck, txck := (s.withCk x c).txck } := by
  cases x <;> rfl

@[simp] theorem State.withCk_ck (s : State) (x : CkSel) (c : CkState) : (s.withCk x c).ck x = c := by
  cases x <;> rfl

end Sys2Proof.Machine
end

