-- ==== Sys2Proof/Laws/Cascade.lean ====
section
/-! SUPPORT. The checksum cascade: lengths, the relation between neighbouring levels, and what CK operations touch. -/

namespace Sys2Proof.Machine

@[simp] theorem ckSeed_length (n : Nat) : (ckSeed n).length = n := by simp [ckSeed]

theorem ckSeed_succ (n : Nat) : ckSeed (n + 1) = 1#8 :: List.replicate n 0#8 := by simp [ckSeed, List.replicate_succ]

/-- The seed, level by level (R101). -/
theorem ckSeed_getElem? (n c : Nat) (h : c < n) : (ckSeed n)[c]? = some (if c = 0 then 1#8 else 0#8) := by
  obtain ⟨n, rfl⟩ : ∃ k, n = k + 1 := ⟨n - 1, by omega⟩
  rw [ckSeed_succ]
  cases c with
  | zero => rfl
  | succ c =>
    have : c < n := by omega
    simp [this]

@[simp] theorem ckAdd_length (acc : List Byte) (x : Byte) : (ckAdd acc x).length = acc.length := by
  induction acc generalizing x with
  | nil => rfl
  | cons a acc ih => simp [ckAdd, ih]

@[simp] theorem ckRun_nil (acc : List Byte) : ckRun acc [] = acc := rfl

@[simp] theorem ckRun_cons (acc : List Byte) (b : Byte) (bs : List Byte) :
    ckRun acc (b :: bs) = ckRun (ckAdd acc b) bs := rfl

theorem ckRun_append (acc bs cs : List Byte) : ckRun acc (bs ++ cs) = ckRun (ckRun acc bs) cs := by
  simp [ckRun]

@[simp] theorem ckRun_length (acc bs : List Byte) : (ckRun acc bs).length = acc.length := by
  induction bs generalizing acc with
  | nil => rfl
  | cons b bs ih => simp [ih]

/-- Level 0 adds the byte (R102). -/
theorem ckAdd_getElem?_zero (acc : List Byte) (x : Byte) : (ckAdd acc x)[0]? = (acc[0]?).map (· + x) := by
  cases acc <;> rfl

/-- Every other level adds the level below as already updated (R102). -/
theorem ckAdd_getElem?_succ (acc : List Byte) (x : Byte) (c : Nat) (a p : Byte) (ha : acc[c + 1]? = some a)
    (hp : (ckAdd acc x)[c]? = some p) : (ckAdd acc x)[c + 1]? = some (a + p) := by
  induction acc generalizing x c with
  | nil => simp at ha
  | cons a0 acc ih =>
    cases c with
    | zero =>
      simp only [ckAdd, List.getElem?_cons_zero, Option.some.injEq] at hp
      subst hp
      cases acc with
      | nil => simp at ha
      | cons a1 acc =>
        simp only [List.getElem?_cons_succ, List.getElem?_cons_zero, Option.some.injEq] at ha
        subst ha
        rfl
    | succ c =>
      simp only [ckAdd, List.getElem?_cons_succ] at ha hp ⊢
      exact ih _ _ ha hp

/-! The operations -/

/-- `ck_init` writes the selected cascade alone. -/
theorem State.ckInit_frame (s : State) (x : CkSel) :
    s.ckInit x = { s with rxck := (s.ckInit x).rxck, txck := (s.ckInit x).txck } := State.withCk_frame _ _ _

/-- `ck_update` writes the selected cascade alone. -/
theorem State.ckUpdate_frame (s : State) (x : CkSel) (b : Byte) :
    s.ckUpdate x b = { s with rxck := (s.ckUpdate x b).rxck, txck := (s.ckUpdate x b).txck } :=
  State.withCk_frame _ _ _

@[simp] theorem State.ckInit_ck (s : State) (x : CkSel) : (s.ckInit x).ck x = ⟨ckSeed s.cfg.n⟩ :=
  State.withCk_ck _ _ _

@[simp] theorem State.ckUpdate_ck (s : State) (x : CkSel) (b : Byte) :
    (s.ckUpdate x b).ck x = ⟨ckAdd (s.ck x).acc b⟩ := State.withCk_ck _ _ _

@[simp] theorem State.ckInit_rx_eq (s : State) : s.ckInit .rx = s.withRxck ⟨ckSeed s.cfg.n⟩ := rfl
@[simp] theorem State.ckInit_tx_eq (s : State) : s.ckInit .tx = s.withTxck ⟨ckSeed s.cfg.n⟩ := rfl
@[simp] theorem State.ckUpdate_rx_eq (s : State) (b : Byte) :
    s.ckUpdate .rx b = s.withRxck ⟨ckAdd s.rxck.acc b⟩ := rfl
@[simp] theorem State.ckUpdate_tx_eq (s : State) (b : Byte) :
    s.ckUpdate .tx b = s.withTxck ⟨ckAdd s.txck.acc b⟩ := rfl

end Sys2Proof.Machine
end

