-- ==== Sys2Proof/Laws/Env.lean ====
section
/-! SUPPORT. What each event changes: the environment's remaining answers and the trace, and nothing else. -/

namespace Sys2Proof.Machine

@[simp] theorem State.bytesAvailable_cfg (s : State) : (s.bytesAvailable).2.cfg = s.cfg := rfl
@[simp] theorem State.bytesAvailable_rxck (s : State) : (s.bytesAvailable).2.rxck = s.rxck := rfl
@[simp] theorem State.bytesAvailable_txck (s : State) : (s.bytesAvailable).2.txck = s.txck := rfl
@[simp] theorem State.bytesAvailable_rx (s : State) : (s.bytesAvailable).2.rx = s.rx := rfl
@[simp] theorem State.bytesAvailable_tx (s : State) : (s.bytesAvailable).2.tx = s.tx := rfl
@[simp] theorem State.bytesAvailable_sc (s : State) : (s.bytesAvailable).2.sc = s.sc := rfl
@[simp] theorem State.bytesAvailable_pin (s : State) : (s.bytesAvailable).2.pin = s.pin := rfl
@[simp] theorem State.bytesAvailable_queue (s : State) : (s.bytesAvailable).2.queue = s.queue := rfl
@[simp] theorem State.bytesAvailable_builds (s : State) : (s.bytesAvailable).2.builds = s.builds := rfl
@[simp] theorem State.bytesAvailable_reports (s : State) : (s.bytesAvailable).2.reports = s.reports := rfl

@[simp] theorem State.nowMicros_cfg (s : State) : (s.nowMicros).2.cfg = s.cfg := rfl
@[simp] theorem State.nowMicros_rxck (s : State) : (s.nowMicros).2.rxck = s.rxck := rfl
@[simp] theorem State.nowMicros_txck (s : State) : (s.nowMicros).2.txck = s.txck := rfl
@[simp] theorem State.nowMicros_rx (s : State) : (s.nowMicros).2.rx = s.rx := rfl
@[simp] theorem State.nowMicros_tx (s : State) : (s.nowMicros).2.tx = s.tx := rfl
@[simp] theorem State.nowMicros_sc (s : State) : (s.nowMicros).2.sc = s.sc := rfl
@[simp] theorem State.nowMicros_pin (s : State) : (s.nowMicros).2.pin = s.pin := rfl
@[simp] theorem State.nowMicros_queue (s : State) : (s.nowMicros).2.queue = s.queue := rfl
@[simp] theorem State.nowMicros_builds (s : State) : (s.nowMicros).2.builds = s.builds := rfl
@[simp] theorem State.nowMicros_reports (s : State) : (s.nowMicros).2.reports = s.reports := rfl

@[simp] theorem State.takeDraw_cfg (s : State) : (s.takeDraw).2.cfg = s.cfg := rfl
@[simp] theorem State.takeDraw_rxck (s : State) : (s.takeDraw).2.rxck = s.rxck := rfl
@[simp] theorem State.takeDraw_txck (s : State) : (s.takeDraw).2.txck = s.txck := rfl
@[simp] theorem State.takeDraw_rx (s : State) : (s.takeDraw).2.rx = s.rx := rfl
@[simp] theorem State.takeDraw_tx (s : State) : (s.takeDraw).2.tx = s.tx := rfl
@[simp] theorem State.takeDraw_sc (s : State) : (s.takeDraw).2.sc = s.sc := rfl
@[simp] theorem State.takeDraw_pin (s : State) : (s.takeDraw).2.pin = s.pin := rfl
@[simp] theorem State.takeDraw_queue (s : State) : (s.takeDraw).2.queue = s.queue := rfl
@[simp] theorem State.takeDraw_builds (s : State) : (s.takeDraw).2.builds = s.builds := rfl
@[simp] theorem State.takeDraw_trace (s : State) : (s.takeDraw).2.trace = s.trace := rfl
@[simp] theorem State.takeDraw_reports (s : State) : (s.takeDraw).2.reports = s.reports := rfl

@[simp] theorem State.applyVelocity_cfg (s : State) (v : Word32) : (s.applyVelocity v).2.cfg = s.cfg := rfl
@[simp] theorem State.applyVelocity_rxck (s : State) (v : Word32) : (s.applyVelocity v).2.rxck = s.rxck := rfl
@[simp] theorem State.applyVelocity_txck (s : State) (v : Word32) : (s.applyVelocity v).2.txck = s.txck := rfl
@[simp] theorem State.applyVelocity_rx (s : State) (v : Word32) : (s.applyVelocity v).2.rx = s.rx := rfl
@[simp] theorem State.applyVelocity_tx (s : State) (v : Word32) : (s.applyVelocity v).2.tx = s.tx := rfl
@[simp] theorem State.applyVelocity_sc (s : State) (v : Word32) : (s.applyVelocity v).2.sc = s.sc := rfl
@[simp] theorem State.applyVelocity_pin (s : State) (v : Word32) : (s.applyVelocity v).2.pin = s.pin := rfl
@[simp] theorem State.applyVelocity_queue (s : State) (v : Word32) : (s.applyVelocity v).2.queue = s.queue := rfl
@[simp] theorem State.applyVelocity_builds (s : State) (v : Word32) : (s.applyVelocity v).2.builds = s.builds := rfl
@[simp] theorem State.applyVelocity_reports (s : State) (v : Word32) : (s.applyVelocity v).2.reports = s.reports := rfl

@[simp] theorem State.tickActuation_cfg (s : State) : (s.tickActuation).cfg = s.cfg := rfl
@[simp] theorem State.tickActuation_rxck (s : State) : (s.tickActuation).rxck = s.rxck := rfl
@[simp] theorem State.tickActuation_txck (s : State) : (s.tickActuation).txck = s.txck := rfl
@[simp] theorem State.tickActuation_rx (s : State) : (s.tickActuation).rx = s.rx := rfl
@[simp] theorem State.tickActuation_tx (s : State) : (s.tickActuation).tx = s.tx := rfl
@[simp] theorem State.tickActuation_sc (s : State) : (s.tickActuation).sc = s.sc := rfl
@[simp] theorem State.tickActuation_pin (s : State) : (s.tickActuation).pin = s.pin := rfl
@[simp] theorem State.tickActuation_queue (s : State) : (s.tickActuation).queue = s.queue := rfl
@[simp] theorem State.tickActuation_builds (s : State) : (s.tickActuation).builds = s.builds := rfl
@[simp] theorem State.tickActuation_env (s : State) : (s.tickActuation).env = s.env := rfl
@[simp] theorem State.tickActuation_reports (s : State) : (s.tickActuation).reports = s.reports := rfl

@[simp] theorem State.delay_cfg (s : State) : (s.delay).cfg = s.cfg := rfl
@[simp] theorem State.delay_rxck (s : State) : (s.delay).rxck = s.rxck := rfl
@[simp] theorem State.delay_txck (s : State) : (s.delay).txck = s.txck := rfl
@[simp] theorem State.delay_rx (s : State) : (s.delay).rx = s.rx := rfl
@[simp] theorem State.delay_tx (s : State) : (s.delay).tx = s.tx := rfl
@[simp] theorem State.delay_sc (s : State) : (s.delay).sc = s.sc := rfl
@[simp] theorem State.delay_pin (s : State) : (s.delay).pin = s.pin := rfl
@[simp] theorem State.delay_queue (s : State) : (s.delay).queue = s.queue := rfl
@[simp] theorem State.delay_builds (s : State) : (s.delay).builds = s.builds := rfl
@[simp] theorem State.delay_env (s : State) : (s.delay).env = s.env := rfl
@[simp] theorem State.delay_reports (s : State) : (s.delay).reports = s.reports := rfl

@[simp] theorem State.applyTemperatureMode_cfg (s : State) (m : Int) : (s.applyTemperatureMode m).cfg = s.cfg := rfl
@[simp] theorem State.applyTemperatureMode_rxck (s : State) (m : Int) : (s.applyTemperatureMode m).rxck = s.rxck := rfl
@[simp] theorem State.applyTemperatureMode_txck (s : State) (m : Int) : (s.applyTemperatureMode m).txck = s.txck := rfl
@[simp] theorem State.applyTemperatureMode_rx (s : State) (m : Int) : (s.applyTemperatureMode m).rx = s.rx := rfl
@[simp] theorem State.applyTemperatureMode_tx (s : State) (m : Int) : (s.applyTemperatureMode m).tx = s.tx := rfl
@[simp] theorem State.applyTemperatureMode_sc (s : State) (m : Int) : (s.applyTemperatureMode m).sc = s.sc := rfl
@[simp] theorem State.applyTemperatureMode_pin (s : State) (m : Int) : (s.applyTemperatureMode m).pin = s.pin := rfl
@[simp] theorem State.applyTemperatureMode_queue (s : State) (m : Int) : (s.applyTemperatureMode m).queue = s.queue := rfl
@[simp] theorem State.applyTemperatureMode_builds (s : State) (m : Int) : (s.applyTemperatureMode m).builds = s.builds := rfl
@[simp] theorem State.applyTemperatureMode_env (s : State) (m : Int) : (s.applyTemperatureMode m).env = s.env := rfl
@[simp] theorem State.applyTemperatureMode_reports (s : State) (m : Int) : (s.applyTemperatureMode m).reports = s.reports := rfl

@[simp] theorem State.readByte_cfg (s : State) (b : Byte) : (s.readByte b).cfg = s.cfg := rfl
@[simp] theorem State.readByte_rxck (s : State) (b : Byte) : (s.readByte b).rxck = s.rxck := rfl
@[simp] theorem State.readByte_txck (s : State) (b : Byte) : (s.readByte b).txck = s.txck := rfl
@[simp] theorem State.readByte_rx (s : State) (b : Byte) : (s.readByte b).rx = s.rx := rfl
@[simp] theorem State.readByte_tx (s : State) (b : Byte) : (s.readByte b).tx = s.tx := rfl
@[simp] theorem State.readByte_sc (s : State) (b : Byte) : (s.readByte b).sc = s.sc := rfl
@[simp] theorem State.readByte_pin (s : State) (b : Byte) : (s.readByte b).pin = s.pin := rfl
@[simp] theorem State.readByte_queue (s : State) (b : Byte) : (s.readByte b).queue = s.queue := rfl
@[simp] theorem State.readByte_builds (s : State) (b : Byte) : (s.readByte b).builds = s.builds := rfl
@[simp] theorem State.readByte_reports (s : State) (b : Byte) : (s.readByte b).reports = s.reports := rfl

@[simp] theorem State.writeByte_cfg (s : State) (b : Byte) : (s.writeByte b).cfg = s.cfg := rfl
@[simp] theorem State.writeByte_rxck (s : State) (b : Byte) : (s.writeByte b).rxck = s.rxck := rfl
@[simp] theorem State.writeByte_txck (s : State) (b : Byte) : (s.writeByte b).txck = s.txck := rfl
@[simp] theorem State.writeByte_rx (s : State) (b : Byte) : (s.writeByte b).rx = s.rx := rfl
@[simp] theorem State.writeByte_tx (s : State) (b : Byte) : (s.writeByte b).tx = s.tx := rfl
@[simp] theorem State.writeByte_sc (s : State) (b : Byte) : (s.writeByte b).sc = s.sc := rfl
@[simp] theorem State.writeByte_pin (s : State) (b : Byte) : (s.writeByte b).pin = s.pin := rfl
@[simp] theorem State.writeByte_queue (s : State) (b : Byte) : (s.writeByte b).queue = s.queue := rfl
@[simp] theorem State.writeByte_builds (s : State) (b : Byte) : (s.writeByte b).builds = s.builds := rfl
@[simp] theorem State.writeByte_env (s : State) (b : Byte) : (s.writeByte b).env = s.env := rfl
@[simp] theorem State.writeByte_reports (s : State) (b : Byte) : (s.writeByte b).reports = s.reports := rfl

/-! The trace -/

@[simp] theorem State.bytesAvailable_trace (s : State) :
    s.bytesAvailable.2.trace = s.trace ++ [.bytesAvailable s.bytesAvailable.1] := rfl
@[simp] theorem State.nowMicros_trace (s : State) : s.nowMicros.2.trace = s.trace ++ [.nowMicros s.nowMicros.1] := rfl
@[simp] theorem State.applyVelocity_trace (s : State) (v : Word32) :
    (s.applyVelocity v).2.trace = s.trace ++ [.applyVelocity v (s.applyVelocity v).1] := rfl
@[simp] theorem State.tickActuation_trace (s : State) : s.tickActuation.trace = s.trace ++ [.tickActuation] := rfl
@[simp] theorem State.delay_trace (s : State) : s.delay.trace = s.trace ++ [.delay s.cfg.delayUs] := rfl
@[simp] theorem State.applyTemperatureMode_trace (s : State) (m : Int) :
    (s.applyTemperatureMode m).trace = s.trace ++ [.applyTemperatureMode m] := rfl
@[simp] theorem State.readByte_trace (s : State) (b : Byte) : (s.readByte b).trace = s.trace ++ [.readByte b] := rfl
@[simp] theorem State.writeByte_trace (s : State) (b : Byte) : (s.writeByte b).trace = s.trace ++ [.writeByte b] := rfl

/-! The transport input: only readByte takes a byte out -/

@[simp] theorem Env.nextCount_fifo (e : Env) : e.nextCount.2.fifo = e.fifo := by
  unfold Env.nextCount; split <;> rfl
@[simp] theorem Env.nextReading_fifo (e : Env) : e.nextReading.2.fifo = e.fifo := by
  unfold Env.nextReading; split <;> rfl
@[simp] theorem Env.nextVelocity_fifo (e : Env) : e.nextVelocity.2.fifo = e.fifo := by
  unfold Env.nextVelocity; split <;> rfl
@[simp] theorem Env.nextDraw_fifo (e : Env) : e.nextDraw.2.fifo = e.fifo := by
  unfold Env.nextDraw; split <;> rfl
@[simp] theorem State.bytesAvailable_fifo (s : State) : s.bytesAvailable.2.env.fifo = s.env.fifo :=
  Env.nextCount_fifo s.env
@[simp] theorem State.nowMicros_fifo (s : State) : s.nowMicros.2.env.fifo = s.env.fifo := Env.nextReading_fifo s.env
@[simp] theorem State.applyVelocity_fifo (s : State) (v : Word32) : (s.applyVelocity v).2.env.fifo = s.env.fifo :=
  Env.nextVelocity_fifo s.env
@[simp] theorem State.takeDraw_fifo (s : State) : s.takeDraw.2.env.fifo = s.env.fifo := Env.nextDraw_fifo s.env
@[simp] theorem State.readByte_fifo (s : State) (b : Byte) : (s.readByte b).env.fifo = s.env.fifo.drop 1 := rfl

/-! The answers -/

/-- The next count is the head of its list, and taking it drops that head. -/
theorem Env.nextCount_eq (e : Env) :
    (∀ x ∈ e.counts.head?, e.nextCount.1 = x) ∧
      e.nextCount.2 = { e with counts := e.counts.tail, drawn := e.nextCount.2.drawn } := by
  unfold Env.nextCount; cases e.counts <;> simp

/-- The next reading is the head of its list, and taking it drops that head. -/
theorem Env.nextReading_eq (e : Env) :
    (∀ x ∈ e.readings.head?, e.nextReading.1 = x) ∧
      e.nextReading.2 = { e with readings := e.readings.tail, drawn := e.nextReading.2.drawn } := by
  unfold Env.nextReading; cases e.readings <;> simp

/-- The next corrected velocity is the head of its list, and taking it drops that head. -/
theorem Env.nextVelocity_eq (e : Env) :
    (∀ x ∈ e.velocities.head?, e.nextVelocity.1 = x) ∧
      e.nextVelocity.2 = { e with velocities := e.velocities.tail, drawn := e.nextVelocity.2.drawn } := by
  unfold Env.nextVelocity; cases e.velocities <;> simp

/-- The next draw is the head of its list, and taking it drops that head. -/
theorem Env.nextDraw_eq (e : Env) :
    (∀ x ∈ e.draws.head?, e.nextDraw.1 = x) ∧
      e.nextDraw.2 = { e with draws := e.draws.tail, drawn := e.nextDraw.2.drawn } := by
  unfold Env.nextDraw; cases e.draws <;> simp

/-- A reading is the environment's next one, reduced to CLK_W bits. -/
theorem State.nowMicros_head (s : State) : ∀ x ∈ s.env.readings.head?, s.nowMicros.1 = x % 2 ^ s.cfg.clkW :=
  fun x hx => congrArg (· % _) (s.env.nextReading_eq.1 x hx)

/-- A corrected velocity is the environment's next one. -/
theorem State.applyVelocity_head (s : State) (v : Word32) : ∀ x ∈ s.env.velocities.head?, (s.applyVelocity v).1 = x :=
  s.env.nextVelocity_eq.1

/-- A count is the environment's next one, cut to the FIFO. -/
theorem State.bytesAvailable_head (s : State) :
    ∀ x ∈ s.env.counts.head?, s.bytesAvailable.1 = min x s.env.fifo.length :=
  fun x hx => congrArg (min · _) (s.env.nextCount_eq.1 x hx)

/-- A count is no larger than the FIFO (R232). -/
theorem State.bytesAvailable_le (s : State) : s.bytesAvailable.1 ≤ s.env.fifo.length := Nat.min_le_right _ _

/-- A reading has CLK_W bits (R231). -/
theorem State.nowMicros_lt (s : State) : s.nowMicros.1 < 2 ^ s.cfg.clkW := Nat.mod_lt _ (Nat.two_pow_pos _)

/-- The writes of consecutive bytes change the trace alone. -/
theorem State.writeBytes_eq (bs : List Byte) (s : State) :
    s.writeBytes bs = { s with trace := s.trace ++ bs.map .writeByte } := by
  induction bs generalizing s with
  | nil => simp [State.writeBytes]
  | cons b bs ih =>
    have : s.writeBytes (b :: bs) = (s.writeByte b).writeBytes bs := rfl
    rw [this, ih]
    simp [State.writeByte, State.emit]

end Sys2Proof.Machine
end

