-- ==== Sys2Proof/Laws/Memory.lean ====
section
/-! SUPPORT. The buffers: read after write, the canonical form, and consecutive reads of consecutive writes. -/

namespace Sys2Proof.Machine

@[simp] theorem Memory.read_nil (i : Nat) : Memory.read [] i = none := rfl

theorem Memory.read_write (m : Memory) (i : Nat) (v : Byte) (j : Nat) :
    Memory.read (Memory.write m i v) j = if i = j then some v else Memory.read m j := by
  induction m with
  | nil => rfl
  | cons c m ih =>
    obtain ⟨a, b⟩ := c
    simp only [Memory.write]
    split
    · simp only [Memory.read]
    · split
      · subst_vars; simp only [Memory.read]; split <;> rfl
      · simp only [Memory.read, ih]
        by_cases h : a = j
        · have : i ≠ j := by omega
          simp [h, this]
        · simp [h]

@[simp] theorem Memory.read_write_same (m : Memory) (i : Nat) (v : Byte) :
    Memory.read (Memory.write m i v) i = some v := by simp [Memory.read_write]

theorem Memory.read_write_other (m : Memory) (i : Nat) (v : Byte) (j : Nat) (h : i ≠ j) :
    Memory.read (Memory.write m i v) j = Memory.read m j := by simp [Memory.read_write, h]

/-- A consecutive write stores its bytes from `i` on and leaves every other cell alone. -/
theorem Memory.read_writeSeq (bs : List Byte) (m : Memory) (i j : Nat) :
    Memory.read (Memory.writeSeq m i bs) j = if i ≤ j ∧ j < i + bs.length then bs[j - i]? else Memory.read m j := by
  induction bs generalizing m i with
  | nil =>
    have : ¬(i ≤ j ∧ j < i + ([] : List Byte).length) := by simp
    rw [if_neg this]; rfl
  | cons b bs ih =>
    simp only [Memory.writeSeq, ih, Memory.read_write, List.length_cons]
    by_cases h : i = j
    · subst h
      simp
    · by_cases h2 : i + 1 ≤ j ∧ j < i + 1 + bs.length
      · have h3 : i ≤ j ∧ j < i + (bs.length + 1) := by omega
        have h4 : j - i = (j - (i + 1)) + 1 := by omega
        simp [h2, h3, h4]
      · have h3 : ¬(i ≤ j ∧ j < i + (bs.length + 1)) := by omega
        rw [if_neg h2, if_neg h3, if_neg h]

/-- A consecutive write read back is what was written. -/
theorem Memory.readSeq_writeSeq (bs : List Byte) (m : Memory) (i : Nat) :
    Memory.readSeq (Memory.writeSeq m i bs) i bs.length = some bs := by
  induction bs generalizing m i with
  | nil => rfl
  | cons b bs ih =>
    have h : Memory.read (Memory.writeSeq (Memory.write m i b) (i + 1) bs) i = some b := by
      rw [Memory.read_writeSeq, if_neg (by omega), Memory.read_write_same]
    simp [Memory.writeSeq, Memory.readSeq, h, ih]

/-- A consecutive read answers exactly when every cell it reads is written, with the bytes of the cells. -/
theorem Memory.readSeq_eq_some (m : Memory) (i n : Nat) (bs : List Byte) :
    Memory.readSeq m i n = some bs ↔ bs.length = n ∧ ∀ j, j < n → Memory.read m (i + j) = bs[j]? := by
  induction n generalizing i bs with
  | zero => simp [Memory.readSeq, eq_comm (a := ([] : List Byte))]
  | succ n ih =>
    simp only [Memory.readSeq]
    constructor
    · intro h
      split at h
      · cases h
      · next b hb =>
        split at h
        · cases h
        · next bs' hbs =>
          cases h
          obtain ⟨h1, h2⟩ := (ih _ _).1 hbs
          refine ⟨by simp [h1], fun j hj => ?_⟩
          cases j with
          | zero => simpa using hb
          | succ j =>
            have := h2 j (by omega)
            rw [Nat.add_right_comm, Nat.add_assoc] at this
            simpa using this
    · rintro ⟨h1, h2⟩
      cases bs with
      | nil => simp at h1
      | cons b bs =>
        have hb : Memory.read m i = some b := by simpa using h2 0 (by omega)
        have hr : Memory.readSeq m (i + 1) n = some bs := (ih _ _).2
          ⟨by simpa using h1, fun j hj => by
            have := h2 (j + 1) (by omega)
            rw [show i + 1 + j = i + (j + 1) by omega]
            simpa using this⟩
        simp [hb, hr]

theorem Memory.readSeq_isSome (m : Memory) (i n : Nat) (h : ∀ j, j < n → (Memory.read m (i + j)).isSome) :
    ∃ bs, Memory.readSeq m i n = some bs := by
  induction n generalizing i with
  | zero => exact ⟨[], rfl⟩
  | succ n ih =>
    obtain ⟨b, hb⟩ := Option.isSome_iff_exists.1 (h 0 (by omega))
    obtain ⟨bs, hbs⟩ := ih (i + 1) (fun j hj => by
      have := h (j + 1) (by omega)
      rwa [show i + 1 + j = i + (j + 1) by omega])
    rw [Nat.add_zero] at hb
    exact ⟨b :: bs, by simp [Memory.readSeq, hb, hbs]⟩

/-! The canonical form -/

@[simp] theorem Memory.wf_nil (size : Nat) : Memory.wf size [] = true := rfl

theorem Memory.wfFrom_mono (size lo lo' : Nat) (m : Memory) (h : lo' ≤ lo) (hm : Memory.wfFrom size lo m = true) :
    Memory.wfFrom size lo' m = true := by
  cases m with
  | nil => rfl
  | cons c m =>
    obtain ⟨a, b⟩ := c
    simp only [Memory.wfFrom, Bool.and_eq_true, decide_eq_true_eq] at hm ⊢
    exact ⟨⟨by omega, hm.1.2⟩, hm.2⟩

theorem Memory.wfFrom_write (size lo i : Nat) (v : Byte) (m : Memory) (hlo : lo ≤ i) (hi : i < size)
    (hm : Memory.wfFrom size lo m = true) : Memory.wfFrom size lo (Memory.write m i v) = true := by
  induction m generalizing lo with
  | nil => simp [Memory.write, Memory.wfFrom, hlo, hi]
  | cons c m ih =>
    obtain ⟨a, b⟩ := c
    simp only [Memory.wfFrom, Bool.and_eq_true, decide_eq_true_eq] at hm
    simp only [Memory.write]
    split
    · simp only [Memory.wfFrom, Bool.and_eq_true, decide_eq_true_eq]
      exact ⟨⟨hlo, hi⟩, ⟨by omega, hm.1.2⟩, hm.2⟩
    · split
      · subst_vars
        simp only [Memory.wfFrom, Bool.and_eq_true, decide_eq_true_eq]
        exact ⟨⟨hlo, hi⟩, hm.2⟩
      · simp only [Memory.wfFrom, Bool.and_eq_true, decide_eq_true_eq]
        exact ⟨hm.1, ih (a + 1) (by omega) hm.2⟩

/-- A write inside the buffer keeps the canonical form. -/
theorem Memory.wf_write (size i : Nat) (v : Byte) (m : Memory) (hi : i < size) (hm : Memory.wf size m = true) :
    Memory.wf size (Memory.write m i v) = true := Memory.wfFrom_write size 0 i v m (by omega) hi hm

/-- A consecutive write inside the buffer keeps the canonical form. -/
theorem Memory.wf_writeSeq (size : Nat) (bs : List Byte) (m : Memory) (i : Nat) (hi : i + bs.length ≤ size)
    (hm : Memory.wf size m = true) : Memory.wf size (Memory.writeSeq m i bs) = true := by
  induction bs generalizing m i with
  | nil => exact hm
  | cons b bs ih =>
    simp only [List.length_cons] at hi
    exact ih _ _ (by omega) (Memory.wf_write size i b m (by omega) hm)

theorem Memory.wfFrom_read (size lo j : Nat) (m : Memory) (hm : Memory.wfFrom size lo m = true)
    (hj : j < lo ∨ size ≤ j) : Memory.read m j = none := by
  induction m generalizing lo with
  | nil => rfl
  | cons c m ih =>
    obtain ⟨a, b⟩ := c
    simp only [Memory.wfFrom, Bool.and_eq_true, decide_eq_true_eq] at hm
    have : a ≠ j := by omega
    simp only [Memory.read, this, if_false]
    exact ih (a + 1) hm.2 (by omega)

/-- A buffer in canonical form holds nothing outside its cells. -/
theorem Memory.read_outside (size j : Nat) (m : Memory) (hm : Memory.wf size m = true) (hj : size ≤ j) :
    Memory.read m j = none := Memory.wfFrom_read size 0 j m hm (.inr hj)

/-- Two buffers in canonical form that read alike are the same list. -/
theorem Memory.ext_of_wf (size lo : Nat) (m m' : Memory) (hm : Memory.wfFrom size lo m = true)
    (hm' : Memory.wfFrom size lo m' = true) (h : ∀ j, Memory.read m j = Memory.read m' j) : m = m' := by
  induction m generalizing m' lo with
  | nil =>
    cases m' with
    | nil => rfl
    | cons c m' =>
      obtain ⟨a, b⟩ := c
      simpa [Memory.read] using h a
  | cons c m ih =>
    obtain ⟨a, b⟩ := c
    cases m' with
    | nil => simpa [Memory.read] using h a
    | cons c' m' =>
      obtain ⟨a', b'⟩ := c'
      simp only [Memory.wfFrom, Bool.and_eq_true, decide_eq_true_eq] at hm hm'
      have haa : a = a' := by
        rcases Nat.lt_trichotomy a a' with hlt | heq | hgt
        · have h1 := h a
          have : a' ≠ a := by omega
          simp only [Memory.read, if_true, this, if_false] at h1
          rw [Memory.wfFrom_read size (a' + 1) a m' hm'.2 (by omega)] at h1
          cases h1
        · exact heq
        · have h1 := h a'
          have : a ≠ a' := by omega
          simp only [Memory.read, if_true, this, if_false] at h1
          rw [Memory.wfFrom_read size (a + 1) a' m hm.2 (by omega)] at h1
          cases h1
      subst haa
      have hb : b = b' := by simpa [Memory.read] using h a
      subst hb
      rw [ih (a + 1) m' hm.2 hm'.2 fun j => ?_]
      have h1 := h j
      simp only [Memory.read] at h1
      by_cases hj : a = j
      · subst hj
        rw [Memory.wfFrom_read size (a + 1) a m hm.2 (by omega),
          Memory.wfFrom_read size (a + 1) a m' hm'.2 (by omega)]
      · simpa [hj] using h1

end Sys2Proof.Machine
end

