-- ==== Sys2Proof/Laws/Receiver.lean ====
section
/-! SUPPORT. RX_ACCEPT: its equation in each receiver state, what it leaves alone, and that it keeps the invariant. -/

namespace Sys2Proof.Machine

/-! One equation per receiver state (R120) -/

theorem rxAccept_waitSync (b : Byte) (rnd : Bool) (s : State) (h : s.rx.state = .waitSync) :
    rxAccept b rnd s = if b = magic then rxStartFrame s .sync else rxDiscard s .ignored := by
  simp only [rxAccept, State.rxSelect, h, rxRowOf]; split <;> rfl

theorem rxAccept_readLength (b : Byte) (rnd : Bool) (s : State) (h : s.rx.state = .readLength) :
    rxAccept b rnd s = if b = 0#8 ∨ 128 ≤ b.toNat then rxFail s .lenBad else rxActLenOk b s := by
  simp only [rxAccept, State.rxSelect, h, rxRowOf]
  by_cases h0 : b = 0#8
  · simp [h0, rxRun]
  · by_cases h1 : b.toNat < 128
    · have : ¬128 ≤ b.toNat := by omega
      simp [h0, h1, rxRun]
    · have : 128 ≤ b.toNat := by omega
      simp [h0, h1, this, rxRun]

theorem rxAccept_readPayload (b : Byte) (rnd : Bool) (s : State) (h : s.rx.state = .readPayload) :
    rxAccept b rnd s =
      if s.rx.cnt.toNat + 1 = s.rx.len.toNat then rxStore b .readChecksum .payloadLast s
      else rxStore b .readPayload .payload s := by
  simp only [rxAccept, State.rxSelect, h, rxRowOf, decide_eq_true_eq]; split <;> rfl

theorem rxAccept_readChecksum (b : Byte) (rnd : Bool) (s : State) (a : Byte) (h : s.rx.state = .readChecksum)
    (ha : s.ckExpected = some a) :
    rxAccept b rnd s =
      if b = a then (if s.ckIndex + 1 = s.cfg.n then rxActDone s else rxActCkMatch s)
      else rxFail s .ckMismatch := by
  simp only [rxAccept, State.rxSelect, h, ha, rxRowOf, decide_eq_true_eq]
  by_cases hb : b = a
  · simp only [hb, if_true]; split <;> rfl
  · simp [hb, rxRun]

theorem rxAccept_failed (b : Byte) (rnd : Bool) (s : State) (h : s.rx.state = .failed) :
    rxAccept b rnd s =
      if b = magic then (if rnd then rxStartFrame s .resync else rxDiscard s .resyncReject)
      else rxDiscard s .failedNoise := by
  simp only [rxAccept, State.rxSelect, h, rxRowOf]
  by_cases hb : b = magic
  · cases rnd <;> simp [hb, rxRun]
  · simp [hb, rxRun]

theorem rxAccept_illegal (b : Byte) (rnd : Bool) (s : State) (h : s.rx.state.isIllegal = true) :
    rxAccept b rnd s = if b = magic then rxStartFrame s .rxIllegalStateSync else rxActIllegal s := by
  unfold rxAccept State.rxSelect
  cases hs : s.rx.state <;> simp_all [RxTag.isIllegal] <;> simp only [rxRowOf] <;> split <;> rfl

/-! What a row can do -/

/-- RX_ACCEPT writes the receiver's registers and RXCK alone. -/
theorem rxRun_frame (row : RxRow) (b : Byte) (s : State) (r : RxReply) (h : rxRun row b s = .ok r) :
    r.state = { s with rx := r.state.rx, rxck := r.state.rxck } := by
  cases row <;> simp only [rxRun, rxStartFrame, rxDiscard, rxFail, rxActLenOk, rxStore, rxActCkMatch, rxActDone,
    rxActIllegal] at h <;> (try split at h) <;> cases h <;> rfl

theorem rxAccept_frame (b : Byte) (rnd : Bool) (s : State) (r : RxReply) (h : rxAccept b rnd s = .ok r) :
    r.state = { s with rx := r.state.rx, rxck := r.state.rxck } := by
  unfold rxAccept at h
  split at h
  · cases h
  · exact rxRun_frame _ _ _ _ h

/-- Only DONE gives a payload: the cells `0..len−1` of RX.pbuf (R126). -/
theorem rxRun_out (row : RxRow) (b : Byte) (s : State) (r : RxReply) (p : List Byte) (h : rxRun row b s = .ok r)
    (hp : r.out = some p) :
    row = .done ∧ r.resp = .done ∧ Memory.readSeq s.rx.pbuf 0 s.rx.len.toNat = some p := by
  cases row <;> simp only [rxRun, rxStartFrame, rxDiscard, rxFail, rxActLenOk, rxStore, rxActCkMatch, rxActDone,
    rxActIllegal] at h <;> (try split at h) <;> cases h <;> simp_all

/-! The invariant -/

theorem Inv.of_frame (s t : State) (hi : Inv s) (hc : t.cfg = s.cfg) (h1 : t.rxck.acc.length = s.cfg.n)
    (h2 : t.txck = s.txck) (h3 : t.tx = s.tx) (h4 : t.sc = s.sc) (hp : Memory.wf maxLen t.rx.pbuf = true)
    (hr : RxInv s.cfg.n t.rx) : Inv t where
  cfg := by rw [hc]; exact hi.cfg
  rxck := by rw [hc]; exact h1
  txck := by rw [hc, h2]; exact hi.txck
  pbuf := hp
  fbuf := by rw [h3]; exact hi.fbuf
  rx := by rw [hc]; exact hr
  tx := by rw [h3]; exact hi.tx
  sc := by rw [h4]; exact hi.sc
  comm := by rw [hc, h4]; exact hi.comm

/-- In READ_CHECKSUM the expected accumulator exists (R135). -/
theorem Inv.ckExpected (s : State) (hi : Inv s) (h : s.rx.state = .readChecksum) :
    s.ckIndex < s.cfg.n ∧ ∃ a, s.ckExpected = some a ∧ s.rxck.acc[s.ckIndex]? = some a := by
  obtain ⟨_, _, hc, hn, _⟩ := hi.rx.checksum h
  have hlt : s.ckIndex < s.cfg.n := by unfold State.ckIndex; omega
  have hlt' : s.ckIndex < s.rxck.acc.length := by rw [hi.rxck]; exact hlt
  refine ⟨hlt, s.rxck.acc[s.ckIndex], ?_, ?_⟩
  · simp [State.ckExpected, hc, hlt']
  · simp [hlt']

theorem rxStore_inv (b : Byte) (s : State) (r : RxReply) (last : Bool) (hi : Inv s) (hs : s.rx.state = .readPayload)
    (hl : last = decide (s.rx.cnt.toNat + 1 = s.rx.len.toNat))
    (h : rxStore b (if last then .readChecksum else .readPayload) (if last then .payloadLast else .payload) s = .ok r) :
    Inv r.state := by
  obtain ⟨h1, h2, h3, hw, hu⟩ := hi.rx.payload hs
  have hcfg := hi.cfg
  have hpv : s.rx.pvalid = false := by
    cases hp : s.rx.pvalid with
    | false => rfl
    | true => obtain ⟨h, _⟩ := hi.rx.valid hp; simp [hs] at h
  have hc : (s.rx.cnt.toNat + 1) % 256 = s.rx.cnt.toNat + 1 := by omega
  have hw' : Written (Memory.write s.rx.pbuf s.rx.cnt.toNat b) (s.rx.cnt.toNat + 1) := by
    intro j hj
    rw [Memory.read_write]
    split
    · rfl
    · exact hw j (by omega)
  have hu' : UnwrittenFrom (Memory.write s.rx.pbuf s.rx.cnt.toNat b) (s.rx.cnt.toNat + 1) := by
    intro j hj
    rw [Memory.read_write, if_neg (by omega)]
    exact hu j (by omega)
  unfold rxStore at h
  rw [if_pos (show s.rx.cnt.toNat < 127 by omega)] at h
  cases h
  refine Inv.of_frame s _ hi rfl ?_ rfl rfl rfl ?_ ?_
  · simpa using hi.rxck
  · exact Memory.wf_write _ _ _ _ (show s.rx.cnt.toNat < 127 by omega) hi.pbuf
  · cases last with
    | true =>
      have hl := of_decide_eq_true hl.symm
      constructor <;> simp [RxTag.isIllegal, hpv]
      rw [hc]
      refine ⟨by omega, by omega, by omega, by omega, ?_⟩
      rw [← hl]; exact hw'
    | false =>
      have hl := of_decide_eq_false hl.symm
      constructor <;> simp [RxTag.isIllegal, hpv]
      rw [hc]
      exact ⟨by omega, by omega, by omega, hw', hu'⟩

/-- RX_ACCEPT keeps the invariant (R28, R135). -/
theorem rxAccept_inv (b : Byte) (rnd : Bool) (s : State) (r : RxReply) (hi : Inv s)
    (h : rxAccept b rnd s = .ok r) : Inv r.state := by
  have hlegal := hi.rx.legal
  cases hs : s.rx.state with
  | waitSync =>
    rw [rxAccept_waitSync b rnd s hs] at h
    split at h <;> cases h
    · refine Inv.of_frame s _ hi rfl hi.rxck rfl rfl rfl hi.pbuf ?_
      constructor <;> simp [RxTag.isIllegal]
      intro hv
      exact (hi.rx.valid hv).2
    · exact hi
  | readLength =>
    rw [rxAccept_readLength b rnd s hs] at h
    split at h <;> cases h
    · refine Inv.of_frame s _ hi rfl hi.rxck rfl rfl rfl hi.pbuf ?_
      constructor <;> simp [RxTag.isIllegal, RxUnit.goto]
      intro hv
      exact (hi.rx.valid hv).2
    · next hb =>
      refine Inv.of_frame s _ hi rfl (by simp) rfl rfl rfl rfl ?_
      have hcnt := hi.rx.length hs
      have hb0 : b.toNat ≠ 0 := by
        intro h0
        exact hb (.inl (BitVec.eq_of_toNat_eq (by simpa using h0)))
      constructor <;> simp [RxTag.isIllegal, hcnt, Written, UnwrittenFrom]
      omega
  | readPayload =>
    rw [rxAccept_readPayload b rnd s hs] at h
    refine rxStore_inv b s r (decide (s.rx.cnt.toNat + 1 = s.rx.len.toNat)) hi hs rfl ?_
    rw [← h]
    by_cases hl : s.rx.cnt.toNat + 1 = s.rx.len.toNat <;> simp [hl]
  | readChecksum =>
    obtain ⟨hlt, a, ha, _⟩ := hi.ckExpected s hs
    obtain ⟨h1, h2, h3, h4, hw⟩ := hi.rx.checksum hs
    have hcfg := hi.cfg
    have hpv : s.rx.pvalid = false := by
      cases hp : s.rx.pvalid with
      | false => rfl
      | true => obtain ⟨h, _⟩ := hi.rx.valid hp; simp [hs] at h
    rw [rxAccept_readChecksum b rnd s a hs ha] at h
    split at h
    · split at h
      · unfold rxActDone at h
        split at h <;> cases h
        refine Inv.of_frame s _ hi rfl hi.rxck rfl rfl rfl hi.pbuf ?_
        constructor <;> simp [RxTag.isIllegal]
        exact ⟨by omega, by omega, hw⟩
      · next hn =>
        cases h
        have hn' : s.rx.cnt.toNat - s.rx.len.toNat + 1 ≠ s.cfg.n := hn
        have hc : (s.rx.cnt.toNat + 1) % 256 = s.rx.cnt.toNat + 1 := by omega
        refine Inv.of_frame s _ hi rfl hi.rxck rfl rfl rfl hi.pbuf ?_
        constructor <;> simp only [State.withRx_rx, hs, hpv, RxTag.isIllegal] <;> simp
        rw [hc]
        exact ⟨by omega, by omega, by omega, by omega, hw⟩
    · cases h
      refine Inv.of_frame s _ hi rfl hi.rxck rfl rfl rfl hi.pbuf ?_
      constructor <;> simp [RxTag.isIllegal, RxUnit.goto, hpv]
  | failed =>
    rw [rxAccept_failed b rnd s hs] at h
    split at h
    · split at h <;> cases h
      · refine Inv.of_frame s _ hi rfl hi.rxck rfl rfl rfl hi.pbuf ?_
        constructor <;> simp [RxTag.isIllegal]
        intro hv
        exact (hi.rx.valid hv).2
      · exact hi
    · cases h; exact hi
  | illegal5 => simp [hs, RxTag.isIllegal] at hlegal
  | illegal6 => simp [hs, RxTag.isIllegal] at hlegal
  | illegal7 => simp [hs, RxTag.isIllegal] at hlegal

/-- Under the invariant RX_ACCEPT never faults: no index leaves its range and no unwritten cell is read (R50, R56). -/
theorem rxAccept_ok (b : Byte) (rnd : Bool) (s : State) (hi : Inv s) : ∃ r, rxAccept b rnd s = .ok r := by
  cases hs : s.rx.state with
  | waitSync => rw [rxAccept_waitSync b rnd s hs]; split <;> exact ⟨_, rfl⟩
  | readLength => rw [rxAccept_readLength b rnd s hs]; split <;> exact ⟨_, rfl⟩
  | readPayload =>
    obtain ⟨h1, h2, h3, _⟩ := hi.rx.payload hs
    rw [rxAccept_readPayload b rnd s hs]
    have : s.rx.cnt.toNat < maxLen := show s.rx.cnt.toNat < 127 by omega
    split <;> simp [rxStore, this]
  | readChecksum =>
    obtain ⟨_, a, ha, _⟩ := hi.ckExpected s hs
    obtain ⟨_, _, _, _, hw⟩ := hi.rx.checksum hs
    rw [rxAccept_readChecksum b rnd s a hs ha]
    split
    · split
      · obtain ⟨bs, hbs⟩ := Memory.readSeq_isSome s.rx.pbuf 0 s.rx.len.toNat (by simpa [Written] using hw)
        simp [rxActDone, hbs]
      · exact ⟨_, rfl⟩
    · exact ⟨_, rfl⟩
  | failed => rw [rxAccept_failed b rnd s hs]; split <;> (try split) <;> exact ⟨_, rfl⟩
  | illegal5 => rw [rxAccept_illegal b rnd s (by simp [hs, RxTag.isIllegal])]; split <;> exact ⟨_, rfl⟩
  | illegal6 => rw [rxAccept_illegal b rnd s (by simp [hs, RxTag.isIllegal])]; split <;> exact ⟨_, rfl⟩
  | illegal7 => rw [rxAccept_illegal b rnd s (by simp [hs, RxTag.isIllegal])]; split <;> exact ⟨_, rfl⟩

end Sys2Proof.Machine
end

