-- ==== Sys2Proof/Laws/Builder.lean ====
section
/-! SUPPORT. TX_BUILD and the sends of SC: under N ≤ 127 they are one equation, and they keep the invariant. -/

namespace Sys2Proof.Machine

@[simp] theorem frameOf_length (n : Nat) (q : List Byte) : (frameOf n q).length = q.length + n + 2 := by
  simp [frameOf]

/-- The builder's registers after an OK build of `q` (R150). -/
def builtTx (n : Nat) (q : List Byte) : TxUnit :=
  { fbuf := Memory.writeSeq [] 0 (frameOf n q), flen := BitVec.ofNat 9 (frameOf n q).length }

/-- A payload that fits is built (R150, R157). -/
theorem txBuild_fits (q : List Byte) (s : State) (hq : q.length ≤ 127) (hn : s.cfg.n ≤ 127) :
    txBuild q s = .ok ⟨(s.withTxck ⟨ckRun (ckSeed s.cfg.n) q⟩).withTx (builtTx s.cfg.n q), .ok, frameOf s.cfg.n q⟩ := by
  have h1 : ¬127 < q.length := by omega
  have h2 : ¬256 < q.length + s.cfg.n + 2 := by omega
  simp [txBuild, builtTx, h1, h2]

/-- A longer payload gives an empty result (R151). -/
theorem txBuild_oversize (q : List Byte) (s : State) (hq : 127 < q.length) :
    txBuild q s = .ok ⟨s.withTx { fbuf := [], flen := 0#9 }, .oversize, []⟩ := by
  simp [txBuild, hq]

@[simp] theorem builtTx_flen (n : Nat) (q : List Byte) (hq : q.length ≤ 127) (hn : n ≤ 127) :
    (builtTx n q).flen.toNat = q.length + n + 2 := by
  simp only [builtTx, frameOf_length, BitVec.toNat_ofNat]
  omega

theorem builtTx_read (n : Nat) (q : List Byte) (j : Nat) :
    Memory.read (builtTx n q).fbuf j = (frameOf n q)[j]? := by
  simp only [builtTx, Memory.read_writeSeq]
  split
  · simp
  · next h =>
    rw [Memory.read_nil, List.getElem?_eq_none]
    omega

theorem builtTx_wf (n : Nat) (q : List Byte) (hq : q.length ≤ 127) (hn : n ≤ 127) :
    Memory.wf frameCap (builtTx n q).fbuf = true :=
  Memory.wf_writeSeq _ _ _ _ (show 0 + (frameOf n q).length ≤ 256 by rw [frameOf_length]; omega) rfl

theorem builtTx_inv (n : Nat) (q : List Byte) (hq : q.length ≤ 127) (hn : n ≤ 127) : TxInv (builtTx n q) where
  bound := show _ ≤ 256 by rw [builtTx_flen n q hq hn]; omega
  written j hj := by
    rw [builtTx_flen n q hq hn] at hj
    rw [builtTx_read]
    simp; omega
  unwritten j hj := by
    rw [builtTx_flen n q hq hn] at hj
    rw [builtTx_read, List.getElem?_eq_none]
    rw [frameOf_length]; omega

/-- The built frame is what the core presents (R155). -/
theorem presentedFrame_built (s : State) (n : Nat) (q : List Byte) (hq : q.length ≤ 127) (hn : n ≤ 127) :
    (s.withTx (builtTx n q)).presentedFrame = .ok (frameOf n q) := by
  have : Memory.readSeq (builtTx n q).fbuf 0 (builtTx n q).flen.toNat = some (frameOf n q) := by
    rw [builtTx_flen n q hq hn, ← frameOf_length]
    exact Memory.readSeq_writeSeq _ _ _
  simp [State.presentedFrame, this]

/-- A send of a payload that fits (R183): the build, and one writeByte for each byte of the frame, in order. -/
theorem sendFrame_fits (q : List Byte) (s : State) (hq : q.length ≤ 127) (hn : s.cfg.n ≤ 127) :
    sendFrame q s = .ok { s with
      txck := ⟨ckRun (ckSeed s.cfg.n) q⟩
      tx := builtTx s.cfg.n q
      builds := s.builds + 1
      trace := s.trace ++ (frameOf s.cfg.n q).map .writeByte } := by
  simp only [sendFrame, txBuild_fits q s hq hn, presentedFrame_built _ _ _ hq hn, State.writeBytes_eq]
  rfl

/-! The invariant -/

/-- A state with a built frame keeps the invariant. -/
theorem Inv.of_built (s t : State) (q : List Byte) (hi : Inv s) (hq : q.length ≤ 127) (hc : t.cfg = s.cfg)
    (h1 : t.rxck = s.rxck) (h2 : t.txck = ⟨ckRun (ckSeed s.cfg.n) q⟩) (h3 : t.rx = s.rx)
    (h4 : t.tx = builtTx s.cfg.n q) (h5 : t.sc = s.sc) : Inv t where
  cfg := by rw [hc]; exact hi.cfg
  rxck := by rw [hc, h1]; exact hi.rxck
  txck := by rw [hc, h2]; simp
  pbuf := by rw [h3]; exact hi.pbuf
  fbuf := by rw [h4]; exact builtTx_wf _ _ hq hi.cfg.2.1
  rx := by rw [hc, h3]; exact hi.rx
  tx := by rw [h4]; exact builtTx_inv _ _ hq hi.cfg.2.1
  sc := by rw [h5]; exact hi.sc
  comm := by rw [hc, h5]; exact hi.comm

/-- A state that differs in SC's registers, the environment, the port and the records keeps the invariant. -/
theorem Inv.of_sc (s t : State) (hi : Inv s) (hc : t.cfg = s.cfg) (h1 : t.rxck = s.rxck) (h2 : t.txck = s.txck)
    (h3 : t.rx = s.rx) (h4 : t.tx = s.tx) (h5 : t.sc.state ≠ .illegal3) (h6 : t.sc.lastComm < 2 ^ s.cfg.clkW) :
    Inv t where
  cfg := by rw [hc]; exact hi.cfg
  rxck := by rw [hc, h1]; exact hi.rxck
  txck := by rw [hc, h2]; exact hi.txck
  pbuf := by rw [h3]; exact hi.pbuf
  fbuf := by rw [h4]; exact hi.fbuf
  rx := by rw [hc, h3]; exact hi.rx
  tx := by rw [h4]; exact hi.tx
  sc := h5
  comm := by rw [hc]; exact h6

/-- TX_BUILD keeps the invariant and never faults. -/
theorem txBuild_inv (q : List Byte) (s : State) (hi : Inv s) : ∃ r, txBuild q s = .ok r ∧ Inv r.state := by
  by_cases hq : q.length ≤ 127
  · exact ⟨_, txBuild_fits q s hq hi.cfg.2.1, Inv.of_built s _ q hi hq rfl rfl rfl rfl rfl rfl⟩
  · refine ⟨_, txBuild_oversize q s (by omega), ?_⟩
    exact {
      cfg := hi.cfg, rxck := hi.rxck, txck := hi.txck, pbuf := hi.pbuf, fbuf := rfl, rx := hi.rx
      tx := ⟨by simp, by simp [Written], by simp [UnwrittenFrom]⟩
      sc := hi.sc, comm := hi.comm }

end Sys2Proof.Machine
end

