-- ==== Sys2Proof/Laws/Decode.lean ====
section
/-! SUPPORT. The fields of a word read back from the word built of them, and one decode lemma for each layer. -/

namespace Sys2Proof

/-! Fields -/

@[simp] theorem reqSel_reqWord (s : BitVec 1) (o : BitVec 4) (a : Byte) : reqSel (reqWord s o a) = s := by
  unfold reqSel reqWord; ext; simp; grind

@[simp] theorem reqOp_reqWord (s : BitVec 1) (o : BitVec 4) (a : Byte) : reqOp (reqWord s o a) = o := by
  unfold reqOp reqWord; ext; simp; grind

@[simp] theorem reqArg_reqWord (s : BitVec 1) (o : BitVec 4) (a : Byte) : reqArg (reqWord s o a) = a := by
  unfold reqArg reqWord; ext; simp; grind

/-- A request word is made of its three fields. -/
theorem reqWord_fields (w : BitVec 13) : reqWord (reqSel w) (reqOp w) (reqArg w) = w := by
  unfold reqSel reqOp reqArg reqWord; ext; simp; grind

@[simp] theorem RxTag.ofBits_bits (st : RxTag) : RxTag.ofBits st.bits = st := by cases st <;> rfl

@[simp] theorem rxKey_state (st : RxTag) (b : Byte) : (rxKey st b).extractLsb' 8 3 = st.bits := by
  unfold rxKey; ext; simp; grind

@[simp] theorem rxKey_byte (st : RxTag) (b : Byte) : (rxKey st b).extractLsb' 0 8 = b := by
  unfold rxKey; ext; simp; grind

@[simp] theorem CkSel.ofBit_bit (x : CkSel) : CkSel.ofBit x.bit = x := by cases x <;> rfl

@[simp] theorem CkSel.bit_ofBit (v : BitVec 1) : (CkSel.ofBit v).bit = v := by revert v; decide

/-! Bodies -/

/-- The body of R59, assembled again. -/
@[simp] theorem bodyWord_le32 (w : Word32) (rest : List Byte) : bodyWord (le32 w ++ rest) = some w := by
  have : fromLe32 (w.extractLsb' 0 8) (w.extractLsb' 8 8) (w.extractLsb' 16 8) (w.extractLsb' 24 8) = w := by
    unfold fromLe32; ext; simp; grind
  simp [bodyWord, le32, this]

@[simp] theorem le32_fromLe32 (a b c d : Byte) : le32 (fromLe32 a b c d) = [a, b, c, d] := by
  unfold fromLe32 le32
  simp only [List.cons.injEq, and_true]
  refine ⟨?_, ?_, ?_, ?_⟩ <;> (ext; simp; grind)

/-- A body that assembles to a word starts with the word's bytes. -/
theorem bodyWord_eq_some (p : List Byte) (w : Word32) (h : bodyWord p = some w) : p = le32 w ++ p.drop 4 := by
  match p with
  | b0 :: b1 :: b2 :: b3 :: rest => cases h; simp
  | [] | [_] | [_, _] | [_, _, _] => cases h

@[simp] theorem le32_length (w : Word32) : (le32 w).length = 4 := rfl

/-- The modes of R79. -/
theorem isMode_iff (m : Byte) : isMode m = true ↔ m ∈ [0xFF#8, 0x00#8, 0x01#8] := by simp [isMode, or_assoc]

/-! The layers -/

/-- A key decodes to the row that its fields and guards select (R80). -/
@[simp] theorem decodeRxKey_rxKey (st : RxTag) (b : Byte) (last hit rnd : Bool) :
    decodeRxKey (rxKey st b) last hit rnd = (rxRowOf st b last hit rnd).instr st b := by simp [decodeRxKey]

@[simp] theorem commandOf_velocity (w : Word32) (rest : List Byte) :
    commandOf (velocityPayload w ++ rest) = .velocity w := by simp [commandOf, velocityPayload]

@[simp] theorem commandOf_mode (m : Byte) (rest : List Byte) (h : isMode m = true) :
    commandOf (modePayload m ++ rest) = .temperature m := by simp [commandOf, modePayload, h]

/-- A payload read as a velocity starts with the tag and the word's bytes (R81). -/
theorem commandOf_eq_velocity (p : List Byte) (w : Word32) (h : commandOf p = .velocity w) :
    p = velocityPayload w ++ p.drop 5 := by
  cases p with
  | nil => cases h
  | cons t body =>
    simp only [commandOf] at h
    split at h
    · next ht =>
      split at h <;> cases h
      next hb =>
      rw [ht, List.drop_succ_cons, velocityPayload, List.cons_append, ← bodyWord_eq_some body w hb]
    · split at h
      · split at h
        · split at h <;> cases h
        · cases h
      · cases h

/-- A payload read as a mode starts with the tag and a mode of the domain (R81). -/
theorem commandOf_eq_temperature (p : List Byte) (m : Byte) (h : commandOf p = .temperature m) :
    isMode m = true ∧ p = modePayload m ++ p.drop 2 := by
  cases p with
  | nil => cases h
  | cons t body =>
    simp only [commandOf] at h
    split at h
    · split at h <;> cases h
    · split at h
      · next ht =>
        split at h
        · split at h <;> cases h
          next hm => exact ⟨hm, by simp [ht, modePayload]⟩
        · cases h
      · cases h

end Sys2Proof
end

