-- ==== Sys2Proof/Laws/Session.lean ====
section
/-! SUPPORT. The session controller: what a send, a dispatch, a byte of the drain and a tick can change, and that each
keeps the invariant and never faults under it. -/

namespace Sys2Proof.Machine

/-- `t` comes after `s` within one request: configuration, port and reports stand, the trace has grown, and while no
frame has been built the builder's unit stands. -/
structure Later (s t : State) : Prop where
  cfg : t.cfg = s.cfg
  pin : t.pin = s.pin
  queue : t.queue = s.queue
  reports : t.reports = s.reports
  frame : s.builds ≤ t.builds ∧ (t.builds = s.builds → t.tx = s.tx)
  trace : ∃ es, t.trace = s.trace ++ es

theorem Later.refl (s : State) : Later s s := ⟨rfl, rfl, rfl, rfl, ⟨le_rfl, fun _ => rfl⟩, [], by simp⟩

theorem Later.trans {s t u : State} (h : Later s t) (k : Later t u) : Later s u := by
  obtain ⟨es, hes⟩ := h.trace
  obtain ⟨fs, hfs⟩ := k.trace
  exact ⟨k.cfg.trans h.cfg, k.pin.trans h.pin, k.queue.trans h.queue, k.reports.trans h.reports,
    ⟨h.frame.1.trans k.frame.1, fun e =>
      have hb : t.builds = s.builds := le_antisymm (e ▸ k.frame.1) h.frame.1
      (k.frame.2 (e.trans hb.symm)).trans (h.frame.2 hb)⟩,
    es ++ fs, by rw [hfs, hes, List.append_assoc]⟩

/-! Sends -/

theorem txBuild_frame (q : List Byte) (s : State) (r : TxReply) (h : txBuild q s = .ok r) :
    r.state = { s with tx := r.state.tx, txck := r.state.txck, builds := s.builds + 1 } := by
  unfold txBuild at h
  split at h
  · cases h; rfl
  · split at h <;> cases h
    rfl

/-- A send builds one frame, which writes the builder's unit and TXCK, and issues writeByte events alone. -/
theorem sendFrame_frame (q : List Byte) (s t : State) (h : sendFrame q s = .ok t) :
    ∃ bs : List Byte, t = { s with
      tx := t.tx, txck := t.txck, builds := s.builds + 1, trace := s.trace ++ bs.map .writeByte } := by
  unfold sendFrame at h
  split at h
  · cases h
  · next r hr =>
    split at h
    · cases h
    · next bs _ =>
      cases h
      refine ⟨bs, ?_⟩
      rw [State.writeBytes_eq, txBuild_frame q s r hr]

theorem sendFrame_later (q : List Byte) (s t : State) (h : sendFrame q s = .ok t) : Later s t := by
  obtain ⟨bs, hbs⟩ := sendFrame_frame q s t h
  rw [hbs]
  exact ⟨rfl, rfl, rfl, rfl, ⟨Nat.le_succ _, fun e => absurd e (Nat.succ_ne_self _)⟩, _, rfl⟩

/-! Dispatch -/

@[simp] theorem applyIfDiffers_cfg (v : Word32) (s : State) : (applyIfDiffers v s).cfg = s.cfg := by
  unfold applyIfDiffers; split <;> rfl

/-- The actuation step of tag 1 changes SC.last_vel, the environment and the trace alone. -/
theorem applyIfDiffers_frame (v : Word32) (s : State) :
    applyIfDiffers v s = { s with
      sc := s.sc.vel (applyIfDiffers v s).sc.lastVel
      env := (applyIfDiffers v s).env
      trace := (applyIfDiffers v s).trace } := by
  unfold applyIfDiffers; split <;> rfl

theorem applyIfDiffers_later (v : Word32) (s : State) : Later s (applyIfDiffers v s) := by
  unfold applyIfDiffers
  split
  · exact ⟨rfl, rfl, rfl, rfl, ⟨le_rfl, fun _ => rfl⟩, _, rfl⟩
  · exact Later.refl s

@[simp] theorem applyIfDiffers_fifo (v : Word32) (s : State) : (applyIfDiffers v s).env.fifo = s.env.fifo := by
  unfold applyIfDiffers; split <;> simp

theorem refreshComm_later (s : State) : Later s s.refreshComm := ⟨rfl, rfl, rfl, rfl, ⟨le_rfl, fun _ => rfl⟩, _, rfl⟩

/-- What a dispatch leaves alone: the receiver, the session state and the transport input. -/
structure DispatchFrame (s t : State) : Prop where
  later : Later s t
  rx : t.rx = s.rx
  rxck : t.rxck = s.rxck
  state : t.sc.state = s.sc.state
  fifo : t.env.fifo = s.env.fifo

theorem dispatchVelocity_frame (v : Word32) (s t : State) (h : dispatchVelocity v s = .ok t) : DispatchFrame s t := by
  unfold dispatchVelocity at h
  split at h
  · cases h
  · next u hu =>
    cases h
    obtain ⟨bs, hbs⟩ := sendFrame_frame _ _ _ hu
    have ha := applyIfDiffers_frame v s
    refine ⟨(applyIfDiffers_later v s).trans ((sendFrame_later _ _ _ hu).trans (refreshComm_later u)), ?_, ?_, ?_, ?_⟩
    · show u.rx = s.rx
      rw [hbs, ha]
    · show u.rxck = s.rxck
      rw [hbs, ha]
    · show u.sc.state = s.sc.state
      rw [hbs, ha]; rfl
    · simp only [State.refreshComm, State.withSc_env, State.nowMicros_fifo]
      rw [hbs]
      exact applyIfDiffers_fifo v s

theorem dispatchTempMode_frame (m : Byte) (s t : State) (h : dispatchTempMode m s = .ok t) : DispatchFrame s t := by
  unfold dispatchTempMode at h
  split at h
  · cases h
  · next u hu =>
    cases h
    obtain ⟨bs, hbs⟩ := sendFrame_frame _ _ _ hu
    have ha : Later s (applyMode m s) := ⟨rfl, rfl, rfl, rfl, ⟨le_rfl, fun _ => rfl⟩, _, rfl⟩
    refine ⟨ha.trans ((sendFrame_later _ _ _ hu).trans (refreshComm_later u)), ?_, ?_, ?_, ?_⟩
    · show u.rx = s.rx
      rw [hbs]; rfl
    · show u.rxck = s.rxck
      rw [hbs]; rfl
    · show u.sc.state = s.sc.state
      rw [hbs]; rfl
    · simp only [State.refreshComm, State.withSc_env, State.nowMicros_fifo]
      rw [hbs]; rfl

theorem dispatch_frame (p : List Byte) (s t : State) (h : dispatch p s = .ok t) : DispatchFrame s t := by
  unfold dispatch at h
  split at h
  · exact dispatchVelocity_frame _ _ _ h
  · exact dispatchTempMode_frame _ _ _ h
  · cases h
    exact ⟨Later.refl s, rfl, rfl, rfl, rfl⟩

/-- A send keeps the invariant and never faults. -/
theorem sendFrame_inv (q : List Byte) (s : State) (hq : q.length ≤ 127) (hi : Inv s) :
    ∃ t, sendFrame q s = .ok t ∧ Inv t :=
  ⟨_, sendFrame_fits q s hq hi.cfg.2.1, Inv.of_built s _ q hi hq rfl rfl rfl rfl rfl rfl⟩

theorem refreshComm_inv (s : State) (hi : Inv s) : Inv s.refreshComm :=
  Inv.of_sc s _ hi rfl rfl rfl rfl rfl hi.sc s.nowMicros_lt

theorem applyIfDiffers_inv (v : Word32) (s : State) (hi : Inv s) : Inv (applyIfDiffers v s) := by
  unfold applyIfDiffers
  split
  · exact Inv.of_sc s _ hi rfl rfl rfl rfl rfl hi.sc hi.comm
  · exact hi

@[simp] theorem velocityPayload_length (w : Word32) : (velocityPayload w).length = 5 := rfl

@[simp] theorem modePayload_length (m : Byte) : (modePayload m).length = 2 := rfl

@[simp] theorem handshakePayload_length (f : Byte) : (handshakePayload f).length = 2 := rfl

/-- A dispatch of tag 1 keeps the invariant and never faults. -/
theorem dispatchVelocity_inv (v : Word32) (s : State) (hi : Inv s) : ∃ t, dispatchVelocity v s = .ok t ∧ Inv t := by
  obtain ⟨u, hu, hui⟩ := sendFrame_inv (velocityPayload (applyIfDiffers v s).sc.lastVel) (applyIfDiffers v s)
    (by simp) (applyIfDiffers_inv v s hi)
  exact ⟨u.refreshComm, by simp [dispatchVelocity, hu], refreshComm_inv u hui⟩

/-- A dispatch of tag 2 keeps the invariant and never faults. -/
theorem dispatchTempMode_inv (m : Byte) (s : State) (hi : Inv s) : ∃ t, dispatchTempMode m s = .ok t ∧ Inv t := by
  have ha : Inv (applyMode m s) := Inv.of_sc s _ hi rfl rfl rfl rfl rfl hi.sc hi.comm
  obtain ⟨u, hu, hui⟩ := sendFrame_inv (modePayload m) (applyMode m s) (by simp) ha
  exact ⟨u.refreshComm, by simp [dispatchTempMode, hu], refreshComm_inv u hui⟩

/-- A dispatch keeps the invariant and never faults. -/
theorem dispatch_inv (p : List Byte) (s : State) (hi : Inv s) : ∃ t, dispatch p s = .ok t ∧ Inv t := by
  unfold dispatch
  split
  · exact dispatchVelocity_inv _ s hi
  · exact dispatchTempMode_inv _ s hi
  · exact ⟨s, rfl, hi⟩

/-! The drain -/

theorem takeDraw_inv (s : State) (hi : Inv s) : Inv s.takeDraw.2 :=
  Inv.of_sc s _ hi rfl rfl rfl rfl rfl hi.sc hi.comm

theorem readByte_inv (b : Byte) (s : State) (hi : Inv s) : Inv (s.readByte b) :=
  Inv.of_sc s _ hi rfl rfl rfl rfl rfl hi.sc hi.comm

/-- One byte of step (b) keeps the invariant and never faults. -/
theorem drainByte_inv (b : Byte) (s : State) (hi : Inv s) : ∃ t, drainByte b s = .ok t ∧ Inv t := by
  have hr := takeDraw_inv _ (readByte_inv b s hi)
  obtain ⟨r, h⟩ := rxAccept_ok b (s.readByte b).takeDraw.1 _ hr
  have hri := rxAccept_inv b _ _ r hr h
  unfold drainByte
  rw [h]
  cases ho : r.out with
  | none => exact ⟨r.state, by simp [ho], hri⟩
  | some p =>
    obtain ⟨t, ht, hti⟩ := dispatch_inv p r.state hri
    exact ⟨t, by simp [ho, ht], hti⟩

/-- The drain keeps the invariant and never faults. -/
theorem drain_inv (bs : List Byte) (s : State) (hi : Inv s) : ∃ t, drain bs s = .ok t ∧ Inv t := by
  induction bs generalizing s with
  | nil => exact ⟨s, rfl, hi⟩
  | cons b bs ih =>
    obtain ⟨u, hu, hui⟩ := drainByte_inv b s hi
    obtain ⟨t, ht, hti⟩ := ih u hui
    exact ⟨t, by simp [drain, hu, ht], hti⟩

/-- What one byte of step (b) leaves alone: the session state; it takes one byte out of the transport input. -/
theorem drainByte_frame (b : Byte) (s t : State) (h : drainByte b s = .ok t) :
    Later s t ∧ t.sc.state = s.sc.state ∧ t.env.fifo = s.env.fifo.drop 1 := by
  unfold drainByte at h
  split at h
  · cases h
  · next r hr =>
    have hf := rxAccept_frame _ _ _ _ hr
    have h1 : Later s r.state := by
      rw [hf]; exact ⟨rfl, rfl, rfl, rfl, ⟨le_rfl, fun _ => rfl⟩, _, rfl⟩
    have h2 : r.state.sc.state = s.sc.state := by rw [hf]; rfl
    have h3 : r.state.env.fifo = s.env.fifo.drop 1 := by rw [hf]; simp
    split at h
    · cases h
      exact ⟨h1, h2, h3⟩
    · next p _ =>
      have hd := dispatch_frame p _ _ h
      exact ⟨h1.trans hd.later, hd.state.trans h2, hd.fifo.trans h3⟩

/-- The drain leaves the session state alone and takes its bytes out of the transport input (R51, R176). -/
theorem drain_frame (bs : List Byte) (s t : State) (h : drain bs s = .ok t) :
    Later s t ∧ t.sc.state = s.sc.state ∧ t.env.fifo = s.env.fifo.drop bs.length := by
  induction bs generalizing s with
  | nil => cases h; exact ⟨Later.refl _, rfl, by simp⟩
  | cons b bs ih =>
    unfold drain at h
    split at h
    · cases h
    · next u hu =>
      obtain ⟨h1, h2, h3⟩ := drainByte_frame b s u hu
      obtain ⟨k1, k2, k3⟩ := ih u h
      refine ⟨h1.trans k1, k2.trans h2, ?_⟩
      rw [k3, h3, List.drop_drop, List.length_cons, Nat.add_comm]

/-! The tick -/

/-- The end of a timed-out tick changes SC's registers, the environment and the trace alone. -/
theorem enterTerminal_frame (s : State) :
    enterTerminal s = { s with
      sc := { s.sc with lastVel := 0#32, lastTemp := 0#8, state := .terminal }
      env := (s.applyVelocity 0#32).2.env
      trace := s.trace ++ [.applyVelocity 0#32 (s.applyVelocity 0#32).1, .applyTemperatureMode 0] } := by
  have : s.trace ++ [Event.applyVelocity 0#32 (s.applyVelocity 0#32).1, .applyTemperatureMode 0] =
      (s.trace ++ [.applyVelocity 0#32 (s.applyVelocity 0#32).1]) ++ [.applyTemperatureMode 0] := by simp
  rw [this]
  rfl

theorem enterTerminal_later (s : State) : Later s (enterTerminal s) := by
  rw [enterTerminal_frame]
  exact ⟨rfl, rfl, rfl, rfl, ⟨le_rfl, fun _ => rfl⟩, _, rfl⟩

theorem nowMicros_later (s : State) : Later s s.nowMicros.2 := ⟨rfl, rfl, rfl, rfl, ⟨le_rfl, fun _ => rfl⟩, _, rfl⟩

theorem bytesAvailable_later (s : State) : Later s s.bytesAvailable.2 := ⟨rfl, rfl, rfl, rfl, ⟨le_rfl, fun _ => rfl⟩, _, rfl⟩

theorem withSc_later (s : State) (c : ScUnit) : Later s (s.withSc c) := ⟨rfl, rfl, rfl, rfl, ⟨le_rfl, fun _ => rfl⟩, [], by simp⟩

theorem livenessCheck_state (s : State) :
    (livenessCheck s).state =
      if s.cfg.timeoutUs < s.elapsed s.nowMicros.1 then enterTerminal s.nowMicros.2 else s.nowMicros.2 := by
  unfold livenessCheck
  by_cases h : s.cfg.timeoutUs < s.elapsed s.nowMicros.1
  · rw [if_pos h, if_pos h]
  · rw [if_neg h, if_neg h]

theorem livenessCheck_later (s : State) : Later s (livenessCheck s).state := by
  rw [livenessCheck_state]
  split
  · exact (nowMicros_later s).trans (enterTerminal_later _)
  · exact nowMicros_later s

theorem nowMicros_inv (s : State) (hi : Inv s) : Inv s.nowMicros.2 :=
  Inv.of_sc s _ hi rfl rfl rfl rfl rfl hi.sc hi.comm

theorem enterTerminal_inv (s : State) (hi : Inv s) : Inv (enterTerminal s) := by
  rw [enterTerminal_frame]
  exact Inv.of_sc s _ hi rfl rfl rfl rfl rfl (by simp) hi.comm

theorem livenessCheck_inv (s : State) (hi : Inv s) : Inv (livenessCheck s).state := by
  rw [livenessCheck_state]
  split
  · exact enterTerminal_inv _ (nowMicros_inv s hi)
  · exact nowMicros_inv s hi

theorem afcCheck_state (s : State) :
    (afcCheck s).state =
      if 0 < s.bytesAvailable.1 then
        s.bytesAvailable.2.refreshComm.withSc (s.bytesAvailable.2.refreshComm.sc.goto .active)
      else s.bytesAvailable.2 := by
  unfold afcCheck
  by_cases h : 0 < s.bytesAvailable.1
  · rw [if_pos h, if_pos h]
  · rw [if_neg h, if_neg h]

theorem afcCheck_later (s : State) : Later s (afcCheck s).state := by
  rw [afcCheck_state]
  split
  · exact (bytesAvailable_later s).trans ((refreshComm_later _).trans (withSc_later _ _))
  · exact bytesAvailable_later s

theorem bytesAvailable_inv (s : State) (hi : Inv s) : Inv s.bytesAvailable.2 :=
  Inv.of_sc s _ hi rfl rfl rfl rfl rfl hi.sc hi.comm

theorem afcCheck_inv (s : State) (hi : Inv s) : Inv (afcCheck s).state := by
  rw [afcCheck_state]
  split
  · have h := refreshComm_inv _ (bytesAvailable_inv s hi)
    exact Inv.of_sc _ _ h rfl rfl rfl rfl rfl (by simp [ScUnit.goto]) h.comm
  · exact bytesAvailable_inv s hi

/-- Every tick only adds to the records within its request. -/
theorem scTick_later (s : State) (r : ScReply) (h : scTick s = .ok r) : Later s r.state := by
  unfold scTick at h
  split at h
  · unfold tickAfc at h
    split at h
    · cases h
    · next u hu =>
      cases h
      exact (sendFrame_later _ _ _ hu).trans
        (Later.trans (t := u.delay) ⟨rfl, rfl, rfl, rfl, ⟨le_rfl, fun _ => rfl⟩, _, rfl⟩ (afcCheck_later _))
  · unfold tickActive at h
    split at h
    · cases h
    · next u hu =>
      cases h
      refine Later.trans (t := s.tickActuation.bytesAvailable.2) ?_
        ((drain_frame _ _ _ hu).1.trans (livenessCheck_later u))
      exact ⟨rfl, rfl, rfl, rfl, ⟨le_rfl, fun _ => rfl⟩, [.tickActuation, .bytesAvailable s.tickActuation.bytesAvailable.1], by simp⟩
  · cases h; exact Later.refl s
  · cases h; exact ⟨rfl, rfl, rfl, rfl, ⟨le_rfl, fun _ => rfl⟩, [], by simp⟩

/-- A tick keeps the invariant and never faults. -/
theorem scTick_inv (s : State) (hi : Inv s) : ∃ r, scTick s = .ok r ∧ Inv r.state := by
  unfold scTick
  split
  · obtain ⟨u, hu, hui⟩ := sendFrame_inv (handshakePayload s.cfg.flag) s (by simp) hi
    refine ⟨afcCheck u.delay, by simp [tickAfc, hu], afcCheck_inv _ ?_⟩
    exact Inv.of_sc u _ hui rfl rfl rfl rfl rfl hui.sc hui.comm
  · have hb : Inv s.tickActuation.bytesAvailable.2 := Inv.of_sc s _ hi rfl rfl rfl rfl rfl hi.sc hi.comm
    obtain ⟨u, hu, hui⟩ := drain_inv (s.env.fifo.take s.tickActuation.bytesAvailable.1) _ hb
    exact ⟨livenessCheck u, by simp [tickActive, hu], livenessCheck_inv u hui⟩
  · exact ⟨_, rfl, hi⟩
  · next h => exact absurd h hi.sc

end Sys2Proof.Machine
end

