-- ==== Sys2Proof/Laws/Run.lean ====
section
/-! SUPPORT. Runs of operations: bytes through a cascade (R84's CK.RUN) and through the receiver (RX.FEED). -/

namespace Sys2Proof.Machine

theorem runInstrs_cons (i : Instr) (is : List Instr) (s t : State) (h : exec i s = .next t) :
    runInstrs (i :: is) s = runInstrs is t := by simp [runInstrs, h]

theorem runInstrs_append (is js : List Instr) (s t : State) (h : runInstrs is s = .next t) :
    runInstrs (is ++ js) s = runInstrs js t := by
  induction is generalizing s with
  | nil => cases h; rfl
  | cons i is ih =>
    simp only [List.cons_append, runInstrs] at h ⊢
    split at h
    · next u hu => simp [ih u h]
    · cases h
    · cases h

theorem feed_append (as bs : List Byte) (s t : State) (h : feed as s = .next t) :
    feed (as ++ bs) s = feed bs t := by
  unfold feed at h ⊢
  rw [List.map_append, runInstrs_append _ _ _ _ h]

/-! The cascade -/

/-- `ck_init` seeds (R101). -/
theorem isSeed_ckSeed (n : Nat) : IsSeed n (ckSeed n) := ⟨by simp, fun c h => ckSeed_getElem? n c h⟩

/-- `ck_update` adds level by level (R102). -/
theorem ckUpdated_ckAdd (acc : List Byte) (b : Byte) : CkUpdated acc b (ckAdd acc b) := by
  refine ⟨by simp, fun a h => by simp [ckAdd_getElem?_zero, h], fun c a h => ?_⟩
  have hc : c < (ckAdd acc b).length := by
    have := (List.getElem?_eq_some_iff.1 h).1
    simp; omega
  exact ⟨(ckAdd acc b)[c], by simp, ckAdd_getElem?_succ acc b c a _ h (by simp)⟩

/-- The state after `k + 1` CK operations on `x`, whose accumulators are `acc`. -/
def ckRan (s : State) (x : CkSel) (acc : List Byte) (k : Nat) : State :=
  { s.withCk x ⟨acc⟩ with reports := s.reports ++ List.replicate (k + 1) ⟨.ok, .none⟩ }

@[simp] theorem ckRan_ck (s : State) (x : CkSel) (acc : List Byte) (k : Nat) : (ckRan s x acc k).ck x = ⟨acc⟩ := by
  cases x <;> rfl

theorem exec_ckUpdate_ckRan (s : State) (x : CkSel) (acc : List Byte) (k : Nat) (b : Byte) :
    exec (.ckUpdate x b) (ckRan s x acc k) = .next (ckRan s x (ckAdd acc b) (k + 1)) := by
  have h : s.reports ++ List.replicate (k + 1 + 1) (Report.mk .ok .none) =
      (s.reports ++ List.replicate (k + 1) ⟨.ok, .none⟩) ++ [⟨.ok, .none⟩] := by
    rw [List.replicate_succ' (n := k + 1), List.append_assoc]
  rw [ckRan, ckRan, h]
  cases x <;> rfl

/-- CK_INIT and the updates of a sequence: the selected cascade holds `ckRun` of it, the rest stays. -/
theorem ckRunInstrs_eq (x : CkSel) (bs : List Byte) (s : State) :
    ckRunInstrs x bs s = .next (ckRan s x (ckRun (ckSeed s.cfg.n) bs) bs.length) := by
  have key : ∀ (bs : List Byte) (acc : List Byte) (k : Nat),
      runInstrs (bs.map (.ckUpdate x)) (ckRan s x acc k) = .next (ckRan s x (ckRun acc bs) (k + bs.length)) := by
    intro bs
    induction bs with
    | nil => intro acc k; rfl
    | cons b bs ih =>
      intro acc k
      rw [List.map_cons, runInstrs_cons _ _ _ _ (exec_ckUpdate_ckRan s x acc k b), ih, ckRun_cons, List.length_cons]
      congr 2; omega
  have h0 : exec (.ckInit x) s = .next (ckRan s x (ckSeed s.cfg.n) 0) := by cases x <;> rfl
  rw [ckRunInstrs, runInstrs_cons _ _ _ _ h0, key, Nat.zero_add]

end Sys2Proof.Machine
end

