-- ==== Sys2Proof/Laws/Drain.lean ====
section
/-! SUPPORT. Step (b) of an ACTIVE tick in the terms of exec: a byte of the drain is RX_ACCEPT and, at once, the
instruction that a completed payload decodes to. -/

namespace Sys2Proof.Machine

/-! A payload as an instruction -/

/-- The instruction that a payload decodes to is its dispatch (R81). -/
theorem exec_decodeCommand (p : List Byte) (s : State) : exec (decodeCommand p) s = ofExcept (dispatch p s) := by
  unfold decodeCommand dispatch
  cases h : commandOf p with
  | velocity v => rfl
  | temperature m => exact if_pos (commandOf_eq_temperature p m h).1
  | ignored => exact if_pos h

theorem ofExcept_eq_next (x : Except Fault State) (t : State) : ofExcept x = .next t ↔ x = .ok t := by
  cases x <;> simp [ofExcept]

/-- R180 names the rows of R81 that are no ignored payload. -/
theorem isDispatched_iff (p : List Byte) : isDispatched p = true ↔ commandOf p ≠ .ignored := by
  match p with
  | [] => simp [isDispatched, commandOf]
  | tag :: body =>
    by_cases h1 : tag = 0x01#8
    · subst h1
      match body with
      | [] | [_] | [_, _] | [_, _, _] => simp [isDispatched, commandOf, bodyWord]
      | a :: b :: c :: d :: e => simp [isDispatched, commandOf, bodyWord]
    · by_cases h2 : tag = 0x02#8
      · subst h2
        match body with
        | [] => simp [isDispatched, commandOf]
        | m :: r => simp [isDispatched, commandOf, isMode]; tauto
      · simp [isDispatched, commandOf, h1, h2]

/-! One byte and a run of bytes -/

/-- A byte of the drain is what DrainedByte says of it. -/
theorem drainedByte_iff (b : Byte) (s t : State) : drainByte b s = .ok t ↔ ∃ p, DrainedByte b s t p := by
  have hexec : exec (.rxAccept b) { s with
      env := { s.env with fifo := s.env.fifo.drop 1 }, trace := s.trace ++ [.readByte b] } =
      rxFinish (rxAccept b (s.readByte b).takeDraw.1 (s.readByte b).takeDraw.2) := rfl
  unfold DrainedByte drainByte
  rw [hexec]
  cases hr : rxAccept b (s.readByte b).takeDraw.1 (s.readByte b).takeDraw.2 with
  | error f => simp [rxFinish]
  | ok r =>
    have hrep : r.state.reports = s.reports := by rw [rxAccept_frame _ _ _ _ hr]; rfl
    obtain ⟨w, resp, out⟩ := r
    have hback (o : Output) : { w.respond resp o with reports := s.reports } = w := by
      rw [← show w.reports = s.reports from hrep]; rfl
    cases out with
    | none =>
      constructor
      · intro h
        cases h
        exact ⟨none, _, ⟨resp, .none⟩, rfl, congrArg (· ++ _) hrep, rfl, (hback .none).symm⟩
      · rintro ⟨p, u, q, hu, hq, hm⟩
        cases hu
        obtain ⟨-, rfl⟩ : s.reports = w.reports ∧ q = ⟨resp, .none⟩ := by simpa [payloadOutput] using hq.symm
        exact congrArg Except.ok ((hback .none).symm.trans hm.2.symm)
    | some p =>
      constructor
      · intro h
        refine ⟨some p, _, ⟨resp, .bytes p⟩, rfl, congrArg (· ++ _) hrep, rfl, ?_⟩
        rw [exec_decodeCommand, ofExcept_eq_next]
        exact (congrArg (dispatch p) (hback (.bytes p))).trans h
      · rintro ⟨p', u, q, hu, hq, hm⟩
        cases hu
        obtain ⟨-, rfl⟩ : s.reports = w.reports ∧ q = ⟨resp, .bytes p⟩ := by simpa [payloadOutput] using hq.symm
        have h := hm.2
        rw [exec_decodeCommand, ofExcept_eq_next] at h
        exact (congrArg (dispatch p) (hback (.bytes p))).symm.trans h

/-- The drain is what Drained says of it. -/
theorem drained_of_drain (bs : List Byte) (s t : State) (h : drain bs s = .ok t) : ∃ ps, Drained bs s ps t := by
  induction bs generalizing s with
  | nil => cases h; exact ⟨[], rfl, rfl⟩
  | cons b bs ih =>
    unfold drain at h
    split at h
    · cases h
    · next u hu =>
      obtain ⟨p, hp⟩ := (drainedByte_iff b s u).1 hu
      obtain ⟨ps, hps⟩ := ih u h
      exact ⟨_, u, p, ps, hp, hps, rfl⟩

end Sys2Proof.Machine
end

