-- ==== Sys2Proof/Laws/PerInstr.lean ====
section
/-! SUPPORT. Statements about every instruction as syntax, one lemma for each constructor. -/

namespace Sys2Proof.Laws

/-- The sizes of R71, R9 and R183: a request's operation code is below 8, a received payload has 1 to 127 bytes, a sent
payload 2 or 5. -/
def EncodingFits.Fits : Encoded → Prop
  | .request w => (reqOp w).toNat < 8
  | .rxByte _ _ _ _ => True
  | .command p => 1 ≤ p.length ∧ p.length ≤ 127
  | .sent p => p.length = 2 ∨ p.length = 5

/-- The encoding of a well-formed instruction has a size that its layer admits. -/
def EncodingFits.Statement (i : Instr) : Prop := i.wf = true → EncodingFits.Fits (encode i)

theorem EncodingFits.nop : EncodingFits.Statement .nop := fun _ => by simp [encode, EncodingFits.Fits]

theorem EncodingFits.ckInit (x : CkSel) : EncodingFits.Statement (.ckInit x) := fun _ => by
  simp [encode, EncodingFits.Fits]

theorem EncodingFits.ckUpdate (x : CkSel) (b : Byte) : EncodingFits.Statement (.ckUpdate x b) := fun _ => by
  simp [encode, EncodingFits.Fits]

theorem EncodingFits.ckFinal (x : CkSel) : EncodingFits.Statement (.ckFinal x) := fun _ => by
  simp [encode, EncodingFits.Fits]

theorem EncodingFits.rxAccept (b : Byte) : EncodingFits.Statement (.rxAccept b) := fun _ => by
  simp [encode, EncodingFits.Fits]

theorem EncodingFits.txBuild : EncodingFits.Statement .txBuild := fun _ => by simp [encode, EncodingFits.Fits]

theorem EncodingFits.scTick : EncodingFits.Statement .scTick := fun _ => by simp [encode, EncodingFits.Fits]

theorem EncodingFits.reset : EncodingFits.Statement .reset := fun _ => by simp [encode, EncodingFits.Fits]

theorem EncodingFits.rxSync : EncodingFits.Statement .rxSync := fun _ => trivial

theorem EncodingFits.rxIgnored (b : Byte) : EncodingFits.Statement (.rxIgnored b) := fun _ => trivial

theorem EncodingFits.rxLenBadZero : EncodingFits.Statement .rxLenBadZero := fun _ => trivial

theorem EncodingFits.rxLenOk (b : Byte) : EncodingFits.Statement (.rxLenOk b) := fun _ => trivial

theorem EncodingFits.rxLenBadNeg (b : Byte) : EncodingFits.Statement (.rxLenBadNeg b) := fun _ => trivial

theorem EncodingFits.rxPayload (b : Byte) : EncodingFits.Statement (.rxPayload b) := fun _ => trivial

theorem EncodingFits.rxPayloadLast (b : Byte) : EncodingFits.Statement (.rxPayloadLast b) := fun _ => trivial

theorem EncodingFits.rxCkMatch (b : Byte) : EncodingFits.Statement (.rxCkMatch b) := fun _ => trivial

theorem EncodingFits.rxDone (b : Byte) : EncodingFits.Statement (.rxDone b) := fun _ => trivial

theorem EncodingFits.rxCkMismatch (b : Byte) : EncodingFits.Statement (.rxCkMismatch b) := fun _ => trivial

theorem EncodingFits.rxResync : EncodingFits.Statement .rxResync := fun _ => trivial

theorem EncodingFits.rxResyncReject : EncodingFits.Statement .rxResyncReject := fun _ => trivial

theorem EncodingFits.rxFailedNoise (b : Byte) : EncodingFits.Statement (.rxFailedNoise b) := fun _ => trivial

theorem EncodingFits.rxIllegalStateSync (st : RxTag) : EncodingFits.Statement (.rxIllegalStateSync st) :=
  fun _ => trivial

theorem EncodingFits.rxIllegalState (st : RxTag) (b : Byte) : EncodingFits.Statement (.rxIllegalState st b) :=
  fun _ => trivial

theorem EncodingFits.cmdVelocity (v : Word32) (rest : List Byte) : EncodingFits.Statement (.cmdVelocity v rest) := by
  intro h
  simp only [Instr.wf, decide_eq_true_eq] at h
  simp only [encode, EncodingFits.Fits, velocityPayload, List.length_append, List.length_cons, le32_length]
  omega

theorem EncodingFits.cmdTempMode (m : Byte) (rest : List Byte) : EncodingFits.Statement (.cmdTempMode m rest) := by
  intro h
  simp only [Instr.wf, Bool.and_eq_true, decide_eq_true_eq] at h
  simp only [encode, EncodingFits.Fits, modePayload, List.length_append, List.length_cons, List.length_nil]
  omega

theorem EncodingFits.cmdIgnored (p : List Byte) : EncodingFits.Statement (.cmdIgnored p) := by
  intro h
  simp only [Instr.wf, Bool.and_eq_true, decide_eq_true_eq] at h
  exact h.1

theorem EncodingFits.txHandshake (f : Byte) : EncodingFits.Statement (.txHandshake f) := fun _ => .inl rfl

theorem EncodingFits.txVelocityEcho (w : Word32) : EncodingFits.Statement (.txVelocityEcho w) := fun _ => .inr rfl

theorem EncodingFits.txTempModeEcho (m : Byte) : EncodingFits.Statement (.txTempModeEcho m) := fun _ => .inl rfl

end Sys2Proof.Laws
end

