-- ==== Sys2Proof/Laws/Relation.lean ====
section
/-! SUPPORT. No operation reads what the run has observed so far or the requests behind: each commutes with putting a
history before a state and another queue behind it. This is what makes a step the relation of R21. -/

namespace Sys2Proof.Machine

/-- The state with this queue, and with these builds, events and reports before its own. -/
def State.after (s : State) (q : List Stimulus) (n : Nat) (es : List Event) (rs : List Report) : State :=
  { s with queue := q, builds := n + s.builds, trace := es ++ s.trace, reports := rs ++ s.reports }

/-- A state of an outcome, with a history before it. -/
def outcomeAfter (q : List Stimulus) (n : Nat) (es : List Event) (rs : List Report) :
    Host.Outcome State Fault Refusal → Host.Outcome State Fault Refusal
  | .next t => .next (t.after q n es rs)
  | .fault f => .fault f
  | .refused f => .refused f

variable (q : List Stimulus) (n : Nat) (es : List Event) (rs : List Report)

@[simp] theorem State.after_toRecord (s : State) : (s.after q n es rs).toRecord = s.toRecord := rfl
@[simp] theorem State.after_cfg (s : State) : (s.after q n es rs).cfg = s.cfg := rfl
@[simp] theorem State.after_env (s : State) : (s.after q n es rs).env = s.env := rfl

theorem State.emit_after (s : State) (e : Event) : (s.after q n es rs).emit e = (s.emit e).after q n es rs := by
  simp [State.after, State.emit]

theorem State.respond_after (s : State) (r : Response) (o : Output) :
    (s.after q n es rs).respond r o = (s.respond r o).after q n es rs := by
  simp [State.after, State.respond]

theorem State.readByte_after (s : State) (b : Byte) : (s.after q n es rs).readByte b = (s.readByte b).after q n es rs :=
  State.emit_after q n es rs (s.withEnv _) _

theorem State.bytesAvailable_after (s : State) :
    (s.after q n es rs).bytesAvailable = (s.bytesAvailable.1, s.bytesAvailable.2.after q n es rs) :=
  Prod.ext rfl (State.emit_after q n es rs (s.withEnv _) _)

theorem State.nowMicros_after (s : State) :
    (s.after q n es rs).nowMicros = (s.nowMicros.1, s.nowMicros.2.after q n es rs) :=
  Prod.ext rfl (State.emit_after q n es rs (s.withEnv _) _)

theorem State.applyVelocity_after (s : State) (v : Word32) :
    (s.after q n es rs).applyVelocity v = ((s.applyVelocity v).1, (s.applyVelocity v).2.after q n es rs) :=
  Prod.ext rfl (State.emit_after q n es rs (s.withEnv _) _)

theorem State.writeBytes_after (s : State) (bs : List Byte) :
    (s.after q n es rs).writeBytes bs = (s.writeBytes bs).after q n es rs := by
  simp [State.writeBytes_eq, State.after]

/-! The units -/

/-- The reply of an RX_ACCEPT, with a history before its state. -/
def RxReply.after (r : RxReply) : RxReply := { r with state := r.state.after q n es rs }

theorem rxRun_after (row : RxRow) (b : Byte) (s : State) :
    rxRun row b (s.after q n es rs) = (rxRun row b s).map (RxReply.after q n es rs) := by
  cases row <;> try rfl
  case payload | payloadLast =>
    simp only [rxRun, rxStore, State.after_toRecord]
    by_cases h : s.rx.cnt.toNat < maxLen <;> simp only [h, if_true, if_false] <;> rfl
  case done =>
    simp only [rxRun, rxActDone, State.after_toRecord]
    split <;> rfl

theorem rxSelect_after (b : Byte) (rnd : Bool) (s : State) : (s.after q n es rs).rxSelect b rnd = s.rxSelect b rnd := rfl

theorem rxAccept_after (b : Byte) (rnd : Bool) (s : State) :
    rxAccept b rnd (s.after q n es rs) = (rxAccept b rnd s).map (RxReply.after q n es rs) := by
  unfold rxAccept
  rw [rxSelect_after]
  cases s.rxSelect b rnd with
  | error f => rfl
  | ok row => exact rxRun_after q n es rs row b s

theorem rxFinish_after (r : Except Fault RxReply) :
    rxFinish (r.map (RxReply.after q n es rs)) = outcomeAfter q n es rs (rxFinish r) := by
  cases r with
  | error f => rfl
  | ok r => exact congrArg Host.Outcome.next (State.respond_after q n es rs r.state r.resp _)

theorem rxRowExec_after (row : RxRow) (b : Byte) (s : State) :
    rxRowExec row b (s.after q n es rs) = outcomeAfter q n es rs (rxRowExec row b s) := by
  have h : (s.after q n es rs).takeDraw = (s.takeDraw.1, s.takeDraw.2.after q n es rs) := rfl
  unfold rxRowExec
  rw [h]
  simp only [rxSelect_after]
  cases s.takeDraw.2.rxSelect b s.takeDraw.1 with
  | error f => rfl
  | ok r =>
    simp only
    split
    · rw [rxRun_after, rxFinish_after]
    · rfl

/-- The reply of a TX_BUILD, with a history before its state. -/
def TxReply.after (r : TxReply) : TxReply := { r with state := r.state.after q n es rs }

theorem txBuild_after (p : List Byte) (s : State) :
    txBuild p (s.after q n es rs) = (txBuild p s).map (TxReply.after q n es rs) := by
  simp only [txBuild, State.after_cfg]
  by_cases h : maxLen < p.length <;> by_cases h' : frameCap < (frameOf s.cfg.n p).length <;>
    simp only [h, h', if_true, if_false] <;> rfl

theorem sendFrame_after (p : List Byte) (s : State) :
    sendFrame p (s.after q n es rs) = (sendFrame p s).map fun t => t.after q n es rs := by
  unfold sendFrame
  rw [txBuild_after]
  cases txBuild p s with
  | error f => rfl
  | ok r =>
    have : (r.state.after q n es rs).presentedFrame = r.state.presentedFrame := rfl
    simp only [Except.map, TxReply.after, this]
    cases r.state.presentedFrame with
    | error f => rfl
    | ok bs => simp only [State.writeBytes_after]

theorem refreshComm_after (s : State) : (s.after q n es rs).refreshComm = s.refreshComm.after q n es rs := by
  simp only [State.refreshComm, State.nowMicros_after]
  rfl

theorem applyIfDiffers_after (v : Word32) (s : State) :
    applyIfDiffers v (s.after q n es rs) = (applyIfDiffers v s).after q n es rs := by
  simp only [applyIfDiffers, State.applyVelocity_after, State.after_toRecord]
  split <;> rfl

theorem applyMode_after (m : Byte) (s : State) : applyMode m (s.after q n es rs) = (applyMode m s).after q n es rs :=
  congrArg (State.withSc · _) (State.emit_after q n es rs s _)

theorem dispatchVelocity_after (v : Word32) (s : State) :
    dispatchVelocity v (s.after q n es rs) = (dispatchVelocity v s).map fun t => t.after q n es rs := by
  unfold dispatchVelocity
  simp only [applyIfDiffers_after, sendFrame_after, State.after_toRecord]
  cases sendFrame (velocityPayload (applyIfDiffers v s).sc.lastVel) (applyIfDiffers v s) with
  | error f => rfl
  | ok u => simp [Except.map, refreshComm_after]

theorem dispatchTempMode_after (m : Byte) (s : State) :
    dispatchTempMode m (s.after q n es rs) = (dispatchTempMode m s).map fun t => t.after q n es rs := by
  unfold dispatchTempMode
  simp only [applyMode_after, sendFrame_after]
  cases sendFrame (modePayload m) (applyMode m s) with
  | error f => rfl
  | ok u => simp [Except.map, refreshComm_after]

theorem dispatch_after (p : List Byte) (s : State) :
    dispatch p (s.after q n es rs) = (dispatch p s).map fun t => t.after q n es rs := by
  unfold dispatch
  split
  · exact dispatchVelocity_after q n es rs _ s
  · exact dispatchTempMode_after q n es rs _ s
  · rfl

theorem drainByte_after (b : Byte) (s : State) :
    drainByte b (s.after q n es rs) = (drainByte b s).map fun t => t.after q n es rs := by
  have h : ((s.after q n es rs).readByte b).takeDraw = ((s.readByte b).takeDraw.1, (s.readByte b).takeDraw.2.after q n es rs) := by
    rw [State.readByte_after]; rfl
  unfold drainByte
  rw [h]
  simp only [rxAccept_after]
  cases rxAccept b (s.readByte b).takeDraw.1 (s.readByte b).takeDraw.2 with
  | error f => rfl
  | ok r =>
    simp only [Except.map, RxReply.after]
    cases r.out with
    | none => rfl
    | some p => exact dispatch_after q n es rs p r.state

theorem drain_after (bs : List Byte) (s : State) :
    drain bs (s.after q n es rs) = (drain bs s).map fun t => t.after q n es rs := by
  induction bs generalizing s with
  | nil => rfl
  | cons b bs ih =>
    unfold drain
    rw [drainByte_after]
    cases drainByte b s with
    | error f => rfl
    | ok u => exact ih u

/-- The reply of a tick, with a history before its state. -/
def ScReply.after (r : ScReply) : ScReply := { r with state := r.state.after q n es rs }

theorem livenessCheck_after (s : State) : livenessCheck (s.after q n es rs) = (livenessCheck s).after q n es rs := by
  have he (t : State) : enterTerminal (t.after q n es rs) = (enterTerminal t).after q n es rs := by
    simp only [enterTerminal_frame, State.applyVelocity_after]
    simp [State.after]
  have hl (t : Nat) : (s.after q n es rs).elapsed t = s.elapsed t := rfl
  simp only [livenessCheck, State.nowMicros_after, he, hl, State.after_cfg]
  split <;> rfl

theorem afcCheck_after (s : State) : afcCheck (s.after q n es rs) = (afcCheck s).after q n es rs := by
  simp only [afcCheck, State.bytesAvailable_after, refreshComm_after]
  split <;> rfl

theorem scTick_after (s : State) : scTick (s.after q n es rs) = (scTick s).map (ScReply.after q n es rs) := by
  unfold scTick
  simp only [State.after_toRecord]
  split
  · unfold tickAfc
    rw [State.after_cfg, sendFrame_after]
    cases sendFrame (handshakePayload s.cfg.flag) s with
    | error f => rfl
    | ok u =>
      have h : (u.after q n es rs).delay = u.delay.after q n es rs := State.emit_after q n es rs u _
      simp only [Except.map, h, afcCheck_after]
  · unfold tickActive
    have h : (s.after q n es rs).tickActuation = s.tickActuation.after q n es rs := State.emit_after q n es rs s _
    rw [h, State.bytesAvailable_after, State.after_env, drain_after]
    cases drain (s.env.fifo.take s.tickActuation.bytesAvailable.1) s.tickActuation.bytesAvailable.2 with
    | error f => rfl
    | ok u => simp only [Except.map, livenessCheck_after]
  · rfl
  · rfl

theorem ofExcept_after (x : Except Fault State) :
    ofExcept (x.map fun t => t.after q n es rs) = outcomeAfter q n es rs (ofExcept x) := by
  cases x <;> rfl

/-- An operation answers alike with any history before it and any requests behind it. -/
theorem exec_after (i : Instr) (s : State) : exec i (s.after q n es rs) = outcomeAfter q n es rs (exec i s) := by
  have hr (t : State) (r : Response) (o : Output) :
      Host.Outcome.next ((t.after q n es rs).respond r o) = outcomeAfter q n es rs (.next (t.respond r o)) :=
    congrArg Host.Outcome.next (State.respond_after q n es rs t r o)
  cases i
  case nop => exact hr s _ _
  case ckInit x => cases x <;> [exact hr (s.ckInit .rx) .ok .none; exact hr (s.ckInit .tx) .ok .none]
  case ckUpdate x b => cases x <;> [exact hr (s.ckUpdate .rx b) .ok .none; exact hr (s.ckUpdate .tx b) .ok .none]
  case ckFinal x => cases x <;> exact hr s _ _
  case reset => exact hr s.coreReset .ok .none
  case rxAccept b =>
    show rxFinish (rxAccept b s.takeDraw.1 (s.takeDraw.2.after q n es rs)) = _
    rw [rxAccept_after, rxFinish_after]
    rfl
  case txBuild =>
    show execTxBuild _ = outcomeAfter q n es rs (execTxBuild s)
    have h : (s.after q n es rs).pin = s.pin := rfl
    unfold execTxBuild
    rw [h, txBuild_after]
    cases txBuild s.pin s with
    | error f => rfl
    | ok r => exact hr r.state _ _
  case scTick =>
    show execScTick _ = outcomeAfter q n es rs (execScTick s)
    unfold execScTick
    rw [scTick_after]
    cases scTick s with
    | error f => rfl
    | ok r =>
      have h : (r.state.after q n es rs).trace.drop (s.after q n es rs).trace.length = r.state.trace.drop s.trace.length := by
        simp [State.after]
      simp only [Except.map, ScReply.after, h]
      exact hr r.state _ _
  case rxSync | rxLenBadZero | rxResync | rxResyncReject => exact rxRowExec_after q n es rs _ _ s
  case rxIgnored b | rxLenOk b | rxLenBadNeg b | rxPayload b | rxPayloadLast b | rxCkMatch b | rxDone b | rxCkMismatch b
    | rxFailedNoise b => exact rxRowExec_after q n es rs _ b s
  case rxIllegalStateSync st =>
    show (if s.rx.state = st then _ else _) = outcomeAfter q n es rs (if s.rx.state = st then _ else _)
    split
    · exact rxRowExec_after q n es rs _ _ s
    · rfl
  case rxIllegalState st b =>
    show (if s.rx.state = st then _ else _) = outcomeAfter q n es rs (if s.rx.state = st then _ else _)
    split
    · exact rxRowExec_after q n es rs _ b s
    · rfl
  case cmdVelocity v rest =>
    show ofExcept _ = outcomeAfter q n es rs (ofExcept _)
    rw [dispatchVelocity_after, ofExcept_after]
  case cmdTempMode m rest =>
    show (if isMode m then _ else _) = outcomeAfter q n es rs (if isMode m then _ else _)
    split
    · rw [dispatchTempMode_after, ofExcept_after]
    · rfl
  case cmdIgnored p =>
    show (if commandOf p = .ignored then _ else _) = outcomeAfter q n es rs (if commandOf p = .ignored then _ else _)
    split <;> rfl
  case txHandshake f =>
    show (if f = s.cfg.flag then _ else _) = outcomeAfter q n es rs (if f = s.cfg.flag then _ else _)
    split
    · rw [sendFrame_after, ofExcept_after]
    · rfl
  case txVelocityEcho w =>
    show (if w = s.sc.lastVel then _ else _) = outcomeAfter q n es rs (if w = s.sc.lastVel then _ else _)
    split
    · rw [sendFrame_after, ofExcept_after]
    · rfl
  case txTempModeEcho m =>
    show (if isMode m then _ else _) = outcomeAfter q n es rs (if isMode m then _ else _)
    split
    · rw [sendFrame_after, ofExcept_after]
    · rfl

end Sys2Proof.Machine
end

