-- ==== Sys2Proof/Tests/Slice0.lean ====
section
/-! SUPPORT. The model's own tests: ill-formed terms, words written out from the spec's tables, vectors of
spec/95_test_vectors.md in one step each, and a witness of the hypotheses of each statement. -/

namespace Sys2Proof.Tests

open Sys2Proof Sys2Proof.Machine

/-! ## Helpers -/

/-- The configuration of spec/95_test_vectors.md with a delay of 7, and order `n`. -/
def cfgOf (n : Nat) : Config := ⟨n, 3, 4, 20000000, 32, 0x01#8, 7, 16⟩

/-- The reset state of that configuration. -/
def base (n : Nat) : State := State.resetWith (cfgOf n)

/-- A receiver in a state, with a counter, a length, a buffer and a checksum vector. -/
def rxAt (t : RxTag) (cnt len : Byte) (buf acc : List Byte) : State :=
  { base 2 with
    rx := { state := t, cnt := cnt, len := len, pbuf := Memory.writeSeq [] 0 buf, pvalid := false }
    rxck := ⟨acc⟩ }

/-- The state with this payload on the payload-in port. -/
def pinned (n : Nat) (p : List Byte) : State := (base n).withPin p

/-- A session in ACTIVE with the time of last communication, the transport input and the answers to come. -/
def activeAt (lc : Nat) (fifo : List Byte) (counts readings : List Nat) (vs : List Word32) : State :=
  { base 2 with
    sc := { state := .active, lastComm := lc, lastVel := 0#32, lastTemp := 0#8 }
    env := { fifo := fifo, counts := counts, readings := readings, velocities := vs, draws := [], drawn := 0 } }

/-- What a test looks at in the state after an instruction. -/
def seen {α : Type} (f : State → α) : Host.Outcome State Fault Refusal → Option α
  | .next t => some (f t)
  | .fault _ => none
  | .refused _ => none

/-- The last response and output. -/
def said (t : State) : Option Report := t.reports.getLast?

/-- The receiver's tag, counter, length and validity, with RXCK. -/
def rxView (t : State) : RxTag × Byte × Byte × Bool × List Byte :=
  (t.rx.state, t.rx.cnt, t.rx.len, t.rx.pvalid, t.rxck.acc)

/-- The scenario payload (V-L1-1): tag 1, 1.0. -/
def scenario : List Byte := [0x01, 0x00, 0x00, 0x80, 0x3F]

/-- The scenario frame (V-L1-1). -/
def scenarioFrame : List Byte := [0x0A, 0x05, 0x01, 0x00, 0x00, 0x80, 0x3F, 0xC1, 0x49]

/-! ## Ill-formed terms -/

theorem test_wf_ignored : (Instr.rxIgnored 0x0A).wf = false := by decide
theorem test_wf_lenOk_zero : (Instr.rxLenOk 0x00).wf = false := by decide
theorem test_wf_lenOk_negative : (Instr.rxLenOk 0x80).wf = false := by decide
theorem test_wf_lenBadNeg : (Instr.rxLenBadNeg 0x7F).wf = false := by decide
theorem test_wf_failedNoise : (Instr.rxFailedNoise 0x0A).wf = false := by decide
theorem test_wf_illegalStateSync : (Instr.rxIllegalStateSync .failed).wf = false := by decide
theorem test_wf_illegalState_tag : (Instr.rxIllegalState .waitSync 0x33).wf = false := by decide
theorem test_wf_illegalState_byte : (Instr.rxIllegalState .illegal5 0x0A).wf = false := by decide
theorem test_wf_velocity_long : (Instr.cmdVelocity 0 (List.replicate 123 0)).wf = false := by simp [Instr.wf]
theorem test_wf_mode_domain : (Instr.cmdTempMode 0x05 []).wf = false := by decide
theorem test_wf_mode_long : (Instr.cmdTempMode 0x00 (List.replicate 126 0)).wf = false := by simp [Instr.wf]
theorem test_wf_ignored_empty : (Instr.cmdIgnored []).wf = false := by decide
theorem test_wf_ignored_long : (Instr.cmdIgnored (List.replicate 128 0)).wf = false := by simp [Instr.wf]
theorem test_wf_ignored_taken : (Instr.cmdIgnored [0x02, 0xFF]).wf = false := by decide
theorem test_wf_echo_domain : (Instr.txTempModeEcho 0x02).wf = false := by decide

/-! ## Words written out from the tables -/

/-- R71: sel, op and arg. -/
theorem test_decode_requests :
    decodeRequest (0b0#1 ++ 0x0#4 ++ 0x00#8) = .ok .nop ∧ decodeRequest (0b1#1 ++ 0x1#4 ++ 0x00#8) = .ok (.ckInit .tx) ∧
    decodeRequest (0b0#1 ++ 0x2#4 ++ 0xFF#8) = .ok (.ckUpdate .rx 0xFF) ∧
    decodeRequest (0b1#1 ++ 0x3#4 ++ 0x00#8) = .ok (.ckFinal .tx) ∧
    decodeRequest (0b0#1 ++ 0x4#4 ++ 0x0A#8) = .ok (.rxAccept 0x0A) ∧
    decodeRequest (0b0#1 ++ 0x5#4 ++ 0x00#8) = .ok .txBuild ∧ decodeRequest (0b0#1 ++ 0x6#4 ++ 0x00#8) = .ok .scTick ∧
    decodeRequest (0b0#1 ++ 0x7#4 ++ 0x00#8) = .ok .reset := by decide

/-- R72, V-CT-2 to V-CT-8. -/
theorem test_decode_illegal :
    decodeRequest 0x0001#13 = .error (.argNotZero 0) ∧ decodeRequest 0x1000#13 = .error (.selNotZero 0) ∧
    decodeRequest 0x0800#13 = .error (.reservedOp 8) ∧ decodeRequest 0x1FFF#13 = .error (.reservedOp 15) ∧
    decodeRequest 0x140A#13 = .error (.selNotZero 4) ∧ decodeRequest 0x0501#13 = .error (.argNotZero 5) ∧
    decodeRequest 0x0601#13 = .error (.argNotZero 6) := by decide

/-- R80, rows 1 to 7: state, byte, and the guard c + 1 = L. -/
theorem test_decode_keys_before_checksum :
    decodeRxKey (0b000#3 ++ 0x0A#8) false false false = .rxSync ∧
    decodeRxKey (0b000#3 ++ 0x55#8) false false false = .rxIgnored 0x55 ∧
    decodeRxKey (0b001#3 ++ 0x00#8) false false false = .rxLenBadZero ∧
    decodeRxKey (0b001#3 ++ 0x01#8) false false false = .rxLenOk 0x01 ∧
    decodeRxKey (0b001#3 ++ 0x7F#8) false false false = .rxLenOk 0x7F ∧
    decodeRxKey (0b001#3 ++ 0x80#8) false false false = .rxLenBadNeg 0x80 ∧
    decodeRxKey (0b010#3 ++ 0x0A#8) false false false = .rxPayload 0x0A ∧
    decodeRxKey (0b010#3 ++ 0x0A#8) true false false = .rxPayloadLast 0x0A := by decide

/-- R80, rows 8 to 15: state, byte, and the guards i + 1 = N, byte = acc[i] and rnd. -/
theorem test_decode_keys_from_checksum :
    decodeRxKey (0b011#3 ++ 0xC1#8) false true false = .rxCkMatch 0xC1 ∧
    decodeRxKey (0b011#3 ++ 0x49#8) true true false = .rxDone 0x49 ∧
    decodeRxKey (0b011#3 ++ 0xC0#8) true false false = .rxCkMismatch 0xC0 ∧
    decodeRxKey (0b100#3 ++ 0x0A#8) false false true = .rxResync ∧
    decodeRxKey (0b100#3 ++ 0x0A#8) false false false = .rxResyncReject ∧
    decodeRxKey (0b100#3 ++ 0x33#8) false false true = .rxFailedNoise 0x33 ∧
    decodeRxKey (0b101#3 ++ 0x0A#8) false false false = .rxIllegalStateSync .illegal5 ∧
    decodeRxKey (0b111#3 ++ 0x33#8) false false false = .rxIllegalState .illegal7 0x33 := by decide

/-- R77 to R79, R81: 1.0 is 0x3F800000 (R59). -/
theorem test_decode_payloads :
    decodeCommand scenario = .cmdVelocity 0x3F800000 [] ∧ decodeCommand [0x02, 0xFF, 0x00] = .cmdTempMode 0xFF [0x00] ∧
    decodeCommand [0x01, 0x00, 0x00] = .cmdIgnored [0x01, 0x00, 0x00] ∧
    decodeCommand [0x00, 0x01] = .cmdIgnored [0x00, 0x01] ∧ decodeSent [0x00, 0x01] = .ok (.txHandshake 0x01) ∧
    decodeSent scenario = .ok (.txVelocityEcho 0x3F800000) ∧ decodeSent [0x02, 0x01] = .ok (.txTempModeEcho 0x01) ∧
    decodeSent [0x02, 0x05] = .error .notSent := by decide

/-- The host's reading of a table word: a request word, or the tag byte of a payload (log entry 9). -/
theorem test_decode_table_words :
    decodeTableWord 16 0x0600 = some .scTick ∧ decodeTableWord 16 0x0800 = none ∧
    decodeTableWord 8 0x01 = some (.cmdVelocity 0 []) ∧ decodeTableWord 8 0x02 = some (.cmdTempMode 0 [0, 0, 0]) ∧
    decodeTableWord 8 0x00 = some (.cmdIgnored [0, 0, 0, 0, 0]) := by decide

/-! ## Instructions -/

/-- V-CT-1. -/
theorem test_nop : exec .nop (base 2) = .next ((base 2).respond .ok .none) := rfl

/-- R101's example. -/
theorem test_ckInit :
    seen (·.rxck.acc) (exec (.ckInit .rx) { base 3 with rxck := ⟨[0x55, 0x66, 0x77]⟩ }) = some [0x01, 0x00, 0x00] := by
  decide

/-- R102's example, and a level that wraps. -/
theorem test_ckUpdate :
    seen (·.txck.acc) (exec (.ckUpdate .tx 0x3F) { base 2 with txck := ⟨[0x82, 0x88]⟩ }) = some [0xC1, 0x49] := by
  decide

/-- V-L1-1, N = 3, step 4: each level adds the level below as already updated. -/
theorem test_ckUpdate_order :
    seen (·.rxck.acc) (exec (.ckUpdate .rx 0x80) { base 3 with rxck := ⟨[0x02, 0x06, 0x0C]⟩ }) =
      some [0x82, 0x88, 0x94] := by decide

/-- R103. -/
theorem test_ckFinal :
    seen said (exec (.ckFinal .tx) { base 2 with txck := ⟨[0xC1, 0x49]⟩ }) =
      some (some ⟨.ok, .bytes [0xC1, 0x49]⟩) := by decide

/-- R121's example. -/
theorem test_rxSync : seen rxView (exec .rxSync (base 2)) = some (.readLength, 0, 0, false, [0x01, 0x00]) := by decide

/-- R121's example. -/
theorem test_rxIgnored :
    seen rxView (exec (.rxIgnored 0x55) (base 2)) = some (.waitSync, 0, 0, false, [0x01, 0x00]) ∧
    seen said (exec (.rxIgnored 0x55) (base 2)) = some (some ⟨.ignored, .none⟩) := by decide

/-- V-RX-2. -/
theorem test_rxLenBadZero :
    seen rxView (exec .rxLenBadZero (rxAt .readLength 0 0 [] [0x01, 0x00])) =
      some (.failed, 0, 0, false, [0x01, 0x00]) := by decide

/-- V-RX-6: the largest length. -/
theorem test_rxLenOk :
    seen rxView (exec (.rxLenOk 0x7F) (rxAt .readLength 0 3 [1, 2, 3] [0x55, 0x66])) =
      some (.readPayload, 0, 0x7F, false, [0x01, 0x00]) := by decide

/-- V-RX-4: length −128. -/
theorem test_rxLenBadNeg :
    seen said (exec (.rxLenBadNeg 0x80) (rxAt .readLength 0 0 [] [0x01, 0x00])) = some (some ⟨.lenBad, .none⟩) := by
  decide

/-- V-L1-1, step 4 of the payload. -/
theorem test_rxPayload :
    seen rxView (exec (.rxPayload 0x80) (rxAt .readPayload 3 5 [0x01, 0x00, 0x00] [0x02, 0x06])) =
      some (.readPayload, 4, 5, false, [0x82, 0x88]) ∧
    seen (Memory.read ·.rx.pbuf 3) (exec (.rxPayload 0x80) (rxAt .readPayload 3 5 [0x01, 0x00, 0x00] [0x02, 0x06])) =
      some (some 0x80) := by decide

/-- R124's example: the magic byte is data. -/
theorem test_rxPayloadLast :
    seen rxView (exec (.rxPayloadLast 0x0A) (rxAt .readPayload 0 1 [] [0x01, 0x00])) =
      some (.readChecksum, 1, 1, false, [0x0B, 0x0B]) ∧
    seen (Memory.read ·.rx.pbuf 0) (exec (.rxPayloadLast 0x0A) (rxAt .readPayload 0 1 [] [0x01, 0x00])) =
      some (some 0x0A) := by decide

/-- R125's example. -/
theorem test_rxCkMatch :
    seen rxView (exec (.rxCkMatch 0xC1) (rxAt .readChecksum 5 5 scenario [0xC1, 0x49])) =
      some (.readChecksum, 6, 5, false, [0xC1, 0x49]) := by decide

/-- R126's example: cnt is left at len + N − 1. -/
theorem test_rxDone :
    seen rxView (exec (.rxDone 0x49) (rxAt .readChecksum 6 5 scenario [0xC1, 0x49])) =
      some (.waitSync, 6, 5, true, [0xC1, 0x49]) ∧
    seen said (exec (.rxDone 0x49) (rxAt .readChecksum 6 5 scenario [0xC1, 0x49])) =
      some (some ⟨.done, .bytes scenario⟩) := by decide

/-- R127's example. -/
theorem test_rxCkMismatch :
    seen rxView (exec (.rxCkMismatch 0xC0) (rxAt .readChecksum 5 5 scenario [0xC1, 0x49])) =
      some (.failed, 5, 5, false, [0xC1, 0x49]) ∧
    seen said (exec (.rxCkMismatch 0xC0) (rxAt .readChecksum 5 5 scenario [0xC1, 0x49])) =
      some (some ⟨.ckMismatch, .none⟩) := by decide

/-- A receiver in FAILED with the next draw given. -/
def failedWith (d : Bool) : State :=
  { rxAt .failed 3 5 [] [0x01, 0x00] with env := { (base 2).env with draws := [d] } }

/-- R128's example: draw 1. -/
theorem test_rxResync :
    seen (fun t => (t.rx.state, t.rx.cnt, said t)) (exec .rxResync (failedWith true)) =
      some (.readLength, 0, some ⟨.resync, .none⟩) := by decide

/-- R128's example: draw 0. -/
theorem test_rxResyncReject :
    seen (fun t => (t.rx.state, t.rx.cnt, said t)) (exec .rxResyncReject (failedWith false)) =
      some (.failed, 3, some ⟨.resyncReject, .none⟩) := by decide

/-- R128: any other byte, whatever the draw. -/
theorem test_rxFailedNoise :
    seen (fun t => (t.rx.state, said t)) (exec (.rxFailedNoise 0x49) (failedWith true)) =
      some (.failed, some ⟨.failedNoise, .none⟩) := by decide

/-- V-RX-13. -/
theorem test_rxIllegalStateSync :
    seen (fun t => (t.rx.state, said t)) (exec (.rxIllegalStateSync .illegal5) (rxAt .illegal5 0 0 [] [0x01, 0x00])) =
      some (.readLength, some ⟨.rxIllegalStateSync, .none⟩) := by decide

/-- V-RX-14. -/
theorem test_rxIllegalState :
    seen (fun t => (t.rx.state, said t)) (exec (.rxIllegalState .illegal6 0x33) (rxAt .illegal6 0 0 [] [0x01, 0x00])) =
      some (.waitSync, some ⟨.rxIllegalState, .none⟩) := by decide

/-- R133: the byte that causes CK_MISMATCH is not a resync candidate. -/
theorem test_rxAccept_mismatch_consumed :
    seen (·.rx.state)
        (exec (.rxAccept 0x0A)
          { rxAt .readChecksum 5 5 scenario [0xC1, 0x49] with env := { (base 2).env with draws := [true] } }) =
      some .failed := by decide

/-- V-RX-5: the magic byte is the length 10. -/
theorem test_rxAccept_length_ten :
    seen rxView (exec (.rxAccept 0x0A) (rxAt .readLength 0 0 [] [0x01, 0x00])) =
      some (.readPayload, 0, 10, false, [0x01, 0x00]) := by decide

/-- V-TX-3, N = 3. -/
theorem test_txBuild :
    seen (fun t => (said t, t.tx.flen, t.txck.acc)) (exec .txBuild (pinned 3 scenario)) =
      some (some ⟨.ok, .bytes [0x0A, 0x05, 0x01, 0x00, 0x00, 0x80, 0x3F, 0xC1, 0x49, 0xDD]⟩, 10, [0xC1, 0x49, 0xDD]) := by
  decide

/-- V-TX-5: TXCK as before. -/
theorem test_txBuild_oversize :
    seen (fun t => (said t, t.tx.flen, t.txck.acc))
        (exec .txBuild { pinned 2 (List.replicate 128 0) with txck := ⟨[0x0B, 0x0B]⟩ }) =
      some (some ⟨.oversize, .bytes []⟩, 0, [0x0B, 0x0B]) := by decide +kernel

/-- V-CT-9: RESET out of TERMINAL, the transport input unchanged. -/
theorem test_reset :
    seen (fun t => (t.sc, t.rx, t.tx, t.env.fifo))
        (exec .reset { activeAt 9 [0x55] [] [] [] with sc := { state := .terminal, lastComm := 9, lastVel := 1, lastTemp := 1 } }) =
      some ({ state := .afc, lastComm := 0, lastVel := 0, lastTemp := 0 },
        { state := .waitSync, cnt := 0, len := 0, pbuf := [], pvalid := false }, { fbuf := [], flen := 0 }, [0x55]) := by
  decide

/-- V-SC-2: contact, the bytes stay in the transport. -/
theorem test_scTick_contact :
    seen (fun t => (t.sc.state, t.sc.lastComm, t.env.fifo, t.trace))
        (exec .scTick { activeAt 0 scenarioFrame [9] [1000] [] with sc := (base 2).sc }) =
      some (.active, 1000, scenarioFrame,
        [.writeByte 0x0A, .writeByte 0x02, .writeByte 0x00, .writeByte 0x01, .writeByte 0x02, .writeByte 0x03,
          .delay 7, .bytesAvailable 9, .nowMicros 1000]) := by decide

/-- V-SC-3: a velocity message is applied, echoed, and refreshes last_comm. -/
theorem test_scTick_velocity :
    seen (fun t => (t.sc, t.sent, (said t).map Report.resp))
        (exec .scTick (activeAt 1000 scenarioFrame [9] [2000, 2010] [0x3F800000])) =
      some ({ state := .active, lastComm := 2000, lastVel := 0x3F800000, lastTemp := 0 }, scenarioFrame,
        some .activeOk) := by decide

/-- V-SC-5: the echo carries the corrected value, 1.0 for 2.5. -/
theorem test_cmdVelocity_corrected :
    seen (fun t => (t.sc.lastVel, t.sc.lastComm, t.sent)) (exec (.cmdVelocity 0x40200000 []) (activeAt 0 [] [] [4000] [0x3F800000])) =
      some (0x3F800000, 4000, scenarioFrame) := by decide

/-- V-SC-12: −0.0 does not differ from +0.0. -/
theorem test_cmdVelocity_minus_zero :
    seen (fun t => (t.sc.lastVel, t.sent, t.env.velocities))
        (exec (.cmdVelocity 0x80000000 []) (activeAt 0 [] [] [10] [0x11111111])) =
      some (0x00000000, [0x0A, 0x05, 0x01, 0x00, 0x00, 0x00, 0x00, 0x02, 0x0A], [0x11111111]) := by decide

/-- V-SC-6: the event carries −1, and the echo is V-TX-14. -/
theorem test_cmdTempMode :
    seen (fun t => (t.sc.lastTemp, t.sc.lastComm, t.sent, t.trace.head?))
        (exec (.cmdTempMode 0xFF []) (activeAt 0 [] [] [5000] [])) =
      some (0xFF, 5000, [0x0A, 0x02, 0x02, 0xFF, 0x02, 0x05], some (.applyTemperatureMode (-1))) := by decide

/-- V-SC-7: an inbound handshake. -/
theorem test_cmdIgnored : exec (.cmdIgnored [0x00, 0x01]) (base 2) = .next (base 2) := rfl

/-- V-TX-11. -/
theorem test_txHandshake :
    seen State.sent (exec (.txHandshake 0x01) (base 2)) = some [0x0A, 0x02, 0x00, 0x01, 0x02, 0x03] := by decide

/-- V-TX-17. -/
theorem test_txVelocityEcho :
    seen State.sent (exec (.txVelocityEcho 0) (base 2)) = some [0x0A, 0x05, 0x01, 0x00, 0x00, 0x00, 0x00, 0x02, 0x0A] := by
  decide

/-- V-TX-16. -/
theorem test_txTempModeEcho :
    seen State.sent (exec (.txTempModeEcho 0x01) (base 2)) = some [0x0A, 0x02, 0x02, 0x01, 0x04, 0x07] := by decide

/-- V-SC-16: elapsed across the wrap is 20,000,001, which times out. -/
theorem test_liveness_wrap :
    (livenessCheck (activeAt 0xFFFFFF00 [] [] [0x01312C01] [0])).resp = .timeout := by decide

/-- V-SC-14: elapsed = T exactly does not time out. -/
theorem test_liveness_exact : (livenessCheck (activeAt 1000 [] [] [20001000] [])).resp = .activeOk := by decide

/-- A step takes the request word that is placed for it, from reset. -/
theorem test_withFetchWord_request :
    seen (fun t => (t.queue, said t)) (step (State.reset.withFetchWord 16 0x0300)) =
      some ([], some ⟨.ok, .bytes [0x01, 0x00]⟩) := by decide

/-- A step dispatches the payload that is placed for it: mode 0, whose echo is V-TX-15. From reset, whose OPEN
parameters nothing evaluates, it answers a next state. -/
theorem test_withFetchWord_command :
    seen (fun t => (t.env.fifo, t.sent)) (step ((activeAt 0 [] [] [5, 6] []).withFetchWord 8 0x02)) =
      some ([], [0x0A, 0x02, 0x02, 0x00, 0x03, 0x06]) ∧
    seen (fun _ => true) (step (State.reset.withFetchWord 8 0x02)) = some true := by decide

/-! ## Witnesses: each statement's hypotheses are met together -/

theorem cfgOf_legal (n : Nat) (h1 : 1 ≤ n) (h2 : n ≤ 127) : (cfgOf n).Legal := by
  simp [cfgOf, Config.Legal, h1, h2]

/-- A reset receiver with a payload of one byte in its buffer meets the invariant in the states where one may stand. -/
def holding (t : RxTag) : State :=
  { base 2 with rx := { state := t, cnt := 0, len := 1, pbuf := [(0, 0x55)], pvalid := true } }

theorem inv_holding (t : RxTag) (h : t = .waitSync ∨ t = .readLength ∨ t = .failed) : Inv (holding t) where
  cfg := cfgOf_legal 2 (by decide) (by decide)
  rxck := rfl
  txck := rfl
  pbuf := rfl
  fbuf := rfl
  rx := by
    rcases h with rfl | rfl | rfl <;> constructor <;> simp [holding, RxTag.isIllegal] <;>
      exact fun j hj => by obtain rfl : j = 0 := by omega
                           rfl
  tx := ⟨by simp [holding, base, State.resetWith, Record.reset], by simp [holding, base, State.resetWith, Record.reset, Written],
    by simp [holding, base, State.resetWith, Record.reset, UnwrittenFrom]⟩
  sc := by simp [holding, base, State.resetWith, Record.reset]
  comm := by simp [holding, base, State.resetWith, Record.reset]

theorem inv_base : Inv (base 2) :=
  let h := inv_holding .waitSync (.inl rfl)
  Inv.of_frame _ _ h rfl rfl rfl rfl rfl rfl (by constructor <;> simp [base, State.resetWith, Record.reset, RxTag.isIllegal])

theorem inv_active (lc : Nat) (h : lc < 2 ^ 32) (fifo : List Byte) (cs rs : List Nat) (vs : List Word32) :
    Inv (activeAt lc fifo cs rs vs) :=
  Inv.of_sc (base 2) _ inv_base rfl rfl rfl rfl rfl (by simp [activeAt]) h

theorem witness_DecodeEncodeRoundTrip :
    (Instr.rxLenOk 0x01).wf = true ∧ (Instr.rxLenOk 0x7F).wf = true ∧ (Instr.rxLenBadNeg 0x80).wf = true ∧
    (Instr.cmdVelocity 0x3F800000 [0x55]).wf = true ∧ (Instr.cmdTempMode 0xFF []).wf = true ∧
    (Instr.cmdIgnored [0x02]).wf = true ∧ (Instr.rxIllegalState .illegal7 0x33).wf = true := by decide

theorem witness_EncodeDecodeRoundTrip :
    decodeRequest 0x12FF#13 = .ok (.ckUpdate .tx 0xFF) ∧ 1 ≤ [0x01#8].length ∧ (List.replicate 127 0x01#8).length ≤ 127 ∧
    decodeSent [0x02, 0xFF] = .ok (.txTempModeEcho 0xFF) ∧ decodeSent scenario = .ok (.txVelocityEcho 0x3F800000) :=
  ⟨by decide, by decide, by simp, by decide, by decide⟩

/-- A state with this stimulus waiting. -/
def asked (x : Stimulus) : State := (base 2).withQueue [x]

theorem witness_StepRunsDecodedInstruction :
    (asked (.request 0x0600 [])).queue = [.request 0x0600 []] ∧ decodeRequest 0x0600#13 = .ok .scTick := by decide

theorem witness_StepWithoutInstruction :
    (asked (.request 0x0800 [])).queue = [.request 0x0800 []] ∧ decodeRequest 0x0800#13 = .error (.reservedOp 8) ∧
    (base 2).queue = [] := by decide

theorem witness_ResponsesStayInCodeSpace : Instr.scTick.responses ≠ [] ∧ ∃ t, exec .scTick (base 2) = .next t :=
  ⟨by decide, _, rfl⟩

theorem witness_ResetSetsEveryElement : (asked .resetInput).queue = [.resetInput] := rfl

theorem witness_CkInit_CkUpdate : CkSel.tx ≠ .rx ∧ CkSel.rx ≠ .tx := by decide

theorem witness_CascadeHasClosedForm : 1 ≤ [0xFF#8].length ∧ 0 < (base 2).cfg.n ∧ 126 < (base 127).cfg.n := by decide

theorem witness_SubstitutionAlwaysDetected : 1 ≤ (base 1).cfg.n ∧ 0x00#8 ≠ 0x01#8 := by decide

/-- One order for each clause, and the swaps of distance 1 and 2. -/
theorem witness_SwapDetection :
    (base 1).cfg.n = 1 ∧ 2 ≤ (base 2).cfg.n ∧ 0x01#8 ≠ 0x81#8 ∧ ([] : List Byte) = [] ∧ [0x55#8].length = 1 ∧
    0x81#8 - 0x01#8 = 128#8 := by decide

theorem witness_RxAcceptIsSelectedRow :
    (base 2).rxSelect 0x0A true = .ok .sync ∧
    (rxAt .readChecksum 6 5 scenario [0xC1, 0x49]).rxSelect 0x49 false = .ok .done := by decide

theorem witness_RxRowRefusedUnlessSelected :
    (Instr.rxDone 0x49).rxRowKey = some (.done, .readChecksum, 0x49) ∧
    (∀ d, (rxAt .readChecksum 6 5 scenario [0xC1, 0x49]).rxSelect 0x49 d = .ok .done) ∧
    RxRow.done.instr .readChecksum 0x49 = .rxDone 0x49 ∧
    (∀ d, (base 2).rxSelect 0x49 d = .ok .ignored) ∧ RxRow.ignored.instr .waitSync 0x49 ≠ .rxDone 0x49 := by decide

theorem witness_WaitSyncLooksForMagic : (base 2).rx.state = .waitSync ∧ 0x0B#8 ≠ 0x0A#8 := by decide

theorem witness_LengthAccepted :
    (rxAt .readLength 0 0 [] []).rx.state = .readLength ∧ 1 ≤ (0x01#8).toNat ∧ (0x7F#8).toNat ≤ 127 := by decide

theorem witness_LengthRejected :
    (rxAt .readLength 0 0 [] []).rx.state = .readLength ∧ (0x80#8).toInt < 0 ∧ (0xFF#8).toInt < 0 := by decide

/-- Both clauses at the ends of the range: the first of two bytes, the last of one and the last of 127. -/
theorem witness_PayloadByteStored :
    (rxAt .readPayload 0 2 [] []).rx.state = .readPayload ∧ (rxAt .readPayload 0 2 [] []).rx.cnt.toNat < 127 ∧
    (0x00#8).toNat + 1 < (0x02#8).toNat ∧ (0x00#8).toNat + 1 = (0x01#8).toNat ∧ (0x7E#8).toNat < 127 ∧
    (0x7E#8).toNat + 1 = (0x7F#8).toNat := by decide

/-- A receiver in READ_CHECKSUM after the scenario payload, at checksum index `i`. -/
def checking (i : Byte) : State := rxAt .readChecksum (5 + i) 5 scenario [0xC1, 0x49]

theorem witness_ChecksumByteMatches :
    (checking 0).rx.state = .readChecksum ∧ (checking 0).rx.len.toNat ≤ (checking 0).rx.cnt.toNat ∧
    (checking 0).rxck.acc[(checking 0).rx.cnt.toNat - (checking 0).rx.len.toNat]? = some 0xC1 ∧
    (checking 0).rx.cnt.toNat - (checking 0).rx.len.toNat + 1 ≠ (checking 0).cfg.n := by decide

theorem witness_DoneReturnsPayload :
    (checking 1).rx.state = .readChecksum ∧ (checking 1).rx.len.toNat ≤ (checking 1).rx.cnt.toNat ∧
    (checking 1).rxck.acc[(checking 1).rx.cnt.toNat - (checking 1).rx.len.toNat]? = some 0x49 ∧
    (checking 1).rx.cnt.toNat - (checking 1).rx.len.toNat + 1 = (checking 1).cfg.n ∧
    scenario.length = (checking 1).rx.len.toNat ∧
    ∀ j, j < scenario.length → Memory.read (checking 1).rx.pbuf j = scenario[j]? := by decide

theorem witness_ChecksumMismatchFails :
    (checking 1).rx.state = .readChecksum ∧ (checking 1).rx.len.toNat ≤ (checking 1).rx.cnt.toNat ∧
    (checking 1).rxck.acc[(checking 1).rx.cnt.toNat - (checking 1).rx.len.toNat]? = some 0x49 ∧ 0x48#8 ≠ 0x49#8 := by
  decide

theorem witness_FailedResynchronises :
    (failedWith true).rx.state = .failed ∧ (failedWith true).takeDraw.1 = true ∧
    (failedWith false).takeDraw.1 = false ∧ 0x49#8 ≠ 0x0A#8 := by decide

theorem witness_IllegalRxStateActsAsWaitSync :
    (rxAt .illegal5 0 0 [] []).rx.state ∈ [RxTag.illegal5, .illegal6, .illegal7] ∧ 0x33#8 ≠ 0x0A#8 := by decide

/-- One state for each clause: cnt 127; cnt = len; cnt < len; the vector too short; a payload cell unwritten. -/
theorem witness_OperationsStopOutsideRanges :
    127 ≤ (rxAt .readPayload 127 127 [] []).rx.cnt.toNat ∧
    ((rxAt .readPayload 1 1 [] []).rx.cnt.toNat < 127 ∧
      (rxAt .readPayload 1 1 [] []).rx.len.toNat ≤ (rxAt .readPayload 1 1 [] []).rx.cnt.toNat) ∧
    (rxAt .readChecksum 0 1 [] []).rx.cnt.toNat < (rxAt .readChecksum 0 1 [] []).rx.len.toNat ∧
    (rxAt .readChecksum 3 1 [] [1, 2]).rxck.acc.length ≤ 3 - 1 ∧
    ((rxAt .readChecksum 2 1 [] [1, 2]).rxck.acc[2 - 1]? = some 2#8 ∧
      2 - 1 + 1 = (rxAt .readChecksum 2 1 [] [1, 2]).cfg.n ∧
      ¬∀ j, j < 1 → (Memory.read (rxAt .readChecksum 2 1 [] [1, 2]).rx.pbuf j).isSome) ∧
    ((base 255).pin.length ≤ 127 ∧ 256 < (base 255).pin.length + (base 255).cfg.n + 2) := by decide

theorem witness_RxOperationsFrame :
    (Instr.rxSync.rxRowKey.isSome ∧ ∃ t, exec .rxSync (base 2) = .next t) ∧
    ∃ t, exec (.rxAccept 0x55) (base 2) = .next t := ⟨⟨rfl, _, rfl⟩, _, rfl⟩

/-- Both outcomes: a length byte at each end of the range, and a byte elsewhere. -/
theorem witness_PayloadStaysUntilLengthAccepted :
    Inv (holding .readLength) ∧ (holding .readLength).presentedPayload = .ok [0x55] ∧
    (∃ t, exec (.rxAccept 0x01) (holding .readLength) = .next t) ∧
    (∃ t, exec (.rxAccept 0x7F) (holding .readLength) = .next t) ∧
    (∃ t, exec (.rxAccept 0x00) (holding .readLength) = .next t) ∧ Inv (holding .waitSync) ∧
    (holding .waitSync).presentedPayload = .ok [0x55] ∧ ∃ t, exec (.rxAccept 0x0A) (holding .waitSync) = .next t :=
  ⟨inv_holding _ (.inr (.inl rfl)), rfl, ⟨_, rfl⟩, ⟨_, rfl⟩, ⟨_, rfl⟩, inv_holding _ (.inl rfl), rfl, _, rfl⟩

/-- For BuiltFrameRoundTrips, SingleBitFlipDetected and BuiltFrameIsPresented: a build that gives its frame. -/
theorem witness_built :
    ∃ u, (pinned 2 scenario).cfg.Legal ∧ 1 ≤ (pinned 2 scenario).pin.length ∧ (pinned 2 scenario).pin.length ≤ 127 ∧
      exec .txBuild (pinned 2 scenario) = .next u ∧
      u.reports = (pinned 2 scenario).reports ++ [⟨.ok, .bytes scenarioFrame⟩] :=
  ⟨_, cfgOf_legal 2 (by decide) (by decide), by decide, by decide, rfl, by decide⟩

/-- With `witness_built`: the receiver's side of the round trip. -/
theorem witness_BuiltFrameRoundTrips : (base 2).cfg.n = (pinned 2 scenario).cfg.n ∧ (base 2).rx.state = .waitSync := by
  decide

/-- With `witness_built`: the first and the last offset, the lowest and the highest bit. -/
theorem witness_SingleBitFlipDetected :
    (base 2).cfg.n = (pinned 2 scenario).cfg.n ∧ Inv (base 2) ∧ (base 2).rx.state = .waitSync ∧ 2 ≤ 2 ∧
    8 ≤ scenario.length + 2 + 1 ∧ 0 < 8 ∧ 7 < 8 := ⟨rfl, inv_base, rfl, by decide, by decide, by decide, by decide⟩

/-- Both ends of the orders, and the empty and the longest payload. -/
theorem witness_TxBuildMakesFrame :
    1 ≤ 1 ∧ 127 ≤ 127 ∧ (List.replicate 127 0x00#8).length ≤ 127 ∧ (base 127).cfg.n = 127 ∧
    (pinned 1 []).pin = [] ∧ (pinned 1 []).cfg.n = 1 := by simp [base, pinned, cfgOf, State.resetWith]

theorem witness_TxBuildRejectsOversize : 127 < (pinned 2 (List.replicate 128 0x00#8)).pin.length := by
  simp [pinned]

theorem witness_EmptyPayloadFrameRejected :
    (pinned 1 []).cfg.Legal ∧ (pinned 1 []).pin = [] ∧ (base 2).rx.state = .waitSync :=
  ⟨cfgOf_legal 1 (by decide) (by decide), rfl, rfl⟩

/-- The largest frame's payload and order. -/
theorem witness_LargestFrameFits :
    (pinned 127 (List.replicate 127 0x00#8)).cfg.Legal ∧ (pinned 127 (List.replicate 127 0x00#8)).pin.length = 127 ∧
    (pinned 127 (List.replicate 127 0x00#8)).cfg.n = 127 :=
  ⟨cfgOf_legal 127 (by decide) (by decide), by simp [pinned], rfl⟩

/-- A run that builds and one that does not. -/
theorem witness_FrameStaysUntilNextBuild :
    (∃ t, runInstrs [.nop, .txBuild] (pinned 2 scenario) = .next t) ∧ Instr.txBuild ∈ [Instr.nop, .txBuild] ∧
    (∃ t, runInstrs [.ckUpdate .tx 0x01] { base 2 with tx := { fbuf := [(0, 0x0A)], flen := 1 } } = .next t) ∧
    ∀ i ∈ [Instr.ckUpdate .tx 0x01], i.keepsFrame = true := ⟨⟨_, rfl⟩, by decide, ⟨_, rfl⟩, by decide⟩

/-- R155: after a second build a read meant for the first frame (name 1) faults at index 0, where the second frame
(name 2) has the magic byte; after reset no read gives a byte. -/
theorem test_stale_frame_read :
    seen (fun t => (t.readFrameByte 1 0, t.readFrameByte 2 0))
        (runInstrs [.txBuild, .txBuild] (pinned 2 scenario)) = some (.error .frameInvalid, .ok 0x0A) ∧
    seen (fun t => (t.readFrameByte 1 0, t.readFrameByte 2 0))
        (runInstrs [.txBuild, .reset] (pinned 2 scenario)) = some (.error .frameInvalid, .error .unwrittenRead) := by
  decide

theorem witness_AfcTickWithoutContact :
    (base 2).cfg.Legal ∧ (base 2).sc.state = .afc ∧ (base 2).bytesAvailable.1 = 0 :=
  ⟨cfgOf_legal 2 (by decide) (by decide), rfl, Nat.min_zero _⟩

/-- A session in AFC with one byte in the transport and one count to answer. -/
def contacted : State := { activeAt 0 [0x55] [1] [9] [] with sc := (base 2).sc }

theorem witness_AfcTickFirstContact :
    contacted.cfg.Legal ∧ contacted.sc.state = .afc ∧ 0 < contacted.bytesAvailable.1 :=
  ⟨cfgOf_legal 2 (by decide) (by decide), rfl, by decide⟩

/-- Both sides of the timeout: elapsed is T, and one more. -/
theorem witness_ActiveTickWithoutBytes :
    (activeAt 1000 [] [] [20001000] []).sc.state = .active ∧ (activeAt 1000 [] [] [20001000] []).bytesAvailable.1 = 0 ∧
    ¬(20000000 : Int) < ((20001000 : Int) - 1000) % 2 ^ 32 ∧ (20000000 : Int) < ((20001001 : Int) - 1000) % 2 ^ 32 :=
  ⟨rfl, Nat.min_zero _, by decide, by decide⟩

/-- For ActiveTickOrder, TickEventBound and LivenessWindow: a tick with bytes and one without. -/
theorem witness_active :
    Inv (activeAt 0 scenarioFrame [9] [] []) ∧ (activeAt 0 scenarioFrame [9] [] []).sc.state = .active ∧
    (activeAt 0 scenarioFrame [9] [] []).bytesAvailable.1 = 9 ∧ Inv (activeAt 4294967295 [] [0] [] []) ∧
    (activeAt 4294967295 [] [0] [] []).sc.state = .active ∧ (activeAt 4294967295 [] [0] [] []).bytesAvailable.1 = 0 :=
  ⟨inv_active _ (by decide) _ _ _ _, rfl, by decide, inv_active _ (by decide) _ _ _ _, rfl, by decide⟩

/-- For LivenessWindow: the last checksum byte of the frame of [0x02, 0x00] (order 2: 1 + 2 + 0 = 3, 3 + 3 = 6)
completes a dispatched payload, the last one of [0x03, 0x00] an ignored payload, and a byte in WAIT_SYNC none. -/
theorem witness_DrainedByte :
    (∃ t, DrainedByte 0x06 (rxAt .readChecksum 3 2 [0x02, 0x00] [0x03, 0x06]) t (some [0x02, 0x00])) ∧
    (∃ t, DrainedByte 0x08 (rxAt .readChecksum 3 2 [0x03, 0x00] [0x04, 0x08]) t (some [0x03, 0x00])) ∧
    (∃ t, DrainedByte 0x55 (base 2) t none) ∧ isDispatched [0x02, 0x00] = true ∧ isDispatched [0x03, 0x00] = false :=
  ⟨⟨_, _, _, rfl, rfl, rfl, rfl⟩, ⟨_, _, _, rfl, rfl, rfl, rfl⟩, ⟨_, _, _, rfl, rfl, rfl, rfl⟩, by decide, by decide⟩

theorem witness_TickEventBound_afc : Inv (base 2) ∧ (base 2).sc.state = .afc := ⟨inv_base, rfl⟩

theorem witness_VelocityDispatch :
    (base 2).cfg.Legal ∧ f32Differs 0x00000000 (base 2).sc.lastVel = false ∧
    f32Differs 0x7FC00000 (base 2).sc.lastVel = true ∧
    2010 ∈ (activeAt 1000 [] [] [2010] [0x3F800000]).env.readings.head? ∧
    0x3F800000 ∈ (activeAt 1000 [] [] [2010] [0x3F800000]).env.velocities.head? :=
  ⟨cfgOf_legal 2 (by decide) (by decide), by decide, by decide, by decide, by decide⟩

theorem witness_TemperatureDispatch_SentPayloadsAreFramed :
    (base 2).cfg.Legal ∧ 0xFF#8 ∈ [0xFF#8, 0x00#8, 0x01#8] ∧ 0x00#8 ∈ [0xFF#8, 0x00#8, 0x01#8] ∧
    0x01#8 ∈ [0xFF#8, 0x00#8, 0x01#8] := ⟨cfgOf_legal 2 (by decide) (by decide), by decide, by decide, by decide⟩

/-- Four payloads: another tag, a tag-1 payload of 4 bytes, a tag-2 payload of one, and a mode outside the domain. -/
theorem witness_OtherPayloadsIgnored :
    ∀ p ∈ [[0x03#8, 0x01], [0x01, 0x00, 0x00, 0x80], [0x02], [0x02, 0x05]],
      ¬(p[0]? = some 0x01#8 ∧ 5 ≤ p.length) ∧
      (p[0]? = some 0x02#8 → p[1]?.all fun m => decide (m ∉ [0xFF#8, 0x00#8, 0x01#8])) := by decide

theorem witness_PayloadRowRefusedUnlessSelected :
    [0x02#8, 0x01, 0x55][0]? = some 0x02#8 ∧ [0x02#8, 0x01, 0x55][1]? = some 0x01#8 ∧
    0x01#8 ∈ [0xFF#8, 0x00#8, 0x01#8] ∧ 0x05#8 ∉ [0xFF#8, 0x00#8, 0x01#8] ∧ 0x02#8 ≠ (base 2).cfg.flag ∧ 0x3F800000#32 ≠ (base 2).sc.lastVel ∧
    scenario[0]? = some 0x01#8 ∧ 5 ≤ scenario.length := by decide

/-- A wrapped counter: the true times 0xFFFFFF00 and 0x1_0000_0100 (R185's example), and a gap of one period. -/
theorem witness_ElapsedSurvivesWrap :
    0xFFFFFF00 ≤ 0x100000100 ∧ (activeAt 0xFFFFFF00 [] [] [] []).sc.lastComm = 0xFFFFFF00 % 2 ^ 32 ∧
    0x100000100 - 0xFFFFFF00 < 2 ^ (base 2).cfg.clkW ∧ ¬0x1FFFFFF00 - 0xFFFFFF00 < 2 ^ (base 2).cfg.clkW := by decide

/-- A session in TERMINAL with this stimulus waiting. -/
def ended (x : Stimulus) : State := { asked x with sc := { state := .terminal, lastComm := 0, lastVel := 0, lastTemp := 0 } }

theorem witness_OnlyResetLeavesTerminal :
    (ended (.request 0x0700 [])).sc.state = .terminal ∧
    seen (·.sc.state) (step (ended (.request 0x0700 []))) = some .afc ∧
    seen (·.sc.state) (step (ended .resetInput)) = some .afc := by decide

theorem witness_TerminalTickIsIdle_IllegalScStateReentersAfc :
    (ended .resetInput).sc.state = .terminal ∧
    ({ base 2 with sc := { state := .illegal3, lastComm := 0, lastVel := 0, lastTemp := 0 } } : State).sc.state =
      .illegal3 := by decide

theorem witness_StepKeepsInvariant_StepNeverStops :
    Inv (asked (.request 0x0500 scenario)) ∧ ∃ t, step (asked (.request 0x0500 scenario)) = .next t :=
  ⟨Inv.of_sc (base 2) _ inv_base rfl rfl rfl rfl rfl inv_base.sc inv_base.comm, _, rfl⟩

theorem witness_InstructionsKeepConfigAndHistory_OnlySessionTouchesEnvironment :
    (∃ t, exec .scTick (base 2) = .next t) ∧ (∃ t, exec .txBuild (base 2) = .next t) ∧
    ∃ t, exec .reset (base 2) = .next t := ⟨⟨_, rfl⟩, ⟨_, rfl⟩, _, rfl⟩

/-- For InstructionsKeepConfigAndHistory: a request, and the relation's answer to it from the record alone. -/
theorem witness_coreStep :
    (asked (.request 0x0500 scenario)).queue = .request 0x0500 scenario :: [] ∧
    ∃ r, coreStep (base 2).cfg (base 2).env (.request 0x0500 scenario) (base 2).toRecord = .next r := ⟨rfl, _, rfl⟩

end Sys2Proof.Tests
end

section
/-! PROOF. Configuration and history (R5, R20, R21, R237): an instruction ends in a state that comes later within its
request, answered or not; a step is its request served on the core with nothing observed, put after the history. -/

namespace Sys2Proof.Machine

/-! What an instruction leaves -/

/-- `t` is where an instruction that ran from `s` ended: it came later within its request, and gave at most one response
(R238). -/
inductive Completes (s : State) : State → Prop
  | silent {t : State} (h : Later s t) : Completes s t
  | answered {t : State} (h : Later s t) (r : Response) (o : Output) : Completes s (t.respond r o)

theorem Later.trace_grows {s t : State} (h : Later s t) : s.trace <+: t.trace :=
  h.trace.imp fun _ he => he.symm

theorem Completes.keeps_history {s t : State} (h : Completes s t) :
    t.cfg = s.cfg ∧ t.pin = s.pin ∧ t.queue = s.queue ∧ s.trace <+: t.trace ∧ s.reports <+: t.reports := by
  cases h with
  | silent k => exact ⟨k.cfg, k.pin, k.queue, k.trace_grows, [], by simp [k.reports]⟩
  | answered k r o =>
    exact ⟨k.cfg, k.pin, k.queue, k.trace_grows, [⟨r, o⟩], by rw [State.respond_reports, k.reports]⟩

theorem withCk_later (s : State) (x : CkSel) (c : CkState) : Later s (s.withCk x c) := by
  cases x <;> exact ⟨rfl, rfl, rfl, rfl, ⟨le_rfl, fun _ => rfl⟩, [], by simp [State.withCk]⟩

theorem coreReset_later (s : State) : Later s s.coreReset :=
  ⟨rfl, rfl, rfl, rfl, ⟨Nat.le_succ _, fun e => absurd e (Nat.succ_ne_self _)⟩, [], by simp [State.coreReset]⟩

theorem takeDraw_later (s : State) : Later s s.takeDraw.2 :=
  ⟨rfl, rfl, rfl, rfl, ⟨le_rfl, fun _ => rfl⟩, [], by simp⟩

theorem rxRun_later (row : RxRow) (b : Byte) (s : State) (r : RxReply) (h : rxRun row b s = .ok r) :
    Later s r.state := by
  rw [rxRun_frame row b s r h]
  exact ⟨rfl, rfl, rfl, rfl, ⟨le_rfl, fun _ => rfl⟩, [], by simp⟩

theorem rxAccept_later (b : Byte) (rnd : Bool) (s : State) (r : RxReply) (h : rxAccept b rnd s = .ok r) :
    Later s r.state := by
  unfold rxAccept at h
  split at h
  · cases h
  · exact rxRun_later _ b s r h

theorem txBuild_later (q : List Byte) (s : State) (r : TxReply) (h : txBuild q s = .ok r) : Later s r.state := by
  rw [txBuild_frame q s r h]
  exact ⟨rfl, rfl, rfl, rfl, ⟨Nat.le_succ _, fun e => absurd e (Nat.succ_ne_self _)⟩, [], by simp⟩

theorem rxFinish_completes {x : Except Fault RxReply} {s t : State} (hx : ∀ r, x = .ok r → Later s r.state)
    (h : rxFinish x = .next t) : Completes s t := by
  cases x with
  | error f => cases h
  | ok r => cases h; exact .answered (hx r rfl) _ _

theorem rxRowExec_completes (row : RxRow) (b : Byte) (s t : State) (h : rxRowExec row b s = .next t) :
    Completes s t := by
  unfold rxRowExec at h
  split at h
  · cases h
  · split at h
    · exact rxFinish_completes (fun r hr => (takeDraw_later s).trans (rxRun_later row b _ r hr)) h
    · cases h

theorem ofExcept_completes {x : Except Fault State} {s t : State} (hx : ∀ u, x = .ok u → Later s u)
    (h : ofExcept x = .next t) : Completes s t :=
  .silent (hx t ((ofExcept_eq_next x t).mp h))

/-- An arm with a guard completes as the arm does. -/
theorem guarded_completes {c : Prop} [Decidable c] {x : Host.Outcome State Fault Refusal} {f : Refusal} {s t : State}
    (hx : x = .next t → Completes s t) (h : (if c then x else .refused f) = .next t) : Completes s t := by
  split at h
  · exact hx h
  · cases h

theorem exec_completes (i : Instr) (s t : State) (h : exec i s = .next t) : Completes s t := by
  cases i
  case nop => cases h; exact .answered (.refl s) _ _
  case ckInit x => cases h; exact .answered (withCk_later s x _) _ _
  case ckUpdate x b => cases h; exact .answered (withCk_later s x _) _ _
  case ckFinal x => cases h; exact .answered (.refl s) _ _
  case reset => cases h; exact .answered (coreReset_later s) _ _
  case rxAccept b =>
    exact rxFinish_completes (fun r hr => (takeDraw_later s).trans (rxAccept_later b _ _ r hr)) h
  case txBuild =>
    change execTxBuild s = _ at h
    unfold execTxBuild at h
    split at h
    · cases h
    · next r hr => cases h; exact .answered (txBuild_later s.pin s r hr) _ _
  case scTick =>
    change execScTick s = _ at h
    unfold execScTick at h
    split at h
    · cases h
    · next r hr => cases h; exact .answered (scTick_later s r hr) _ _
  case rxSync | rxLenBadZero | rxResync | rxResyncReject => exact rxRowExec_completes _ _ s t h
  case rxIgnored b | rxLenOk b | rxLenBadNeg b | rxPayload b | rxPayloadLast b | rxCkMatch b | rxDone b | rxCkMismatch b
    | rxFailedNoise b => exact rxRowExec_completes _ b s t h
  case rxIllegalStateSync st => exact guarded_completes (rxRowExec_completes _ _ s t) h
  case rxIllegalState st b => exact guarded_completes (rxRowExec_completes _ b s t) h
  case cmdVelocity v rest => exact ofExcept_completes (fun u hu => (dispatchVelocity_frame v s u hu).later) h
  case cmdTempMode m rest =>
    exact guarded_completes (ofExcept_completes fun u hu => (dispatchTempMode_frame m s u hu).later) h
  case cmdIgnored p => exact guarded_completes (fun e => by cases e; exact .silent (.refl s)) h
  case txHandshake | txVelocityEcho | txTempModeEcho =>
    exact guarded_completes (ofExcept_completes (sendFrame_later _ s)) h

/-! A step as the relation of R21 -/

/-- A stimulus served on a state whose queue it has left (R202, R203, R250). -/
def serve (x : Stimulus) (s : State) : Host.Outcome State Fault Refusal :=
  match x with
  | .resetInput => takeResetInput s
  | .request w p =>
    match decodeRequest w with
    | .error _ => takeIllegalRequest (s.withPin p)
    | .ok i => exec i (s.withPin p)

theorem step_of_queue (s : State) (x : Stimulus) (q : List Stimulus) (h : s.queue = x :: q) :
    step s = serve x (s.withQueue q) := by
  have hf : s.fetch = some (x, s.withQueue q) := by simp only [State.fetch, h]
  unfold step
  rw [hf]
  cases x <;> rfl

theorem serve_after (x : Stimulus) (s : State) (q : List Stimulus) (n : Nat) (es : List Event) (rs : List Report) :
    serve x (s.after q n es rs) = outcomeAfter q n es rs (serve x s) := by
  cases x with
  | resetInput => rfl
  | request w p =>
    simp only [serve]
    cases decodeRequest w with
    | error e => exact congrArg Host.Outcome.next (State.respond_after q n es rs (s.withPin p) _ _)
    | ok i => exact exec_after q n es rs i (s.withPin p)

theorem serve_cfg (x : Stimulus) (s t : State) (h : serve x s = .next t) : t.cfg = s.cfg := by
  unfold serve at h
  split at h
  · cases h; rfl
  · split at h
    · cases h; rfl
    · next i _ => exact (exec_completes i _ t h).keeps_history.1

/-- The core with nothing observed yet and no request behind (R20, R237). -/
def State.unobserved (s : State) : State := { s with queue := [], builds := 0, trace := [], reports := [] }

theorem State.unobserved_after (s : State) (q : List Stimulus) :
    s.unobserved.after q s.builds s.trace s.reports = s.withQueue q := by
  simp [State.unobserved, State.after, State.withQueue]

/-- The reaction that an outcome shows when nothing was observed before. -/
def reactionOf : Host.Outcome State Fault Refusal → Host.Outcome Reaction Fault Refusal
  | .next t => .next ⟨t.toRecord, t.env, t.builds, t.trace, t.reports⟩
  | .fault f => .fault f
  | .refused f => .refused f

/-- The relation of R21 serves its request on the unobserved core: a request brings its own operand, and the reset input
reads none, so what stood on the port does not matter. -/
theorem coreStep_eq_reactionOf_serve (s : State) (x : Stimulus) :
    coreStep s.cfg s.env x s.toRecord = reactionOf (serve x s.unobserved) := by
  unfold coreStep
  rw [step_of_queue _ x [] rfl]
  cases x <;> rfl

/-- Settles O59: every instruction completes in a later state of its request; and a step is its request served on the
unobserved core, with the history put before and the queue behind. -/
theorem instructionsKeepConfigAndHistory : Obligations.InstructionsKeepConfigAndHistory := by
  unfold Obligations.InstructionsKeepConfigAndHistory
  refine ⟨fun i s t h => (exec_completes i s t h).keeps_history, fun s x q hq => ?_⟩
  rw [coreStep_eq_reactionOf_serve, step_of_queue s x q hq, ← State.unobserved_after, serve_after]
  cases ho : serve x s.unobserved with
  | next t =>
    have hc : t.cfg = s.cfg := serve_cfg x s.unobserved t ho
    exact ⟨t.pin, by rw [← hc]; rfl⟩
  | fault f => rfl
  | refused f => rfl

end Sys2Proof.Machine
end

section
/-! PROOF. The receiver's operations (R120, R226): one inversion lemma for RX_ACCEPT and the rows of its decode, what a
row writes in the receiver's registers, and the frame that follows from them. -/

namespace Sys2Proof.Machine

/-- An arm with a guard that answers a next state answers it by the arm. -/
theorem next_of_guarded {c : Prop} [Decidable c] {x : Host.Outcome State Fault Refusal} {f : Refusal} {t : State}
    (h : (if c then x else .refused f) = .next t) : x = .next t := by
  split at h
  · exact h
  · cases h

/-! RX_ACCEPT and its rows are one operation -/

/-- `t` is where an RX_ACCEPT of some byte, on the port or as a row, ended from `s` with the reply `r`. -/
def RxEnds (s t : State) (r : RxReply) : Prop :=
  (∃ b, rxAccept b s.takeDraw.1 s.takeDraw.2 = .ok r) ∧ t = r.state.respond r.resp (payloadOutput r.out)

theorem exec_rxAccept_ends {b : Byte} {s t : State} (h : exec (.rxAccept b) s = .next t) : ∃ r, RxEnds s t r := by
  change rxFinish (rxAccept b s.takeDraw.1 s.takeDraw.2) = _ at h
  cases hr : rxAccept b s.takeDraw.1 s.takeDraw.2 with
  | error f => rw [hr] at h; cases h
  | ok r => rw [hr] at h; cases h; exact ⟨r, ⟨b, hr⟩, rfl⟩

/-- A row that completes is the RX_ACCEPT of its byte (log entry 8). -/
theorem rxRowExec_next {row : RxRow} {b : Byte} {s t : State} (h : rxRowExec row b s = .next t) :
    exec (.rxAccept b) s = .next t := by
  change rxFinish (rxAccept b s.takeDraw.1 s.takeDraw.2) = _
  unfold rxRowExec at h
  split at h
  · cases h
  · next r hsel =>
    split at h
    · next hrow => subst hrow; simpa only [rxAccept, hsel] using h
    · cases h

/-- Every row of the byte decode that completes ends as an RX_ACCEPT does. -/
theorem exec_rx_ends {i : Instr} {s t : State} (hi : i.rxRowKey.isSome ∨ ∃ b, i = .rxAccept b)
    (h : exec i s = .next t) : ∃ r, RxEnds s t r := by
  rcases hi with hi | ⟨b, rfl⟩
  · cases i
    case rxSync | rxLenBadZero | rxResync | rxResyncReject => exact exec_rxAccept_ends (rxRowExec_next h)
    case rxIgnored | rxLenOk | rxLenBadNeg | rxPayload | rxPayloadLast | rxCkMatch | rxDone | rxCkMismatch
      | rxFailedNoise => exact exec_rxAccept_ends (rxRowExec_next h)
    case rxIllegalStateSync | rxIllegalState => exact exec_rxAccept_ends (rxRowExec_next (next_of_guarded h))
    all_goals cases hi
  · exact exec_rxAccept_ends h

/-! What it changes -/

/-- A draw moves the draw source alone (R129). -/
theorem takeDraw_frame (s : State) :
    s.takeDraw.2 = { s with
      env := { s.env with draws := s.takeDraw.2.env.draws, drawn := s.takeDraw.2.env.drawn } } := by
  have hdraws : s.takeDraw.2.env.draws = s.env.draws.tail := congrArg Env.draws s.env.nextDraw_eq.2
  rw [hdraws]
  exact congrArg s.withEnv s.env.nextDraw_eq.2

theorem RxEnds.frame {s t : State} {r : RxReply} (h : RxEnds s t r) :
    t = { s with
      rx := t.rx, rxck := t.rxck
      env := { s.env with draws := t.env.draws, drawn := t.env.drawn }
      reports := s.reports ++ [⟨r.resp, payloadOutput r.out⟩] } := by
  obtain ⟨⟨b, hb⟩, rfl⟩ := h
  rw [rxAccept_frame b _ _ r hb, takeDraw_frame s]
  rfl

/-- What an RX_ACCEPT writes in the receiver's registers beside `state` and `cnt`, by its response and output. -/
inductive RxWrites (u v : RxUnit) (resp : Response) : Option (List Byte) → Prop
  | control (hbuf : v.pbuf = u.pbuf) (hlen : v.len = u.len) (hval : v.pvalid = u.pvalid) : RxWrites u v resp none
  | cleared (hresp : resp = .lenOk) (hbuf : v.pbuf = []) (hval : v.pvalid = false) : RxWrites u v resp none
  | stored (b : Byte) (hresp : resp = .payload ∨ resp = .payloadLast)
      (hbuf : v.pbuf = Memory.write u.pbuf u.cnt.toNat b) (hlen : v.len = u.len) (hval : v.pvalid = u.pvalid) :
      RxWrites u v resp none
  | completed (p : List Byte) (hresp : resp = .done) (hbuf : v.pbuf = u.pbuf) (hlen : v.len = u.len)
      (hval : v.pvalid = true) : RxWrites u v resp (some p)

theorem rxStore_writes {b : Byte} {st : RxTag} {resp : Response} {s : State} {r : RxReply}
    (hresp : resp = .payload ∨ resp = .payloadLast) (h : rxStore b st resp s = .ok r) :
    RxWrites s.rx r.state.rx r.resp r.out := by
  unfold rxStore at h
  split at h
  · cases h; exact .stored b hresp rfl rfl rfl
  · cases h

theorem rxActDone_writes {s : State} {r : RxReply} (h : rxActDone s = .ok r) :
    RxWrites s.rx r.state.rx r.resp r.out := by
  unfold rxActDone at h
  split at h
  · cases h
  · next p _ => cases h; exact .completed p rfl rfl rfl rfl

theorem rxRun_writes {row : RxRow} {b : Byte} {s : State} {r : RxReply} (h : rxRun row b s = .ok r) :
    RxWrites s.rx r.state.rx r.resp r.out := by
  cases row
  case lenOk => cases h; exact .cleared rfl rfl rfl
  case payload => exact rxStore_writes (.inl rfl) h
  case payloadLast => exact rxStore_writes (.inr rfl) h
  case done => exact rxActDone_writes h
  all_goals cases h; exact .control rfl rfl rfl

theorem rxAccept_writes {b : Byte} {rnd : Bool} {s : State} {r : RxReply} (h : rxAccept b rnd s = .ok r) :
    RxWrites s.rx r.state.rx r.resp r.out := by
  unfold rxAccept at h
  split at h
  · cases h
  · exact rxRun_writes h

theorem RxEnds.writes {s t : State} {r : RxReply} (h : RxEnds s t r) : RxWrites s.rx t.rx r.resp r.out := by
  obtain ⟨⟨b, hb⟩, rfl⟩ := h
  have hw := rxAccept_writes hb
  rwa [State.takeDraw_rx] at hw

namespace RxWrites

variable {u v : RxUnit} {resp : Response} {out : Option (List Byte)}

theorem pbuf_changes (h : RxWrites u v resp out) (j : Nat) (hj : Memory.read v.pbuf j ≠ Memory.read u.pbuf j) :
    (resp = .lenOk ∧ Memory.read v.pbuf j = none) ∨
      ((resp = .payload ∨ resp = .payloadLast) ∧ j = u.cnt.toNat) := by
  cases h with
  | control hbuf | completed _ _ hbuf => exact absurd (by rw [hbuf]) hj
  | cleared hresp hbuf => exact .inl ⟨hresp, by rw [hbuf, Memory.read_nil]⟩
  | stored b hresp hbuf =>
    refine .inr ⟨hresp, by_contra fun hne => hj ?_⟩
    rw [hbuf, Memory.read_write_other _ _ _ _ (Ne.symm hne)]

theorem len_changes (h : RxWrites u v resp out) (hl : v.len ≠ u.len) : resp = .lenOk := by
  cases h with
  | cleared hresp => exact hresp
  | control _ hlen | stored _ _ _ hlen | completed _ _ _ hlen => exact absurd hlen hl

theorem pvalid_changes (h : RxWrites u v resp out) (hp : v.pvalid ≠ u.pvalid) :
    (v.pvalid = true ∧ resp = .done) ∨ (v.pvalid = false ∧ resp = .lenOk) := by
  cases h with
  | cleared hresp _ hval => exact .inr ⟨hval, hresp⟩
  | completed _ hresp _ _ hval => exact .inl ⟨hval, hresp⟩
  | control _ _ hval | stored _ _ _ _ hval => exact absurd hval hp

theorem out_is_done (h : RxWrites u v resp out) (ho : payloadOutput out ≠ .none) : resp = .done := by
  cases h with
  | completed _ hresp => exact hresp
  | control | cleared | stored => exact absurd rfl ho

end RxWrites

/-- Settles O31: a row that completes is the RX_ACCEPT of its byte, and RxWrites says what that writes. -/
theorem rxOperationsFrame : Obligations.RxOperationsFrame := by
  unfold Obligations.RxOperationsFrame
  intro i s t hi h
  obtain ⟨r, hr⟩ := exec_rx_ends hi h
  have hw := hr.writes
  exact ⟨_, hr.frame, hw.pbuf_changes, hw.len_changes, hw.pvalid_changes, hw.out_is_done⟩

end Sys2Proof.Machine
end

section
/-! PROOF. The reset values (R38, R251) and the invariant of the machine (R28, R30, R31, R32): the reset record meets it
under any legal configuration, and every instruction and every step keeps it. -/

namespace Sys2Proof.Machine

/-! Reset -/

/-- Settles O9: the reset cascades are seeds, and the other elements stand in Record.reset as R38 lists them. -/
theorem resetStateHoldsResetValues : Obligations.ResetStateHoldsResetValues := by
  unfold Obligations.ResetStateHoldsResetValues
  intro c
  have hseed (x : CkSel) : ((State.resetWith c).ck x).acc = ckSeed c.n := by cases x <;> rfl
  exact ⟨fun x => hseed x ▸ isSeed_ckSeed c.n, rfl, rfl, rfl, rfl⟩

/-- A state that holds the reset record of its own legal configuration meets the invariant. -/
theorem Inv.of_resetRecord {s : State} (hc : s.cfg.Legal) (h : s.toRecord = Record.reset s.cfg) : Inv s where
  cfg := hc
  rxck := by simp [h, Record.reset]
  txck := by simp [h, Record.reset]
  pbuf := by simp [h, Record.reset]
  fbuf := by simp [h, Record.reset]
  rx := by constructor <;> simp [h, Record.reset, RxTag.isIllegal]
  tx := by constructor <;> simp [h, Record.reset, Written, UnwrittenFrom]
  sc := by simp [h, Record.reset]
  comm := by simp [h, Record.reset]

/-- R5's reference values are legal, whatever the OPEN parameters are. -/
theorem configReference_legal : Config.reference.Legal := by
  have hw : 2 ^ 25 ≤ 2 ^ (25 + Config.openClkExtra) := Nat.pow_le_pow_right (by omega) (by omega)
  simp only [Config.Legal, Config.reference]
  omega

/-- Settles O10: State.reset holds the reset record of the reference configuration, which is legal. -/
theorem resetStateMeetsInvariant : Obligations.ResetStateMeetsInvariant :=
  Inv.of_resetRecord configReference_legal rfl

/-! What every instruction keeps -/

theorem respond_inv {s : State} (r : Response) (o : Output) (hi : Inv s) : Inv (s.respond r o) :=
  Inv.of_sc s _ hi rfl rfl rfl rfl rfl hi.sc hi.comm

theorem coreReset_inv {s : State} (hi : Inv s) : Inv s.coreReset := Inv.of_resetRecord hi.cfg rfl

/-- A cascade of N accumulators may take the place of RXCK or TXCK (R22). -/
theorem withCk_inv {s : State} (x : CkSel) {acc : List Byte} (hacc : acc.length = s.cfg.n) (hi : Inv s) :
    Inv (s.withCk x ⟨acc⟩) := by
  cases x with
  | rx => exact { hi with rxck := hacc }
  | tx => exact { hi with txck := hacc }

theorem ck_length {s : State} (x : CkSel) (hi : Inv s) : (s.ck x).acc.length = s.cfg.n := by
  cases x with
  | rx => exact hi.rxck
  | tx => exact hi.txck

theorem RxEnds.inv {s t : State} {r : RxReply} (h : RxEnds s t r) (hi : Inv s) : Inv t := by
  obtain ⟨⟨b, hb⟩, rfl⟩ := h
  exact respond_inv _ _ (rxAccept_inv b _ _ r (takeDraw_inv s hi) hb)

theorem execTxBuild_inv {s t : State} (hi : Inv s) (h : execTxBuild s = .next t) : Inv t := by
  obtain ⟨r, hr, hri⟩ := txBuild_inv s.pin s hi
  simp only [execTxBuild, hr] at h
  cases h
  exact respond_inv _ _ hri

theorem execScTick_inv {s t : State} (hi : Inv s) (h : execScTick s = .next t) : Inv t := by
  obtain ⟨r, hr, hri⟩ := scTick_inv s hi
  simp only [execScTick, hr] at h
  cases h
  exact respond_inv _ _ hri

/-- What an operation of SC answers meets the invariant where its law says so. -/
theorem ofExcept_inv {x : Except Fault State} {t : State} (hx : ∃ u, x = .ok u ∧ Inv u) (h : ofExcept x = .next t) :
    Inv t := by
  obtain ⟨u, rfl, hu⟩ := hx
  cases h
  exact hu

theorem exec_inv {i : Instr} {s t : State} (hi : Inv s) (h : exec i s = .next t) : Inv t := by
  cases i
  case nop | ckFinal => cases h; exact respond_inv _ _ hi
  case ckInit x => cases h; exact respond_inv _ _ (withCk_inv x (ckSeed_length _) hi)
  case ckUpdate x b =>
    cases h
    exact respond_inv _ _ (withCk_inv x ((ckAdd_length _ b).trans (ck_length x hi)) hi)
  case reset => cases h; exact respond_inv _ _ (coreReset_inv hi)
  case txBuild => exact execTxBuild_inv hi h
  case scTick => exact execScTick_inv hi h
  case cmdVelocity v rest => exact ofExcept_inv (dispatchVelocity_inv v s hi) h
  case cmdTempMode m rest => exact ofExcept_inv (dispatchTempMode_inv m s hi) (next_of_guarded h)
  case cmdIgnored p => cases next_of_guarded h; exact hi
  case txHandshake | txVelocityEcho | txTempModeEcho =>
    exact ofExcept_inv (sendFrame_inv _ s (by simp) hi) (next_of_guarded h)
  case rxAccept b =>
    obtain ⟨r, hr⟩ := exec_rxAccept_ends h
    exact hr.inv hi
  all_goals
    obtain ⟨r, hr⟩ := exec_rx_ends (.inl rfl) h
    exact hr.inv hi

/-! A step -/

theorem step_of_empty_queue {s : State} (h : s.queue = []) : step s = .next s := by
  have hf : s.fetch = none := by simp only [State.fetch, h]
  simp only [step, hf, waitForRequest]

theorem serve_inv {x : Stimulus} {s t : State} (hi : Inv s) (h : serve x s = .next t) : Inv t := by
  cases x with
  | resetInput => cases h; exact coreReset_inv hi
  | request w p =>
    have hp : Inv (s.withPin p) := Inv.of_sc s _ hi rfl rfl rfl rfl rfl hi.sc hi.comm
    simp only [serve] at h
    split at h
    · cases h; exact respond_inv _ _ hp
    · exact exec_inv hp h

/-- Settles O57: a waiting core stays as it is, and serving a stimulus keeps the invariant, instruction by instruction. -/
theorem stepKeepsInvariant : Obligations.StepKeepsInvariant := by
  unfold Obligations.StepKeepsInvariant
  intro s t hi h
  cases hq : s.queue with
  | nil => rw [step_of_empty_queue hq] at h; cases h; exact hi
  | cons x q =>
    rw [step_of_queue s x q hq] at h
    have hw : Inv (s.withQueue q) := Inv.of_sc s _ hi rfl rfl rfl rfl rfl hi.sc hi.comm
    exact serve_inv hw h

end Sys2Proof.Machine
end

section
/-! PROOF. Who touches the builder's frame and the environment (R36, R52, R55, R155): an instruction that builds nothing
and resets nothing leaves the frame, the events, the transport and SC alone, and over a run the name of a frame says
whether it still stands (log entry 24). -/

namespace Sys2Proof.Machine

/-! The instructions outside the session -/

/-- From `s` to `t` no frame is invalidated, no event is issued, no byte of the transport is taken and SC's registers
stand. -/
structure Quiet (s t : State) : Prop where
  builds : t.builds = s.builds
  trace : t.trace = s.trace
  fifo : t.env.fifo = s.env.fifo
  sc : t.sc = s.sc

theorem Quiet.refl (s : State) : Quiet s s := ⟨rfl, rfl, rfl, rfl⟩

theorem Quiet.respond {s t : State} (r : Response) (o : Output) (h : Quiet s t) : Quiet s (t.respond r o) :=
  ⟨h.builds, h.trace, h.fifo, h.sc⟩

theorem withCk_quiet (s : State) (x : CkSel) (c : CkState) : Quiet s (s.withCk x c) := by
  rw [State.withCk_frame]
  exact ⟨rfl, rfl, rfl, rfl⟩

theorem RxEnds.quiet {s t : State} {r : RxReply} (h : RxEnds s t r) : Quiet s t := by
  rw [h.frame]
  exact ⟨rfl, rfl, rfl, rfl⟩

/-- An instruction that builds no frame and resets nothing is quiet. -/
theorem exec_quiet {i : Instr} {s t : State} (hk : i.keepsFrame = true) (h : exec i s = .next t) : Quiet s t := by
  cases i
  case nop | ckFinal => cases h; exact (Quiet.refl s).respond _ _
  case ckInit x => cases h; exact (withCk_quiet s x _).respond _ _
  case ckUpdate x b => cases h; exact (withCk_quiet s x _).respond _ _
  case cmdIgnored p => cases next_of_guarded h; exact Quiet.refl s
  case txBuild | scTick | reset | cmdVelocity | cmdTempMode | txHandshake | txVelocityEcho | txTempModeEcho => cases hk
  case rxAccept b =>
    obtain ⟨r, hr⟩ := exec_rxAccept_ends h
    exact hr.quiet
  all_goals
    obtain ⟨r, hr⟩ := exec_rx_ends (.inl rfl) h
    exact hr.quiet

/-- TX_BUILD, answered OK or OVERSIZE, writes the builder's unit and TXCK, counts one build and reports (R150, R151). -/
theorem exec_txBuild_frame {s t : State} (h : exec .txBuild s = .next t) :
    t = { s with tx := t.tx, txck := t.txck, builds := s.builds + 1, reports := t.reports } := by
  change execTxBuild s = _ at h
  unfold execTxBuild at h
  split at h
  · cases h
  · next r hr =>
    cases h
    rw [txBuild_frame s.pin s r hr]
    rfl

/-- Settles O60: the instructions named are the quiet ones, TX_BUILD and RESET, and each has its frame. -/
theorem onlySessionTouchesEnvironment : Obligations.OnlySessionTouchesEnvironment := by
  unfold Obligations.OnlySessionTouchesEnvironment
  intro i s t h hn
  have hi : i.keepsFrame = true ∨ i = .txBuild ∨ i = .reset := by
    revert hn
    cases i <;> simp [Instr.keepsFrame]
  rcases hi with hk | rfl | rfl
  · have hq := exec_quiet hk h
    exact ⟨hq.trace, hq.fifo, fun _ => hq.sc⟩
  · rw [exec_txBuild_frame h]
    exact ⟨rfl, rfl, fun _ => rfl⟩
  · cases h
    exact ⟨rfl, rfl, fun hr => absurd rfl hr⟩

/-! The name of a frame -/

/-- From `s` to `t` builds are only added, and while none is added the builder's unit stands. -/
structure NamesFrame (s t : State) : Prop where
  le : s.builds ≤ t.builds
  tx : t.builds = s.builds → t.tx = s.tx

theorem NamesFrame.refl (s : State) : NamesFrame s s := ⟨le_rfl, fun _ => rfl⟩

theorem NamesFrame.trans {s t u : State} (h : NamesFrame s t) (k : NamesFrame t u) : NamesFrame s u where
  le := h.le.trans k.le
  tx e := by
    have hb : t.builds = s.builds := le_antisymm (e ▸ k.le) h.le
    rw [k.tx (e.trans hb.symm), h.tx hb]

theorem Completes.namesFrame {s t : State} (h : Completes s t) : NamesFrame s t := by
  cases h with
  | silent k => exact ⟨k.frame.1, k.frame.2⟩
  | answered k => exact ⟨k.frame.1, k.frame.2⟩

theorem exec_namesFrame {i : Instr} {s t : State} (h : exec i s = .next t) : NamesFrame s t :=
  (exec_completes i s t h).namesFrame

theorem exec_builds_succ {i : Instr} {s t : State} (hi : i = .txBuild ∨ i = .reset) (h : exec i s = .next t) :
    t.builds = s.builds + 1 := by
  rcases hi with rfl | rfl
  · rw [exec_txBuild_frame h]
  · cases h; rfl

/-! Runs -/

/-- A run that completes runs its first instruction and then the rest. -/
theorem runInstrs_cons_next {i : Instr} {is : List Instr} {s t : State} (h : runInstrs (i :: is) s = .next t) :
    ∃ u, exec i s = .next u ∧ runInstrs is u = .next t := by
  simp only [runInstrs] at h
  split at h
  · next u hu => exact ⟨u, hu, h⟩
  · cases h
  · cases h

theorem runInstrs_namesFrame {is : List Instr} {s t : State} (h : runInstrs is s = .next t) : NamesFrame s t := by
  induction is generalizing s with
  | nil => cases h; exact .refl _
  | cons i is ih =>
    obtain ⟨u, hu, hr⟩ := runInstrs_cons_next h
    exact (exec_namesFrame hu).trans (ih hr)

/-- A run that builds nothing and resets nothing adds no build. -/
theorem runInstrs_builds_eq {is : List Instr} {s t : State} (hk : ∀ i ∈ is, i.keepsFrame = true)
    (h : runInstrs is s = .next t) : t.builds = s.builds := by
  induction is generalizing s with
  | nil => cases h; rfl
  | cons i is ih =>
    obtain ⟨u, hu, hr⟩ := runInstrs_cons_next h
    obtain ⟨hki, hkis⟩ := List.forall_mem_cons.mp hk
    rw [ih hkis hr, (exec_quiet hki hu).builds]

/-- A run with a TX_BUILD or a RESET adds a build. -/
theorem runInstrs_builds_lt {is : List Instr} {s t : State} (hb : .txBuild ∈ is ∨ .reset ∈ is)
    (h : runInstrs is s = .next t) : s.builds < t.builds := by
  induction is generalizing s with
  | nil => simp at hb
  | cons i is ih =>
    obtain ⟨u, hu, hr⟩ := runInstrs_cons_next h
    by_cases hi : i = .txBuild ∨ i = .reset
    · have := (runInstrs_namesFrame hr).le
      have := exec_builds_succ hi hu
      omega
    · have hrest : .txBuild ∈ is ∨ .reset ∈ is := by
        simp only [List.mem_cons] at hb
        tauto
      exact (exec_namesFrame hu).le.trans_lt (ih hrest hr)

/-! Reads of a frame -/

theorem readFrameByte_stands {s t : State} (hb : t.builds = s.builds) (hn : NamesFrame s t) (k j : Nat) :
    t.readFrameByte k j = s.readFrameByte k j := by
  unfold State.readFrameByte
  rw [hb, hn.tx hb]

theorem readFrameByte_stale {s : State} {k : Nat} (hk : k < s.builds) (j : Nat) :
    s.readFrameByte k j = .error .frameInvalid := if_neg hk.ne

/-- Settles O40: State.builds never falls, and while it stands fbuf and flen stand; a run that builds or resets raises
it, which makes the older name stale. -/
theorem frameStaysUntilNextBuild : Obligations.FrameStaysUntilNextBuild := by
  unfold Obligations.FrameStaysUntilNextBuild
  refine ⟨fun i s t h => ?_, fun is s t j h => ?_⟩
  · have hn := exec_namesFrame h
    exact ⟨hn.le, hn.tx, fun hk => (exec_quiet hk h).builds, fun hi => exec_builds_succ hi h⟩
  · have hn := runInstrs_namesFrame h
    refine ⟨?_, fun hb => readFrameByte_stale (runInstrs_builds_lt hb h) j,
      fun hk => readFrameByte_stands (runInstrs_builds_eq hk h) hn s.builds j⟩
    rcases hn.le.eq_or_lt with he | hlt
    · exact .inl (readFrameByte_stands he.symm hn s.builds j)
    · exact .inr (readFrameByte_stale hlt j)

end Sys2Proof.Machine
end

section
/-! PROOF. Under the invariant the core never stops (R50, R56, R135): the requests that could fault are RX_ACCEPT,
TX_BUILD and SC_TICK, whose laws say that they do not; and no request word decodes to a row of an inner table, where the
only refusals are (log entry 8). -/

namespace Sys2Proof.Machine

/-! What a request word decodes to -/

theorem decodeRequest_ok {w : BitVec 13} {i : Instr} (h : decodeRequest w = .ok i) :
    i = opInstr (reqOp w) (CkSel.ofBit (reqSel w)) (reqArg w) := by
  simp only [decodeRequest] at h
  split_ifs at h
  exact (Except.ok.inj h).symm

/-- A word selects a request (R71): an instruction with a code space of its own (R220), no row of an inner table. -/
theorem opInstr_responses_ne_nil (op : BitVec 4) (x : CkSel) (arg : Byte) : (opInstr op x arg).responses ≠ [] := by
  unfold opInstr
  split <;> exact List.cons_ne_nil _ _

/-! Every request is answered -/

theorem execRxAccept_answers (b : Byte) {s : State} (hi : Inv s) : ∃ t, execRxAccept b s = .next t := by
  obtain ⟨r, hr⟩ := rxAccept_ok b s.takeDraw.1 s.takeDraw.2 (takeDraw_inv s hi)
  exact ⟨_, by rw [execRxAccept, hr, rxFinish]⟩

theorem execTxBuild_answers {s : State} (hi : Inv s) : ∃ t, execTxBuild s = .next t := by
  obtain ⟨r, hr, -⟩ := txBuild_inv s.pin s hi
  simp only [execTxBuild, hr]
  exact ⟨_, rfl⟩

theorem execScTick_answers {s : State} (hi : Inv s) : ∃ t, execScTick s = .next t := by
  obtain ⟨r, hr, -⟩ := scTick_inv s hi
  simp only [execScTick, hr]
  exact ⟨_, rfl⟩

theorem exec_request_answers {i : Instr} {s : State} (hreq : i.responses ≠ []) (hi : Inv s) :
    ∃ t, exec i s = .next t := by
  cases i
  case nop | ckInit | ckUpdate | ckFinal | reset => exact ⟨_, rfl⟩
  case rxAccept b => exact execRxAccept_answers b hi
  case txBuild => exact execTxBuild_answers hi
  case scTick => exact execScTick_answers hi
  all_goals exact absurd rfl hreq

theorem serve_answers (x : Stimulus) {s : State} (hi : Inv s) : ∃ t, serve x s = .next t := by
  cases x with
  | resetInput => exact ⟨_, rfl⟩
  | request w p =>
    simp only [serve]
    cases hd : decodeRequest w with
    | error e => exact ⟨_, rfl⟩
    | ok i =>
      have hreq : i.responses ≠ [] := decodeRequest_ok hd ▸ opInstr_responses_ne_nil _ _ _
      have hp : Inv (s.withPin p) := Inv.of_sc s _ hi rfl rfl rfl rfl rfl hi.sc hi.comm
      exact exec_request_answers hreq hp

/-- Settles O58: a waiting core waits on, and serving a stimulus under the invariant answers, request by request. -/
theorem stepNeverStopsUnderInvariant : Obligations.StepNeverStopsUnderInvariant := by
  unfold Obligations.StepNeverStopsUnderInvariant
  intro s hi
  cases hq : s.queue with
  | nil => exact ⟨s, step_of_empty_queue hq⟩
  | cons x q =>
    rw [step_of_queue s x q hq]
    have hw : Inv (s.withQueue q) := Inv.of_sc s _ hi rfl rfl rfl rfl rfl hi.sc hi.comm
    exact serve_answers x hw

end Sys2Proof.Machine
end

section
/-! PROOF. The encodings (R70 to R72, R76 to R81): which request words are legal and what they decode to, the row that a
key selects and the first row of the opcode table that takes it, and the payloads received and sent; from these both
round trips. -/

namespace Sys2Proof

/-! Request words -/

/-- The fields of a legal request word: none of R72's three conditions holds. -/
structure LegalFields (sel : BitVec 1) (op : BitVec 4) (arg : Byte) : Prop where
  op_lt : op.toNat < 8
  sel_zero : sel = 1#1 → op = 1#4 ∨ op = 2#4 ∨ op = 3#4
  arg_zero : arg ≠ 0#8 → op = 2#4 ∨ op = 4#4

theorem legalFields_iff (sel : BitVec 1) (op : BitVec 4) (arg : Byte) :
    LegalFields sel op arg ↔
      op.toNat < 8 ∧ (sel = 1#1 → op = 1#4 ∨ op = 2#4 ∨ op = 3#4) ∧ (arg ≠ 0#8 → op = 2#4 ∨ op = 4#4) :=
  ⟨fun ⟨hop, hsel, harg⟩ => ⟨hop, hsel, harg⟩, fun ⟨hop, hsel, harg⟩ => ⟨hop, hsel, harg⟩⟩

/-- R71, R72: a word decodes where its fields are legal, to the operation that they select. -/
theorem decodeRequest_eq_ok_iff (w : BitVec 13) (i : Instr) :
    decodeRequest w = .ok i ↔
      LegalFields (reqSel w) (reqOp w) (reqArg w) ∧ opInstr (reqOp w) (CkSel.ofBit (reqSel w)) (reqArg w) = i := by
  simp only [decodeRequest]
  split_ifs with hop hsel harg
  · exact ⟨nofun, fun h => absurd h.1.op_lt (by omega)⟩
  · exact ⟨nofun, fun h => absurd (h.1.sel_zero hsel.1) hsel.2⟩
  · exact ⟨nofun, fun h => absurd (h.1.arg_zero harg.1) harg.2⟩
  · have hl : LegalFields (reqSel w) (reqOp w) (reqArg w) := ⟨by omega, by tauto, by tauto⟩
    simp [hl]

theorem decodeRequest_is_error_iff (w : BitVec 13) :
    (∃ e, decodeRequest w = .error e) ↔ ¬LegalFields (reqSel w) (reqOp w) (reqArg w) := by
  constructor
  · rintro ⟨e, he⟩ hl
    rw [(decodeRequest_eq_ok_iff w _).2 ⟨hl, rfl⟩] at he
    cases he
  · intro hl
    cases hd : decodeRequest w with
    | error e => exact ⟨e, rfl⟩
    | ok i => exact absurd ((decodeRequest_eq_ok_iff w i).1 hd).1 hl

theorem decodeRequest_reqWord {sel : BitVec 1} {op : BitVec 4} {arg : Byte} (h : LegalFields sel op arg) :
    decodeRequest (reqWord sel op arg) = .ok (opInstr op (CkSel.ofBit sel) arg) := by
  rw [decodeRequest_eq_ok_iff]
  simpa using h

theorem LegalFields.op_cases {sel : BitVec 1} {op : BitVec 4} {arg : Byte} (h : LegalFields sel op arg) :
    op = 0#4 ∨ op = 1#4 ∨ op = 2#4 ∨ op = 3#4 ∨ op = 4#4 ∨ op = 5#4 ∨ op = 6#4 ∨ op = 7#4 := by
  have key : ∀ o : BitVec 4, o.toNat < 8 →
      o = 0#4 ∨ o = 1#4 ∨ o = 2#4 ∨ o = 3#4 ∨ o = 4#4 ∨ o = 5#4 ∨ o = 6#4 ∨ o = 7#4 := by decide
  exact key op h.op_lt

/-- The fields that an operation's instruction drops are the ones that R72 wants 0, so its word has them back. -/
theorem encode_opInstr {x : CkSel} {op : BitVec 4} {arg : Byte} (h : LegalFields x.bit op arg) :
    encode (opInstr op x arg) = .request (reqWord x.bit op arg) := by
  have hx (hop : ¬(op = 1#4 ∨ op = 2#4 ∨ op = 3#4)) : x = .rx := by
    cases x with
    | rx => rfl
    | tx => exact absurd (h.sel_zero rfl) hop
  have ha (hop : ¬(op = 2#4 ∨ op = 4#4)) : arg = 0#8 := by_contra fun hne => hop (h.arg_zero hne)
  rcases h.op_cases with rfl | rfl | rfl | rfl | rfl | rfl | rfl | rfl
  · rw [hx (by decide), ha (by decide)]; rfl
  · rw [ha (by decide)]; rfl
  · rfl
  · rw [ha (by decide)]; rfl
  · rw [hx (by decide)]; rfl
  · rw [hx (by decide), ha (by decide)]; rfl
  · rw [hx (by decide), ha (by decide)]; rfl
  · rw [hx (by decide), ha (by decide)]; rfl

theorem opInstr_wf (op : BitVec 4) (x : CkSel) (arg : Byte) : (opInstr op x arg).wf = true := by
  unfold opInstr
  split <;> rfl

/-! The fields as numbers -/

theorem reqOp_toNat (w : BitVec 13) : (reqOp w).toNat = w.toNat / 256 % 16 := by
  simp [reqOp, Nat.shiftRight_eq_div_pow]

theorem reqOp_eq_iff (w : BitVec 13) (op : BitVec 4) : reqOp w = op ↔ w.toNat / 256 % 16 = op.toNat := by
  rw [← BitVec.toNat_inj, reqOp_toNat]

theorem reqSel_eq_one_iff (w : BitVec 13) : reqSel w = 1#1 ↔ w.toNat / 4096 = 1 := by
  have := w.isLt
  simp [← BitVec.toNat_inj, reqSel, Nat.shiftRight_eq_div_pow]
  omega

theorem reqArg_eq_zero_iff (w : BitVec 13) : reqArg w = 0#8 ↔ w.toNat % 256 = 0 := by
  simp [← BitVec.toNat_inj, reqArg]

/-- Settles O2: the decoder refuses a word where its fields are not legal, which says R72's conditions as numbers. -/
theorem requestIllegalExactlyWhen : Obligations.RequestIllegalExactlyWhen := by
  unfold Obligations.RequestIllegalExactlyWhen
  intro w
  rw [decodeRequest_is_error_iff, legalFields_iff, reqOp_toNat, reqSel_eq_one_iff, ne_eq, reqArg_eq_zero_iff]
  simp only [reqOp_eq_iff, BitVec.toNat_ofNat, List.mem_cons, List.not_mem_nil, or_false]
  omega

/-! Keys of the byte decode -/

/-- A row of the byte decode is its row of R80 at the key that it names. -/
theorem instr_of_rxRowKey {i : Instr} {row : RxRow} {st : RxTag} {b : Byte} (h : i.rxRowKey = some (row, st, b)) :
    row.instr st b = i := by
  cases i <;> cases h <;> rfl

/-- A well-formed row of the byte decode is what R80 selects for the key and the guard bits of its encoding. -/
theorem encode_of_rxRowKey {i : Instr} {row : RxRow} {st : RxTag} {b : Byte} (hk : i.rxRowKey = some (row, st, b))
    (hwf : i.wf = true) :
    ∃ last hit rnd, encode i = .rxByte (rxKey st b) last hit rnd ∧ rxRowOf st b last hit rnd = row := by
  cases i <;> cases hk
  case rxIgnored | rxFailedNoise => exact ⟨_, _, _, rfl, if_neg (by simpa [Instr.wf] using hwf)⟩
  case rxLenOk =>
    simp only [Instr.wf, Bool.and_eq_true, decide_eq_true_eq] at hwf
    have hb : b ≠ 0#8 := by rintro rfl; simp at hwf
    exact ⟨_, _, _, rfl, (if_neg hb).trans (if_pos (by omega))⟩
  case rxLenBadNeg =>
    simp only [Instr.wf, decide_eq_true_eq] at hwf
    have hb : b ≠ 0#8 := by rintro rfl; simp at hwf
    exact ⟨_, _, _, rfl, (if_neg hb).trans (if_neg (by omega))⟩
  case rxIllegalStateSync =>
    refine ⟨_, _, _, rfl, ?_⟩
    cases st
    case illegal5 | illegal6 | illegal7 => rfl
    all_goals cases hwf
  case rxIllegalState =>
    simp only [Instr.wf, Bool.and_eq_true, bne_iff_ne] at hwf
    obtain ⟨hst, hb⟩ := hwf
    refine ⟨_, _, _, rfl, ?_⟩
    cases st
    case illegal5 | illegal6 | illegal7 => exact if_neg hb
    all_goals cases hst
  all_goals exact ⟨_, _, _, rfl, rfl⟩

theorem decode_encode_of_rxRowKey {i : Instr} {row : RxRow} {st : RxTag} {b : Byte}
    (hk : i.rxRowKey = some (row, st, b)) (hwf : i.wf = true) : decode (encode i) = .ok i := by
  obtain ⟨last, hit, rnd, he, hrow⟩ := encode_of_rxRowKey hk hwf
  rw [he, decode, decodeRxKey_rxKey, hrow, instr_of_rxRowKey hk]

/-! The rows of the opcode table -/

theorem rxKey_fields (k : BitVec 11) : k.extractLsb' 8 3 ++ k.extractLsb' 0 8 = k :=
  BitVec.extractLsb'_append_extractLsb'

/-- The state and the byte of a key meet a row's match and mask each for itself (R80). -/
theorem takes_rxKey (r : RxTableRow) (st : RxTag) (b : Byte) (last hit rnd : Bool) :
    r.takes (rxKey st b) last hit rnd =
      (st.bits &&& r.mask.extractLsb' 8 3 == r.pattern.extractLsb' 8 3 &&
        b &&& r.mask.extractLsb' 0 8 == r.pattern.extractLsb' 0 8 && r.guard last hit rnd) := by
  have hkey : rxKey st b &&& r.mask = r.pattern ↔
      st.bits &&& r.mask.extractLsb' 8 3 = r.pattern.extractLsb' 8 3 ∧
        b &&& r.mask.extractLsb' 0 8 = r.pattern.extractLsb' 0 8 := by
    constructor
    · intro h
      rw [← h, BitVec.extractLsb'_and, BitVec.extractLsb'_and, rxKey_state, rxKey_byte]
      exact ⟨rfl, rfl⟩
    · rintro ⟨hst, hb⟩
      rw [← rxKey_fields (rxKey st b &&& r.mask), BitVec.extractLsb'_and, BitVec.extractLsb'_and, rxKey_state,
        rxKey_byte, hst, hb, rxKey_fields]
  rw [RxTableRow.takes, Bool.eq_iff_iff]
  simp only [Bool.and_eq_true, beq_iff_eq, hkey]

/-- The mask of the length rows reads the sign bit (R122, R123). -/
theorem and_signBit (b : Byte) : b &&& 0x80#8 = if b.toNat < 128 then 0#8 else 0x80#8 := by revert b; decide

/-- Settles O5: under the state of the key, the rows that can take it are told apart by the byte and the guard bits that
R80 names for that state. -/
theorem rxDecodeIsFirstMatchingRow : Obligations.RxDecodeIsFirstMatchingRow := by
  unfold Obligations.RxDecodeIsFirstMatchingRow
  intro st b last hit rnd
  have hall : b &&& 0xFF#8 = b := BitVec.and_allOnes
  cases st
  case readPayload => cases last <;> simp [rxTable, takes_rxKey, RxTag.bits, rxRowOf]
  case readChecksum => cases hit <;> cases last <;> simp [rxTable, takes_rxKey, RxTag.bits, rxRowOf]
  case readLength =>
    by_cases h0 : b = 0#8
    · simp [rxTable, takes_rxKey, RxTag.bits, rxRowOf, h0]
    · by_cases hb : b.toNat < 128 <;> simp [rxTable, takes_rxKey, RxTag.bits, rxRowOf, hall, and_signBit, h0, hb]
  case waitSync | illegal5 | illegal6 | illegal7 =>
    by_cases hb : b = 0x0A#8 <;> simp [rxTable, takes_rxKey, RxTag.bits, rxRowOf, hall, hb]
  case failed =>
    by_cases hb : b = 0x0A#8 <;> cases rnd <;> simp [rxTable, takes_rxKey, RxTag.bits, rxRowOf, hall, hb]

/-! Payloads -/

theorem decodeCommand_velocityPayload (v : Word32) (rest : List Byte) :
    decodeCommand (velocityPayload v ++ rest) = .cmdVelocity v rest := by
  simp only [decodeCommand, commandOf_velocity]
  rfl

theorem decodeCommand_modePayload {m : Byte} (hm : isMode m = true) (rest : List Byte) :
    decodeCommand (modePayload m ++ rest) = .cmdTempMode m rest := by
  simp only [decodeCommand, commandOf_mode m rest hm]
  rfl

theorem decodeCommand_ignored {p : List Byte} (h : commandOf p = .ignored) : decodeCommand p = .cmdIgnored p := by
  simp only [decodeCommand, h]

theorem decodeSent_handshakePayload (f : Byte) : decodeSent (handshakePayload f) = .ok (.txHandshake f) := rfl

theorem decodeSent_velocityPayload (w : Word32) : decodeSent (velocityPayload w) = .ok (.txVelocityEcho w) := by
  have hw : fromLe32 (w.extractLsb' 0 8) (w.extractLsb' 8 8) (w.extractLsb' 16 8) (w.extractLsb' 24 8) = w :=
    Option.some.inj (bodyWord_le32 w [])
  exact congrArg (fun v => Except.ok (Instr.txVelocityEcho v)) hw

theorem decodeSent_modePayload {m : Byte} (hm : isMode m = true) :
    decodeSent (modePayload m) = .ok (.txTempModeEcho m) := by
  simp [decodeSent, modePayload, hm]

theorem decode_encode_opInstr {op : BitVec 4} {x : CkSel} {arg : Byte} (h : LegalFields x.bit op arg) :
    decode (encode (opInstr op x arg)) = .ok (opInstr op x arg) := by
  rw [encode_opInstr h, decode, decodeRequest_reqWord h, CkSel.ofBit_bit]

/-- Settles O3: a request is the operation of legal fields, a row of the byte decode is what its key selects, and a
payload is read back by its tag and length. -/
theorem decodeEncodeRoundTrip : Obligations.DecodeEncodeRoundTrip := by
  unfold Obligations.DecodeEncodeRoundTrip
  intro i hwf
  cases i
  case nop => exact decode_encode_opInstr (op := 0#4) (x := .rx) (arg := 0#8) (by constructor <;> decide)
  case ckInit x => exact decode_encode_opInstr (op := 1#4) (x := x) (arg := 0#8) (by constructor <;> simp)
  case ckUpdate x b => exact decode_encode_opInstr (op := 2#4) (x := x) (arg := b) (by constructor <;> simp)
  case ckFinal x => exact decode_encode_opInstr (op := 3#4) (x := x) (arg := 0#8) (by constructor <;> simp)
  case rxAccept b => exact decode_encode_opInstr (op := 4#4) (x := .rx) (arg := b) (by constructor <;> simp [CkSel.bit])
  case txBuild => exact decode_encode_opInstr (op := 5#4) (x := .rx) (arg := 0#8) (by constructor <;> decide)
  case scTick => exact decode_encode_opInstr (op := 6#4) (x := .rx) (arg := 0#8) (by constructor <;> decide)
  case reset => exact decode_encode_opInstr (op := 7#4) (x := .rx) (arg := 0#8) (by constructor <;> decide)
  case cmdVelocity v rest => exact congrArg Except.ok (decodeCommand_velocityPayload v rest)
  case cmdTempMode m rest =>
    simp only [Instr.wf, Bool.and_eq_true] at hwf
    exact congrArg Except.ok (decodeCommand_modePayload hwf.1 rest)
  case cmdIgnored p =>
    simp only [Instr.wf, Bool.and_eq_true, decide_eq_true_eq] at hwf
    exact congrArg Except.ok (decodeCommand_ignored hwf.2)
  case txHandshake f => exact decodeSent_handshakePayload f
  case txVelocityEcho w => exact decodeSent_velocityPayload w
  case txTempModeEcho m => exact decodeSent_modePayload hwf
  all_goals exact decode_encode_of_rxRowKey rfl hwf

/-! What a layer decodes is well-formed and encodes back -/

theorem decodeRequest_encodes {w : BitVec 13} {i : Instr} (h : decodeRequest w = .ok i) :
    i.wf = true ∧ encode i = .request w := by
  obtain ⟨hl, rfl⟩ := (decodeRequest_eq_ok_iff w i).1 h
  refine ⟨opInstr_wf _ _ _, ?_⟩
  rw [encode_opInstr (by rwa [CkSel.bit_ofBit]), CkSel.bit_ofBit, reqWord_fields]

/-- R81 with R9: the bytes that a row ignores are the ones past its tag and body. -/
theorem decodeCommand_encodes {p : List Byte} (hmin : 1 ≤ p.length) (hmax : p.length ≤ 127) :
    (decodeCommand p).wf = true ∧ encode (decodeCommand p) = .command p := by
  cases hc : commandOf p with
  | velocity v =>
    have hd : decodeCommand p = .cmdVelocity v (p.drop 5) := by simp only [decodeCommand, hc]
    rw [hd, encode, ← commandOf_eq_velocity p v hc]
    simp only [Instr.wf, List.length_drop, decide_eq_true_eq, and_true]
    omega
  | temperature m =>
    obtain ⟨hm, hp⟩ := commandOf_eq_temperature p m hc
    have hd : decodeCommand p = .cmdTempMode m (p.drop 2) := by simp only [decodeCommand, hc]
    rw [hd, encode, ← hp]
    simp only [Instr.wf, hm, List.length_drop, Bool.true_and, decide_eq_true_eq, and_true]
    omega
  | ignored =>
    rw [decodeCommand_ignored hc]
    simp [Instr.wf, encode, hc, hmin, hmax]

theorem decodeSent_encodes {p : List Byte} {i : Instr} (h : decodeSent p = .ok i) :
    i.wf = true ∧ encode i = .sent p := by
  unfold decodeSent at h
  split at h
  · split_ifs at h with h0 h2
    · cases h
      exact ⟨rfl, by rw [encode, handshakePayload, h0]⟩
    · cases h
      exact ⟨h2.2, by rw [encode, modePayload, h2.1]⟩
  · split_ifs at h with h1
    cases h
    exact ⟨rfl, by rw [encode, velocityPayload, le32_fromLe32, h1]⟩
  · cases h

/-- Settles O4: layer by layer. -/
theorem encodeDecodeRoundTrip : Obligations.EncodeDecodeRoundTrip :=
  ⟨fun _ _ => decodeRequest_encodes, fun _ => decodeCommand_encodes, fun _ _ => decodeSent_encodes⟩

/-- Settles O1: each word, key and payload of the tables, decoded. -/
theorem specWordsDecode : Obligations.SpecWordsDecode := by
  unfold Obligations.SpecWordsDecode
  decide

end Sys2Proof
end

section
/-! PROOF. RX_ACCEPT as the rows of its decode (R80, R120), and the sends of SC (R77 to R79, R183) as one fact about a
payload that fits. -/

namespace Sys2Proof.Machine

/-! The row that a state selects -/

theorem rxSelect_ok {s : State} {b : Byte} {rnd : Bool} {row : RxRow} (h : s.rxSelect b rnd = .ok row) :
    ∃ last hit, rxRowOf s.rx.state b last hit rnd = row := by
  unfold State.rxSelect at h
  split at h
  · next hs =>
    split at h
    · cases h
    · cases h; rw [hs]; exact ⟨_, _, rfl⟩
  · cases h; exact ⟨_, _, rfl⟩

/-- The rows whose key fixes the byte are selected for that byte alone (R80). -/
theorem rxRowOf_byte {st : RxTag} {b : Byte} {last hit rnd : Bool} {row : RxRow}
    (h : rxRowOf st b last hit rnd = row) :
    (row ∈ [.sync, .resync, .resyncReject, .illegalStateSync] → b = magic) ∧ (row = .lenBadZero → b = 0#8) := by
  subst h
  unfold rxRowOf
  cases st <;> dsimp only <;> split_ifs with hb <;> simp [hb]

/-- The row that the decode selects, run as an instruction, runs as RX_ACCEPT (log entry 8). -/
theorem rxRowExec_selected {s : State} {b : Byte} {row : RxRow} (h : s.rxSelect b s.takeDraw.1 = .ok row) :
    rxRowExec row b s = exec (.rxAccept b) s := by
  have hd : s.takeDraw.2.rxSelect b s.takeDraw.1 = .ok row := h
  change _ = rxFinish (rxAccept b s.takeDraw.1 s.takeDraw.2)
  simp only [rxRowExec, rxAccept, hd, if_true]

/-- The instruction of a selected row is the row on the byte accepted. -/
theorem exec_instr_of_rxRowOf {s : State} {b : Byte} {last hit rnd : Bool} {row : RxRow}
    (h : rxRowOf s.rx.state b last hit rnd = row) : exec (row.instr s.rx.state b) s = rxRowExec row b s := by
  obtain ⟨hmagic, hzero⟩ := rxRowOf_byte h
  cases row
  case sync | resync | resyncReject => rw [hmagic (by decide)]; rfl
  case lenBadZero => rw [hzero rfl]; rfl
  case illegalStateSync => rw [hmagic (by decide)]; exact if_pos rfl
  case illegalState => exact if_pos rfl
  all_goals rfl

/-- Settles O19: the selected row's instruction is that row on the byte, and so is RX_ACCEPT. -/
theorem rxAcceptIsSelectedRow : Obligations.RxAcceptIsSelectedRow := by
  unfold Obligations.RxAcceptIsSelectedRow
  intro s b row hsel
  obtain ⟨last, hit, hrow⟩ := rxSelect_ok hsel
  rw [exec_instr_of_rxRowOf hrow, rxRowExec_selected hsel]

/-! Sends -/

/-- A send of a payload that fits builds its frame, leaves TXCK with the payload's vector, and writes the frame's bytes
in index order; nothing else changes (R183). -/
theorem sendFrame_built {q : List Byte} {s : State} (hq : q.length ≤ 127) (hn : s.cfg.n ≤ 127) :
    ∃ t, sendFrame q s = .ok t ∧ Built s t q ∧
      t = { s with
        tx := t.tx, txck := t.txck, builds := s.builds + 1
        trace := s.trace ++ (frameOf s.cfg.n q).map Event.writeByte } := by
  have hframe := presentedFrame_built s s.cfg.n q hq hn
  have hck : (ckRan s .tx (ckRun (ckSeed s.cfg.n) q) q.length).txck = ⟨ckRun (ckSeed s.cfg.n) q⟩ :=
    ckRan_ck s .tx _ _
  exact ⟨_, sendFrame_fits q s hq hn, ⟨hframe, _, ckRunInstrs_eq .tx q s, hck.symm⟩, rfl⟩

/-- Settles O48: each of the three instructions is a send of its payload, which has at most 5 bytes. -/
theorem sentPayloadsAreFramed : Obligations.SentPayloadsAreFramed := by
  unfold Obligations.SentPayloadsAreFramed
  intro s m hcfg hm iq hiq
  have hn : s.cfg.n ≤ 127 := hcfg.2.1
  have hsend : exec iq.1 s = ofExcept (sendFrame iq.2 s) ∧ iq.2.length ≤ 127 := by
    simp only [List.mem_cons, List.not_mem_nil, or_false] at hiq
    rcases hiq with rfl | rfl | rfl
    · exact ⟨if_pos rfl, by simp⟩
    · exact ⟨if_pos rfl, by simp⟩
    · exact ⟨if_pos ((isMode_iff m).2 hm), by simp⟩
  obtain ⟨hexec, hlen⟩ := hsend
  obtain ⟨t, ht, hbuilt⟩ := sendFrame_built hlen hn
  exact ⟨t, hexec.trans ((ofExcept_eq_next _ t).2 ht), hbuilt⟩

end Sys2Proof.Machine
end

section
/-! PROOF. The checksum cascade (R101 to R107): what its operations do to the state, and the value of accumulator c
after a run of bytes. That value is linear in the bytes, with weights that depend on a byte's distance from the end
alone, so what a substitution changes (R106) is one weight times the difference of the bytes, and a swap (R107) is two
substitutions. -/

namespace Sys2Proof.Machine

/-! The operations -/

/-- R70, R102: the word of CK_UPDATE as the sum of its fields, the byte in the lowest place. -/
theorem decodeRequest_ckUpdate {w : BitVec 13} {x : CkSel} {b : Byte}
    (hw : w.toNat = 4096 * x.bit.toNat + 512 + b.toNat) : decodeRequest w = .ok (.ckUpdate x b) := by
  have hword : w = reqWord x.bit 2#4 b := by
    rw [← BitVec.toNat_inj, hw, reqWord, BitVec.toNat_append, BitVec.toNat_append,
      ← Nat.shiftLeft_add_eq_or_of_lt (by omega), ← Nat.shiftLeft_add_eq_or_of_lt (by omega),
      Nat.shiftLeft_eq, Nat.shiftLeft_eq, BitVec.toNat_ofNat]
    omega
  have hlegal : LegalFields x.bit 2#4 b := by constructor <;> simp
  rw [hword, decodeRequest_reqWord hlegal, CkSel.ofBit_bit]
  rfl

@[simp] theorem State.respond_ck (s : State) (r : Response) (o : Output) (x : CkSel) :
    (s.respond r o).ck x = s.ck x := by
  cases x <;> rfl

theorem State.withCk_ck_of_ne (s : State) {x y : CkSel} (c : CkState) (h : y ≠ x) :
    (s.withCk x c).ck y = s.ck y := by
  match x, y, h with
  | .rx, .tx, _ | .tx, .rx, _ => rfl

/-- An operation that writes one cascade and answers OK leaves the other cascade and everything else as it was. -/
theorem withCk_respond_frame (s : State) (x : CkSel) (c : CkState) :
    let t := (s.withCk x c).respond .ok .none
    (∀ y, y ≠ x → t.ck y = s.ck y) ∧
      t = { s with rxck := t.rxck, txck := t.txck, reports := s.reports ++ [⟨.ok, .none⟩] } := by
  refine ⟨fun y hy => ?_, ?_⟩
  · rw [State.respond_ck, State.withCk_ck_of_ne s c hy]
  · cases x <;> rfl

/-- Settles O13: CK_INIT writes the seed to one cascade. -/
theorem ckInitSeedsOneCascade : Obligations.CkInitSeedsOneCascade := by
  unfold Obligations.CkInitSeedsOneCascade
  refine ⟨rfl, rfl, fun x s => ⟨_, rfl, ?_, withCk_respond_frame s x _⟩⟩
  rw [State.respond_ck, State.ckInit_ck]
  exact isSeed_ckSeed _

/-- Settles O14: the byte of the word is its last field, and CK_UPDATE writes the updated levels to one cascade. -/
theorem ckUpdateAddsLevelByLevel : Obligations.CkUpdateAddsLevelByLevel := by
  unfold Obligations.CkUpdateAddsLevelByLevel
  refine ⟨fun b => ⟨decodeRequest_ckUpdate ?_, decodeRequest_ckUpdate ?_⟩,
    fun x b s => ⟨_, rfl, ?_, withCk_respond_frame s x _⟩⟩
  · simp only [CkSel.bit]; bv_omega
  · simp only [CkSel.bit]; bv_omega
  · rw [State.respond_ck, State.ckUpdate_ck]
    exact ckUpdated_ckAdd _ b

/-- Settles O15: CK_FINAL answers with the accumulators and writes nothing. -/
theorem ckFinalReadsVector : Obligations.CkFinalReadsVector := by
  unfold Obligations.CkFinalReadsVector
  exact ⟨rfl, rfl, fun _ _ => rfl⟩

/-! The closed form (R105) -/

/-- What the bytes of a run add to accumulator `c`: each byte by the weight of its distance from the end. -/
def weightedSum (c : Nat) : List Byte → Byte
  | [] => 0
  | b :: bs => (Nat.choose (bs.length + c) c : Byte) * b + weightedSum c bs

/-- Accumulator `c` after CK_INIT and a run of bytes: what the seed has become, and what the bytes have added. -/
def accAfter (c : Nat) (bs : List Byte) : Byte := (Nat.choose (bs.length + c - 1) c : Byte) + weightedSum c bs

theorem weightedSum_zero_append (bs : List Byte) (b : Byte) :
    weightedSum 0 (bs ++ [b]) = weightedSum 0 bs + b := by
  induction bs with
  | nil => simp [weightedSum]
  | cons b' bs ih => simp only [List.cons_append, weightedSum, ih, Nat.choose_zero_right]; ring

/-- One more byte moves every byte one step further from the end: Pascal's rule on its weight. -/
theorem weightedSum_succ_append (c : Nat) (bs : List Byte) (b : Byte) :
    weightedSum (c + 1) (bs ++ [b]) = weightedSum (c + 1) bs + weightedSum c (bs ++ [b]) := by
  induction bs with
  | nil => simp [weightedSum]
  | cons b' bs ih =>
    have pascal : (bs.length + 1 + (c + 1)).choose (c + 1) =
        (bs.length + 1 + c).choose c + (bs.length + (c + 1)).choose (c + 1) := by
      rw [← Nat.add_assoc, Nat.choose_succ_succ, Nat.add_right_comm, Nat.add_assoc]
    simp only [List.cons_append, weightedSum, ih, List.length_append, List.length_singleton, pascal, Nat.cast_add]
    ring

theorem accAfter_nil (c : Nat) : accAfter c [] = if c = 0 then 1#8 else 0#8 := by
  cases c <;> simp [accAfter, weightedSum]

/-- Level 0 adds the byte (R102). -/
theorem accAfter_zero_append (bs : List Byte) (b : Byte) : accAfter 0 (bs ++ [b]) = accAfter 0 bs + b := by
  simp only [accAfter, weightedSum_zero_append, Nat.choose_zero_right]; ring

/-- Every other level adds the level below as already updated (R102). -/
theorem accAfter_succ_append (c : Nat) (bs : List Byte) (b : Byte) :
    accAfter (c + 1) (bs ++ [b]) = accAfter (c + 1) bs + accAfter c (bs ++ [b]) := by
  have pascal : (bs.length + 1 + (c + 1) - 1).choose (c + 1) =
      (bs.length + 1 + c - 1).choose c + (bs.length + (c + 1) - 1).choose (c + 1) := by
    simp only [← Nat.add_assoc, Nat.add_sub_cancel, Nat.add_right_comm _ 1 c, Nat.choose_succ_succ]
  simp only [accAfter, weightedSum_succ_append, List.length_append, List.length_singleton, pascal, Nat.cast_add]
  ring

/-- R105: a run through a fresh cascade leaves in each accumulator the value of the closed form. -/
theorem ckRun_ckSeed_getElem? {n c : Nat} (bs : List Byte) (hc : c < n) :
    (ckRun (ckSeed n) bs)[c]? = some (accAfter c bs) := by
  induction bs using List.reverseRecOn generalizing c with
  | nil => rw [ckRun_nil, ckSeed_getElem? n c hc, accAfter_nil]
  | append_singleton bs b ih =>
    rw [ckRun_append, ckRun_cons, ckRun_nil]
    induction c with
    | zero => rw [ckAdd_getElem?_zero, ih hc, Option.map_some, accAfter_zero_append]
    | succ c ihc => rw [ckAdd_getElem?_succ _ b c _ _ (ih hc) (ihc (by omega)), accAfter_succ_append]

/-- Two runs through a fresh cascade leave one vector where they leave one value in each accumulator. -/
theorem ckRun_ckSeed_ext {n : Nat} {as bs : List Byte} (h : ∀ c, c < n → accAfter c as = accAfter c bs) :
    ckRun (ckSeed n) as = ckRun (ckSeed n) bs := by
  refine List.ext_getElem? fun c => ?_
  rcases Nat.lt_or_ge c n with hc | hc
  · rw [ckRun_ckSeed_getElem? as hc, ckRun_ckSeed_getElem? bs hc, h c hc]
  · rw [List.getElem?_eq_none (by simpa using hc), List.getElem?_eq_none (by simpa using hc)]

/-- The weighted bytes as the sum that R105 writes. -/
theorem weightedSum_eq_sum (c : Nat) (bs : List Byte) :
    weightedSum c bs = BitVec.ofNat 8 (∑ i ∈ Finset.range bs.length,
      Nat.choose (bs.length - (i + 1) + c) c * (bs.getD i 0#8).toNat) := by
  induction bs with
  | nil => rfl
  | cons b bs ih =>
    rw [weightedSum, ih, List.length_cons, Finset.sum_range_succ', BitVec.ofNat_add, add_comm]
    simp [BitVec.ofNat_mul]

theorem accAfter_toNat (c : Nat) (bs : List Byte) :
    (accAfter c bs).toNat = (Nat.choose (bs.length + c - 1) c + ∑ i ∈ Finset.range bs.length,
      Nat.choose (bs.length - (i + 1) + c) c * (bs.getD i 0#8).toNat) % 256 := by
  rw [accAfter, weightedSum_eq_sum, BitVec.natCast_eq_ofNat, ← BitVec.ofNat_add, BitVec.toNat_ofNat]

/-- After CK_INIT and the updates of a sequence each accumulator of the selected cascade holds `accAfter`. -/
theorem ckRan_ck_getElem? {s : State} {c : Nat} (x : CkSel) (bs : List Byte) (k : Nat) (hc : c < s.cfg.n) :
    ((ckRan s x (ckRun (ckSeed s.cfg.n) bs) k).ck x).acc[c]? = some (accAfter c bs) := by
  rw [ckRan_ck, ckRun_ckSeed_getElem? bs hc]

/-- Settles O16: each accumulator holds `accAfter`, whose weighted sum is R105's. -/
theorem cascadeHasClosedForm : Obligations.CascadeHasClosedForm := by
  unfold Obligations.CascadeHasClosedForm
  intro x bs s
  refine ⟨_, ckRunInstrs_eq x bs s, ?_, fun _ c hc => ?_⟩
  · rintro rfl
    rw [ckRan_ck]
    exact isSeed_ckSeed _
  · rw [ckRan_ck_getElem? x bs _ hc, Option.map_some, accAfter_toNat]

/-! Substitutions and swaps (R106, R107) -/

/-- Another byte in one place changes each accumulator by the place's weight times the difference of the bytes. -/
theorem accAfter_substitute (c : Nat) (pre post : List Byte) (a b : Byte) :
    accAfter c (pre ++ b :: post) - accAfter c (pre ++ a :: post) =
      (Nat.choose (post.length + c) c : Byte) * (b - a) := by
  have hsum : weightedSum c (pre ++ b :: post) - weightedSum c (pre ++ a :: post) =
      (Nat.choose (post.length + c) c : Byte) * (b - a) := by
    induction pre with
    | nil => simp only [List.nil_append, weightedSum]; ring
    | cons p pre ih =>
      simp only [List.cons_append, weightedSum, List.length_append, List.length_cons, add_sub_add_left_eq_sub, ih]
  simpa only [accAfter, List.length_append, List.length_cons, add_sub_add_left_eq_sub] using hsum

/-- A swap is two substitutions, so the difference of the bytes counts by the difference of the two weights. -/
theorem accAfter_swap (c : Nat) (pre mid post : List Byte) (a b : Byte) :
    accAfter c (pre ++ b :: (mid ++ a :: post)) - accAfter c (pre ++ a :: (mid ++ b :: post)) =
      ((Nat.choose (mid.length + (post.length + 1) + c) c : Byte) - (Nat.choose (post.length + c) c : Byte)) *
        (b - a) := by
  have first := accAfter_substitute c pre (mid ++ b :: post) a b
  have second := accAfter_substitute c (pre ++ b :: mid) post b a
  simp only [List.append_assoc, List.cons_append, List.length_append, List.length_cons] at first second
  linear_combination first + second

/-- Settles O17: every byte has weight 1 in accumulator 0. -/
theorem substitutionAlwaysDetected : Obligations.SubstitutionAlwaysDetected := by
  unfold Obligations.SubstitutionAlwaysDetected
  intro x pre post a b s hn hab
  have hdiff : accAfter 0 (pre ++ b :: post) - accAfter 0 (pre ++ a :: post) = b - a := by
    simpa using accAfter_substitute 0 pre post a b
  refine ⟨_, _, _, _, ckRunInstrs_eq x _ s, ckRunInstrs_eq x _ s, ckRan_ck_getElem? x _ _ hn,
    ckRan_ck_getElem? x _ _ hn, hdiff, fun heq => hab ?_⟩
  rw [heq, sub_self] at hdiff
  exact (sub_eq_zero.1 hdiff.symm).symm

/-- A swap leaves accumulator 0, where every byte has weight 1, alone. -/
theorem accAfter_zero_swap (pre mid post : List Byte) (a b : Byte) :
    accAfter 0 (pre ++ a :: (mid ++ b :: post)) = accAfter 0 (pre ++ b :: (mid ++ a :: post)) := by
  have hswap := accAfter_swap 0 pre mid post a b
  rw [Nat.choose_zero_right, Nat.choose_zero_right, sub_self, zero_mul] at hswap
  exact (sub_eq_zero.1 hswap).symm

/-- In accumulator 1 the weights of the two places differ by their distance. -/
theorem accAfter_one_swap (pre mid post : List Byte) (a b : Byte) :
    accAfter 1 (pre ++ b :: (mid ++ a :: post)) - accAfter 1 (pre ++ a :: (mid ++ b :: post)) =
      BitVec.ofNat 8 (mid.length + 1) * (b - a) := by
  rw [accAfter_swap, Nat.choose_one_right, Nat.choose_one_right, ← BitVec.natCast_eq_ofNat]
  push_cast
  ring

/-- Settles O18: in accumulator 1 the weight of the difference is the distance, 1 for neighbours and 2 for bytes with one
between them. -/
theorem swapDetection : Obligations.SwapDetection := by
  unfold Obligations.SwapDetection
  intro x pre mid post a b s hn hab
  have hzero := accAfter_zero_swap pre mid post a b
  have hone := accAfter_one_swap pre mid post a b
  refine ⟨_, _, ckRunInstrs_eq x _ s, ckRunInstrs_eq x _ s, ?_, fun hn1 => ?_, fun hn2 =>
    ⟨_, _, ckRan_ck_getElem? x _ _ hn2, ckRan_ck_getElem? x _ _ hn2, hone, ?_, ?_⟩⟩
  · rw [ckRan_ck_getElem? x _ _ hn, ckRan_ck_getElem? x _ _ hn, hzero]
  · have hvec := ckRun_ckSeed_ext (n := s.cfg.n) fun c hc => (show c = 0 by omega) ▸ hzero
    rw [ckRan_ck, ckRan_ck, hvec]
  · rintro rfl heq
    rw [heq, sub_self, List.length_nil, BitVec.one_mul] at hone
    exact hab (sub_eq_zero.1 hone.symm).symm
  · intro hmid hba
    rw [hmid, hba] at hone
    exact (sub_eq_zero.1 hone).symm

end Sys2Proof.Machine
end

section
/-! PROOF. What RX_ACCEPT does in each receiver state (R121 to R128, R131), on the port and as a row: the state selects
the row, the row's action writes the receiver's registers and RXCK, and the draw moves the draw source alone. -/

namespace Sys2Proof.Machine

/-! The row that a state selects -/

theorem rxSelect_of_ne_readChecksum {s : State} (h : s.rx.state ≠ .readChecksum) (b : Byte) (rnd : Bool) :
    s.rxSelect b rnd =
      .ok (rxRowOf s.rx.state b (decide (s.rx.cnt.toNat + 1 = s.rx.len.toNat)) false rnd) := by
  unfold State.rxSelect
  split
  · contradiction
  · rfl

theorem rxSelect_readChecksum {s : State} {a : Byte} (h : s.rx.state = .readChecksum)
    (hle : s.rx.len.toNat ≤ s.rx.cnt.toNat) (ha : s.rxck.acc[s.rx.cnt.toNat - s.rx.len.toNat]? = some a) (b : Byte)
    (rnd : Bool) :
    s.rxSelect b rnd = .ok (rxRowOf .readChecksum b
      (decide (s.rx.cnt.toNat - s.rx.len.toNat + 1 = s.cfg.n)) (decide (b = a)) rnd) := by
  have hexp : s.ckExpected = some a := (if_pos hle).trans ha
  unfold State.rxSelect
  simp only [h, hexp]
  rfl

/-- A selected row completes, as an instruction and as RX_ACCEPT, with what its action gives. -/
theorem rxCompletes_of_row (row : RxRow) (b : Byte) (out : Option (List Byte)) {s : State} {r : RxUnit} {c : CkState}
    {resp : Response} (hsel : s.rxSelect b s.takeDraw.1 = .ok row)
    (hrun : rxRun row b s.takeDraw.2 = .ok ⟨(s.takeDraw.2.withRx r).withRxck c, resp, out⟩) :
    ∀ i ∈ [row.instr s.rx.state b, .rxAccept b], RxCompletes (exec i s) s r c resp (payloadOutput out) := by
  have hacc : rxAccept b s.takeDraw.1 s.takeDraw.2 = .ok ⟨(s.takeDraw.2.withRx r).withRxck c, resp, out⟩ := by
    have hd : s.takeDraw.2.rxSelect b s.takeDraw.1 = .ok row := hsel
    rw [rxAccept, hd]
    exact hrun
  have hport : RxCompletes (exec (.rxAccept b) s) s r c resp (payloadOutput out) :=
    ⟨_, congrArg rxFinish hacc, RxEnds.frame ⟨⟨b, hacc⟩, rfl⟩⟩
  intro i hi
  simp only [List.mem_cons, List.not_mem_nil, or_false] at hi
  rcases hi with rfl | rfl
  · rwa [rxAcceptIsSelectedRow s b row hsel]
  · exact hport

/-! WAIT_SYNC, FAILED and the illegal states -/

/-- Settles O21: WAIT_SYNC selects SYNC for the magic byte and IGNORED for any other. -/
theorem waitSyncLooksForMagic : Obligations.WaitSyncLooksForMagic := by
  unfold Obligations.WaitSyncLooksForMagic
  intro s h
  have hsel := rxSelect_of_ne_readChecksum (s := s) (by simp [h])
  refine ⟨rxCompletes_of_row .sync magic none (by simp [hsel, h, rxRowOf]) rfl, fun b hb => ?_⟩
  exact rxCompletes_of_row .ignored b none (by simp [hsel, h, rxRowOf, hb]) rfl

/-- Settles O28: FAILED reads the draw for the magic byte alone. -/
theorem failedResynchronises : Obligations.FailedResynchronises := by
  unfold Obligations.FailedResynchronises
  intro s h
  have hsel := rxSelect_of_ne_readChecksum (s := s) (by simp [h])
  refine ⟨fun hd => ?_, fun hd => ?_, fun b hb => ?_⟩
  · exact rxCompletes_of_row .resync magic none (by simp [hsel, h, rxRowOf, hd]) rfl
  · exact rxCompletes_of_row .resyncReject magic none (by simp [hsel, h, rxRowOf, hd]) rfl
  · exact rxCompletes_of_row .failedNoise b none (by simp [hsel, h, rxRowOf, hb]) rfl

theorem rxRowOf_illegal {st : RxTag} (h : st ∈ [RxTag.illegal5, .illegal6, .illegal7]) (b : Byte)
    (last hit rnd : Bool) : rxRowOf st b last hit rnd = if b = magic then .illegalStateSync else .illegalState := by
  simp only [List.mem_cons, List.not_mem_nil, or_false] at h
  rcases h with rfl | rfl | rfl <;> rfl

/-- Settles O29: the illegal values select rows of their own, which act as SYNC does and as a return to WAIT_SYNC. -/
theorem illegalRxStateActsAsWaitSync : Obligations.IllegalRxStateActsAsWaitSync := by
  unfold Obligations.IllegalRxStateActsAsWaitSync
  intro s h
  have hsel := rxSelect_of_ne_readChecksum (s := s) (fun hs => by simp [hs] at h)
  refine ⟨rxCompletes_of_row .illegalStateSync magic none (by simp [hsel, rxRowOf_illegal h]) rfl, fun b hb => ?_⟩
  exact rxCompletes_of_row .illegalState b none (by simp [hsel, rxRowOf_illegal h, hb]) rfl

/-! READ_LENGTH -/

/-- LEN_OK seeds RXCK with the vector of CK_INIT (R122). -/
theorem lenOk_completes {s : State} {b : Byte} (h : s.rx.state = .readLength) (hmin : 1 ≤ b.toNat)
    (hmax : b.toNat ≤ 127) :
    ∀ i ∈ [Instr.rxLenOk b, .rxAccept b],
      RxCompletes (exec i s) s { s.rx with len := b, pbuf := [], pvalid := false, state := .readPayload }
        ⟨ckSeed s.cfg.n⟩ .lenOk .none := by
  have hsel := rxSelect_of_ne_readChecksum (s := s) (by simp [h])
  have hzero : b ≠ 0#8 := by rintro rfl; simp at hmin
  exact rxCompletes_of_row .lenOk b none (by simp [hsel, h, rxRowOf, hzero, show b.toNat < 128 by omega]) rfl

/-- Settles O22: the vector of CK_INIT is the seed. -/
theorem lengthAccepted : Obligations.LengthAccepted := by
  unfold Obligations.LengthAccepted
  intro s b h hmin hmax
  exact ⟨⟨ckSeed s.cfg.n⟩, isSeed_ckSeed _, lenOk_completes h hmin hmax⟩

/-- Settles O23: 0x00 and the bytes from 0x80 on select the two rows of LEN_BAD. -/
theorem lengthRejected : Obligations.LengthRejected := by
  unfold Obligations.LengthRejected
  intro s h
  have hsel := rxSelect_of_ne_readChecksum (s := s) (by simp [h])
  refine ⟨rxCompletes_of_row .lenBadZero 0#8 none (by simp [hsel, h, rxRowOf]) rfl, fun b hb => ?_⟩
  have hneg : ¬b.toNat < 128 := by rw [BitVec.toInt_neg_iff] at hb; omega
  have hzero : b ≠ 0#8 := by rintro rfl; simp at hb
  exact rxCompletes_of_row .lenBadNeg b none (by simp [hsel, h, rxRowOf, hneg, hzero]) rfl

/-! READ_PAYLOAD -/

/-- A payload byte inside the buffer is stored, fed to RXCK and counted (R124). -/
theorem rxStore_of_lt {s : State} (h : s.rx.cnt.toNat < 127) (b : Byte) (st : RxTag) (resp : Response) :
    rxStore b st resp s.takeDraw.2 = .ok ⟨(s.takeDraw.2.withRx { s.rx with
      cnt := s.rx.cnt + 1#8, pbuf := Memory.write s.rx.pbuf s.rx.cnt.toNat b, state := st }).withRxck
        ⟨ckAdd s.rxck.acc b⟩, resp, none⟩ := if_pos h

theorem payload_completes {s : State} (h : s.rx.state = .readPayload) (hcap : s.rx.cnt.toNat < 127)
    (hcnt : s.rx.cnt.toNat + 1 ≠ s.rx.len.toNat) (b : Byte) :
    ∀ i ∈ [Instr.rxPayload b, .rxAccept b],
      RxCompletes (exec i s) s { s.rx with
        cnt := s.rx.cnt + 1#8, pbuf := Memory.write s.rx.pbuf s.rx.cnt.toNat b } ⟨ckAdd s.rxck.acc b⟩
        .payload .none := by
  have hsel := rxSelect_of_ne_readChecksum (s := s) (by simp [h])
  have hdone := rxCompletes_of_row .payload b none (by simp [hsel, h, rxRowOf, hcnt])
    (rxStore_of_lt hcap b .readPayload .payload)
  rwa [← h] at hdone

theorem payloadLast_completes {s : State} (h : s.rx.state = .readPayload) (hcap : s.rx.cnt.toNat < 127)
    (hcnt : s.rx.cnt.toNat + 1 = s.rx.len.toNat) (b : Byte) :
    ∀ i ∈ [Instr.rxPayloadLast b, .rxAccept b],
      RxCompletes (exec i s) s { s.rx with
        cnt := s.rx.cnt + 1#8, pbuf := Memory.write s.rx.pbuf s.rx.cnt.toNat b, state := .readChecksum }
        ⟨ckAdd s.rxck.acc b⟩ .payloadLast .none := by
  have hsel := rxSelect_of_ne_readChecksum (s := s) (by simp [h])
  exact rxCompletes_of_row .payloadLast b none (by simp [hsel, h, rxRowOf, hcnt])
    (rxStore_of_lt hcap b .readChecksum .payloadLast)

/-- Settles O24: both rows of READ_PAYLOAD write one cell and update RXCK once. -/
theorem payloadByteStored : Obligations.PayloadByteStored := by
  unfold Obligations.PayloadByteStored
  intro s b h hcap
  refine ⟨_, ⟨ckAdd s.rxck.acc b⟩, ckUpdated_ckAdd _ b, fun j => ?_,
    fun hcnt => payload_completes h hcap (by omega) b, fun hcnt => payloadLast_completes h hcap hcnt b⟩
  rw [Memory.read_write]
  simp only [eq_comm]

/-! READ_CHECKSUM -/

/-- Settles O25: a matching byte that is not the last selects CK_MATCH. -/
theorem checksumByteMatches : Obligations.ChecksumByteMatches := by
  unfold Obligations.ChecksumByteMatches
  intro s b h hle ha hlast
  exact rxCompletes_of_row .ckMatch b none (by simp [rxSelect_readChecksum h hle ha, rxRowOf, hlast]) rfl

/-- The bytes that the cells hold are what a consecutive read gives. -/
theorem HoldsBytes.readSeq {m : Memory} {p : List Byte} (h : HoldsBytes m p) :
    Memory.readSeq m 0 p.length = some p :=
  (Memory.readSeq_eq_some m 0 _ p).2 ⟨rfl, fun j hj => by rw [Nat.zero_add, h j hj]⟩

/-- Settles O26: the last matching byte selects DONE, which reads the payload's cells. -/
theorem doneReturnsPayload : Obligations.DoneReturnsPayload := by
  unfold Obligations.DoneReturnsPayload
  intro s b p h hle ha hlast hlen hp
  refine rxCompletes_of_row .done b (some p)
    (by simp [rxSelect_readChecksum h hle ha, rxRowOf, hlast]) ?_
  simp only [rxRun, rxActDone, State.takeDraw_rx, ← hlen, hp.readSeq]
  rfl

/-- Settles O27: a differing byte selects CK_MISMATCH, last or not. -/
theorem checksumMismatchFails : Obligations.ChecksumMismatchFails := by
  unfold Obligations.ChecksumMismatchFails
  intro s a b h hle ha hne
  exact rxCompletes_of_row .ckMismatch b none (by simp [rxSelect_readChecksum h hle ha, rxRowOf, hne]) rfl

end Sys2Proof.Machine
end

section
/-! PROOF. What becomes of a presented payload in an RX_ACCEPT (R132, R254): of the registers that it is read from, a state
that presents one lets LEN_OK alone write any, and LEN_OK clears RX.pvalid. -/

namespace Sys2Proof.Machine

/-- The payload that the core presents is read from three registers of the receiver. -/
theorem presentedPayload_congr {s t : State} (hbuf : t.rx.pbuf = s.rx.pbuf) (hlen : t.rx.len = s.rx.len)
    (hval : t.rx.pvalid = s.rx.pvalid) : t.presentedPayload = s.presentedPayload := by
  simp only [State.presentedPayload, hbuf, hlen, hval]

/-- Without RX.pvalid a read of the payload faults (R132). -/
theorem presentedPayload_of_not_pvalid {s : State} (h : s.rx.pvalid = false) :
    s.presentedPayload = .error .payloadInvalid := by
  simp only [State.presentedPayload, h, Bool.false_eq_true, if_false]

theorem pvalid_of_presentedPayload {s : State} {p : List Byte} (h : s.presentedPayload = .ok p) :
    s.rx.pvalid = true := by
  by_contra hval
  rw [presentedPayload_of_not_pvalid (by simpa using hval)] at h
  cases h

/-- RX_ACCEPT on the port leaves the receiver's registers as RX_ACCEPT of the byte does. -/
theorem exec_rxAccept_next {b : Byte} {s t : State} (h : exec (.rxAccept b) s = .next t) :
    ∃ r, rxAccept b s.takeDraw.1 s.takeDraw.2 = .ok r ∧ t.rx = r.state.rx := by
  change rxFinish (rxAccept b s.takeDraw.1 s.takeDraw.2) = _ at h
  cases hr : rxAccept b s.takeDraw.1 s.takeDraw.2 with
  | error f => rw [hr] at h; cases h
  | ok r => rw [hr] at h; cases h; exact ⟨r, rfl, rfl⟩

/-- In WAIT_SYNC, FAILED and READ_LENGTH an RX_ACCEPT other than LEN_OK leaves the registers of the payload alone. -/
theorem rxAccept_keeps_payload {b : Byte} {rnd : Bool} {s : State} {r : RxReply} (h : rxAccept b rnd s = .ok r)
    (hs : s.rx.state = .waitSync ∨ s.rx.state = .readLength ∨ s.rx.state = .failed)
    (hlen : ¬(s.rx.state = .readLength ∧ 1 ≤ b.toNat ∧ b.toNat ≤ 127)) :
    r.state.presentedPayload = s.presentedPayload := by
  rcases hs with hs | hs | hs
  · rw [rxAccept_waitSync b rnd s hs] at h
    split at h <;> cases h <;> exact presentedPayload_congr rfl rfl rfl
  · have hbad : b = 0#8 ∨ 128 ≤ b.toNat := by
      rw [BitVec.toNat_eq, BitVec.toNat_zero]
      have hb : ¬(1 ≤ b.toNat ∧ b.toNat ≤ 127) := fun hb => hlen ⟨hs, hb⟩
      omega
    rw [rxAccept_readLength b rnd s hs, if_pos hbad] at h
    cases h
    exact presentedPayload_congr rfl rfl rfl
  · rw [rxAccept_failed b rnd s hs] at h
    split_ifs at h <;> cases h <;> exact presentedPayload_congr rfl rfl rfl

/-- LEN_OK invalidates the payload (R122). -/
theorem rxAccept_clears_pvalid {b : Byte} {rnd : Bool} {s : State} {r : RxReply} (h : rxAccept b rnd s = .ok r)
    (hs : s.rx.state = .readLength) (hmin : 1 ≤ b.toNat) (hmax : b.toNat ≤ 127) : r.state.rx.pvalid = false := by
  have hok : ¬(b = 0#8 ∨ 128 ≤ b.toNat) := by
    rw [BitVec.toNat_eq, BitVec.toNat_zero]
    omega
  rw [rxAccept_readLength b rnd s hs, if_neg hok] at h
  cases h
  rfl

/-- Settles O32: under the invariant a payload is presented in WAIT_SYNC, READ_LENGTH and FAILED alone. -/
theorem payloadStaysUntilLengthAccepted : Obligations.PayloadStaysUntilLengthAccepted := by
  unfold Obligations.PayloadStaysUntilLengthAccepted
  intro s t b p hi hp h
  obtain ⟨hstate, -⟩ := hi.rx.valid (pvalid_of_presentedPayload hp)
  obtain ⟨r, hr, hrx⟩ := exec_rxAccept_next h
  have ht : t.presentedPayload = r.state.presentedPayload :=
    presentedPayload_congr (by rw [hrx]) (by rw [hrx]) (by rw [hrx])
  rw [ht]
  split
  · next hlen =>
    obtain ⟨hs, hmin, hmax⟩ := hlen
    exact presentedPayload_of_not_pvalid (rxAccept_clears_pvalid (s := s.takeDraw.2) hr hs hmin hmax)
  · next hlen =>
    have hkeeps : r.state.presentedPayload = s.presentedPayload :=
      rxAccept_keeps_payload (s := s.takeDraw.2) hr hstate hlen
    rw [hkeeps, hp]

end Sys2Proof.Machine
end

section
/-! PROOF. A built frame in a receiver (R136). Each phase of a frame is a predicate on the receiver, each byte that
RX_ACCEPT takes leads from a phase to the next, and `Fed.trans` puts the bytes together. -/

namespace Sys2Proof.Machine

/-! Feeding bytes -/

/-- Feeding `bs` leads from `s` to `t` and adds the reports `rs`. -/
structure Fed (bs : List Byte) (s : State) (rs : List Report) (t : State) : Prop where
  run : feed bs s = .next t
  cfg : t.cfg = s.cfg
  reports : t.reports = s.reports ++ rs

theorem Fed.nil (s : State) : Fed [] s [] s := ⟨rfl, rfl, (List.append_nil _).symm⟩

theorem Fed.trans {as bs : List Byte} {s t u : State} {ps rs : List Report} (h : Fed as s ps t) (k : Fed bs t rs u) :
    Fed (as ++ bs) s (ps ++ rs) u where
  run := (feed_append as bs s t h.run).trans k.run
  cfg := k.cfg.trans h.cfg
  reports := by rw [k.reports, h.reports, List.append_assoc]

/-- The invariant holds after a feed. -/
theorem feed_inv {bs : List Byte} {s t : State} (hi : Inv s) (h : feed bs s = .next t) : Inv t := by
  induction bs generalizing s with
  | nil => cases h; exact hi
  | cons b bs ih =>
    obtain ⟨u, hu, hr⟩ := runInstrs_cons_next h
    exact ih (exec_inv hi hu) hr

/-- One RX_ACCEPT that completes is a feed of its byte. -/
theorem RxCompletes.fed {b : Byte} {s : State} {i : Instr} {r : RxUnit} {c : CkState} {resp : Response} {out : Output}
    (h : ∀ j ∈ [i, .rxAccept b], RxCompletes (exec j s) s r c resp out) :
    ∃ t, Fed [b] s [⟨resp, out⟩] t ∧ t.rx = r ∧ t.rxck = c := by
  obtain ⟨t, hexec, hframe⟩ := h (.rxAccept b) (by simp)
  exact ⟨t, ⟨runInstrs_cons _ _ _ _ hexec, by rw [hframe], by rw [hframe]⟩, by rw [hframe], by rw [hframe]⟩

/-! The phases of a frame -/

/-- The receiver of order `n` has taken the payload bytes `q` of a frame whose length byte says `len`. -/
structure InPayload (n len : Nat) (q : List Byte) (s : State) : Prop where
  cfg : s.cfg.n = n
  state : s.rx.state = .readPayload
  len : s.rx.len.toNat = len
  cnt : s.rx.cnt.toNat = q.length
  holds : HoldsBytes s.rx.pbuf q
  vector : s.rxck.acc = ckRun (ckSeed n) q

/-- The receiver of order `n` has taken the payload `q` and `i` checksum bytes that match. -/
structure InChecksum (n : Nat) (q : List Byte) (i : Nat) (s : State) : Prop where
  cfg : s.cfg.n = n
  state : s.rx.state = .readChecksum
  len : s.rx.len.toNat = q.length
  cnt : s.rx.cnt.toNat = q.length + i
  holds : HoldsBytes s.rx.pbuf q
  vector : s.rxck.acc = ckRun (ckSeed n) q

theorem toNat_add_one (c : Byte) (h : c.toNat < 255) : (c + 1#8).toNat = c.toNat + 1 := by
  rw [BitVec.toNat_add, BitVec.toNat_one (by decide)]
  omega

theorem HoldsBytes.write {m : Memory} {q : List Byte} (h : HoldsBytes m q) (b : Byte) :
    HoldsBytes (Memory.write m q.length b) (q ++ [b]) := by
  intro j hj
  rw [List.length_append, List.length_singleton] at hj
  rcases Nat.lt_or_eq_of_le (Nat.le_of_lt_succ hj) with hlt | rfl
  · rw [Memory.read_write_other _ _ _ _ (by omega), h j hlt, List.getElem?_append_left hlt]
  · rw [Memory.read_write_same, List.getElem?_concat_length]

/-! One byte -/

/-- The magic byte and a length byte 1..127 begin a payload (R121, R122). -/
theorem fed_header {s : State} {len : Nat} (h : s.rx.state = .waitSync) (hmin : 1 ≤ len) (hmax : len ≤ 127) :
    ∃ t, Fed [magic, BitVec.ofNat 8 len] s [⟨.sync, .none⟩, ⟨.lenOk, .none⟩] t ∧ InPayload s.cfg.n len [] t := by
  have hlen : (BitVec.ofNat 8 len).toNat = len := by rw [BitVec.toNat_ofNat]; omega
  obtain ⟨u, hu, hurx, -⟩ := RxCompletes.fed (waitSyncLooksForMagic s h).1
  have hstate : u.rx.state = .readLength := by rw [hurx]
  obtain ⟨t, ht, htrx, htck⟩ := RxCompletes.fed (lenOk_completes (b := BitVec.ofNat 8 len) hstate
    (by omega) (by omega))
  refine ⟨t, hu.trans ht, ⟨by rw [ht.cfg, hu.cfg], by rw [htrx], by rw [htrx, hlen], by rw [htrx, hurx]; rfl, ?_, ?_⟩⟩
  · exact fun j hj => absurd hj (Nat.not_lt_zero j)
  · rw [htck, hu.cfg, ckRun_nil]

/-- A payload byte that is not the last is answered PAYLOAD (R124). -/
theorem InPayload.next {n len : Nat} {q : List Byte} {s : State} (h : InPayload n len q s) (hlt : q.length + 1 < len)
    (hmax : len ≤ 127) (b : Byte) :
    ∃ t, Fed [b] s [⟨.payload, .none⟩] t ∧ InPayload n len (q ++ [b]) t := by
  obtain ⟨hcfg, hstate, hlen, hcnt, hholds, hvec⟩ := h
  obtain ⟨t, ht, htrx, htck⟩ := RxCompletes.fed (payload_completes hstate (by omega) (by omega) b)
  refine ⟨t, ht, by rw [ht.cfg, hcfg], by rw [htrx, hstate], by rw [htrx, hlen], ?_, ?_, ?_⟩
  · rw [htrx, toNat_add_one _ (by omega), hcnt, List.length_append, List.length_singleton]
  · rw [htrx, hcnt]
    exact hholds.write b
  · rw [htck, hvec, ckRun_append, ckRun_cons, ckRun_nil]

/-- The last payload byte is answered PAYLOAD_LAST (R124). -/
theorem InPayload.last {n len : Nat} {q : List Byte} {s : State} (h : InPayload n len q s) (heq : q.length + 1 = len)
    (hmax : len ≤ 127) (b : Byte) :
    ∃ t, Fed [b] s [⟨.payloadLast, .none⟩] t ∧ InChecksum n (q ++ [b]) 0 t := by
  obtain ⟨hcfg, hstate, hlen, hcnt, hholds, hvec⟩ := h
  obtain ⟨t, ht, htrx, htck⟩ := RxCompletes.fed (payloadLast_completes hstate (by omega) (by omega) b)
  refine ⟨t, ht, by rw [ht.cfg, hcfg], by rw [htrx], by rw [htrx, hlen]; simpa using heq.symm, ?_, ?_, ?_⟩
  · rw [htrx, toNat_add_one _ (by omega), hcnt, List.length_append, List.length_singleton, Nat.add_zero]
  · rw [htrx, hcnt]
    exact hholds.write b
  · rw [htck, hvec, ckRun_append, ckRun_cons, ckRun_nil]

/-- The accumulator that the next checksum byte is compared with. -/
theorem InChecksum.expected {n i : Nat} {q : List Byte} {s : State} (h : InChecksum n q i s) :
    s.rx.len.toNat ≤ s.rx.cnt.toNat ∧ s.rx.cnt.toNat - s.rx.len.toNat = i ∧
      s.rxck.acc[s.rx.cnt.toNat - s.rx.len.toNat]? = (ckRun (ckSeed n) q)[i]? := by
  rw [h.len, h.cnt, h.vector, Nat.add_sub_cancel_left]
  exact ⟨Nat.le_add_right _ _, rfl, rfl⟩

/-- A matching checksum byte that is not the last is answered CK_MATCH (R125). -/
theorem InChecksum.next {n i : Nat} {q : List Byte} {s : State} {b : Byte} (h : InChecksum n q i s)
    (hb : (ckRun (ckSeed n) q)[i]? = some b) (hlt : i + 1 < n) (hn : n ≤ 127) (hq : q.length ≤ 127) :
    ∃ t, Fed [b] s [⟨.ckMatch, .none⟩] t ∧ InChecksum n q (i + 1) t := by
  obtain ⟨hle, hi, hexp⟩ := h.expected
  obtain ⟨hcfg, hstate, hlen, hcnt, hholds, hvec⟩ := h
  obtain ⟨t, ht, htrx, htck⟩ := RxCompletes.fed
    (checksumByteMatches s b hstate hle (hexp.trans hb) (by omega))
  refine ⟨t, ht, by rw [ht.cfg, hcfg], by rw [htrx, hstate], by rw [htrx, hlen], ?_, by rw [htrx]; exact hholds,
    by rw [htck, hvec]⟩
  rw [htrx, toNat_add_one _ (by omega), hcnt, Nat.add_assoc]

/-- The last matching checksum byte is answered DONE with the payload, which is then presented (R126, R132). -/
theorem InChecksum.done {n i : Nat} {q : List Byte} {s : State} {b : Byte} (h : InChecksum n q i s)
    (hb : (ckRun (ckSeed n) q)[i]? = some b) (heq : i + 1 = n) :
    ∃ t, Fed [b] s [⟨.done, .bytes q⟩] t ∧ t.rx.state = .waitSync ∧ t.presentedPayload = .ok q := by
  obtain ⟨hle, hi, hexp⟩ := h.expected
  obtain ⟨t, ht, htrx, -⟩ := RxCompletes.fed (doneReturnsPayload s b q h.state hle (hexp.trans hb)
    (by rw [hi, heq, h.cfg]) h.len.symm h.holds)
  refine ⟨t, ht, by rw [htrx], ?_⟩
  simp only [State.presentedPayload, htrx, h.len, h.holds.readSeq, if_true]

/-- A checksum byte that differs is answered CK_MISMATCH and enters FAILED (R127). -/
theorem InChecksum.mismatch {n i : Nat} {q : List Byte} {s : State} {a b : Byte} (h : InChecksum n q i s)
    (ha : (ckRun (ckSeed n) q)[i]? = some a) (hne : b ≠ a) :
    ∃ t, Fed [b] s [⟨.ckMismatch, .none⟩] t ∧ t.rx.state = .failed := by
  obtain ⟨hle, -, hexp⟩ := h.expected
  obtain ⟨t, ht, htrx, -⟩ := RxCompletes.fed (checksumMismatchFails s a b h.state hle (hexp.trans ha) hne)
  exact ⟨t, ht, by rw [htrx]⟩

/-! The phases of a frame, byte after byte -/

theorem lt_ckRun_length {n i : Nat} (q : List Byte) (hi : i < n) : i < (ckRun (ckSeed n) q).length := by
  simpa using hi

/-- The reports of a frame up to its last payload byte. -/
def bodyReports (len : Nat) : List Report :=
  [⟨.sync, .none⟩, ⟨.lenOk, .none⟩] ++ List.replicate (len - 1) ⟨.payload, .none⟩ ++ [⟨.payloadLast, .none⟩]

/-- The first `q.length` payload bytes, where more are to come. -/
theorem InPayload.fed {n len : Nat} {s : State} (h : InPayload n len [] s) (hmax : len ≤ 127) (q : List Byte)
    (hq : q.length < len) :
    ∃ t, Fed q s (List.replicate q.length ⟨.payload, .none⟩) t ∧ InPayload n len q t := by
  induction q using List.reverseRecOn with
  | nil => exact ⟨s, Fed.nil s, h⟩
  | append_singleton q b ih =>
    rw [List.length_append, List.length_singleton] at hq ⊢
    obtain ⟨u, hu, hphase⟩ := ih (by omega)
    obtain ⟨t, ht, hnext⟩ := hphase.next hq hmax b
    rw [List.replicate_succ']
    exact ⟨t, hu.trans ht, hnext⟩

/-- A frame up to its last payload byte (R121, R122, R124). -/
theorem fed_body {s : State} {q : List Byte} (h : s.rx.state = .waitSync) (hmin : 1 ≤ q.length)
    (hmax : q.length ≤ 127) :
    ∃ t, Fed (magic :: BitVec.ofNat 8 q.length :: q) s (bodyReports q.length) t ∧ InChecksum s.cfg.n q 0 t := by
  obtain ⟨q, b, rfl⟩ : ∃ q' b, q = q' ++ [b] :=
    ⟨_, _, (List.dropLast_append_getLast (by rintro rfl; simp at hmin)).symm⟩
  obtain ⟨u, hu, hheader⟩ := fed_header h hmin hmax
  obtain ⟨v, hv, hpayload⟩ := hheader.fed hmax q (by simp)
  obtain ⟨t, ht, hlast⟩ := hpayload.last (by simp) hmax b
  refine ⟨t, ?_, hlast⟩
  have hfed := (hu.trans hv).trans ht
  rwa [List.append_assoc, show q.length = (q ++ [b]).length - 1 by simp] at hfed

/-- The first `i` checksum bytes, where they match and more are to come (R125). -/
theorem InChecksum.fed {n : Nat} {q : List Byte} {s : State} (h : InChecksum n q 0 s) (hn : n ≤ 127)
    (hq : q.length ≤ 127) (i : Nat) (hi : i < n) :
    ∃ t, Fed ((ckRun (ckSeed n) q).take i) s (List.replicate i ⟨.ckMatch, .none⟩) t ∧ InChecksum n q i t := by
  induction i with
  | zero => exact ⟨s, Fed.nil s, h⟩
  | succ i ih =>
    obtain ⟨u, hu, hphase⟩ := ih (by omega)
    have hlt := lt_ckRun_length q (show i < n by omega)
    obtain ⟨t, ht, hnext⟩ := hphase.next (List.getElem?_eq_getElem hlt) hi hn hq
    rw [List.replicate_succ', ← List.take_append_getElem hlt]
    exact ⟨t, hu.trans ht, hnext⟩

/-- The reports of a frame up to checksum byte `i`, where the bytes before it match. -/
def reportsUntilChecksum (len i : Nat) : List Report := bodyReports len ++ List.replicate i ⟨.ckMatch, .none⟩

/-- The frame of the payload `q` up to checksum byte `i`. -/
def frameUntilChecksum (n : Nat) (q : List Byte) (i : Nat) : List Byte :=
  magic :: BitVec.ofNat 8 q.length :: (q ++ (ckRun (ckSeed n) q).take i)

theorem frameUntilChecksum_length {n i : Nat} (q : List Byte) (hi : i ≤ n) :
    (frameUntilChecksum n q i).length = 2 + q.length + i := by
  simp only [frameUntilChecksum, List.length_cons, List.length_append, List.length_take, ckRun_length, ckSeed_length]
  omega

/-- A frame is cut at any of its checksum bytes. -/
theorem frameOf_eq_append {n i : Nat} {q : List Byte} (hi : i < (ckRun (ckSeed n) q).length) :
    frameOf n q = frameUntilChecksum n q i ++
      (ckRun (ckSeed n) q)[i] :: (ckRun (ckSeed n) q).drop (i + 1) := by
  simp only [frameOf, frameUntilChecksum, List.cons_append, List.append_assoc, List.getElem_cons_drop,
    List.take_append_drop]

/-- A frame up to checksum byte `i`, where the bytes before it match, is answered by the phases in order. -/
theorem fed_until_checksum {s : State} {q : List Byte} (h : s.rx.state = .waitSync) (hmin : 1 ≤ q.length)
    (hmax : q.length ≤ 127) (hn : s.cfg.n ≤ 127) (i : Nat) (hi : i < s.cfg.n) :
    ∃ t, Fed (frameUntilChecksum s.cfg.n q i) s (reportsUntilChecksum q.length i) t ∧ InChecksum s.cfg.n q i t := by
  obtain ⟨u, hu, hbody⟩ := fed_body h hmin hmax
  obtain ⟨t, ht, hck⟩ := hbody.fed hn hmax i hi
  exact ⟨t, hu.trans ht, hck⟩

/-! The frame that TX_BUILD gives -/

theorem frame_of_txBuild {b u : State} {frame : List Byte} (hq : b.pin.length ≤ 127) (hn : b.cfg.n ≤ 127)
    (h : exec .txBuild b = .next u) (hrep : u.reports = b.reports ++ [⟨.ok, .bytes frame⟩]) :
    frame = frameOf b.cfg.n b.pin := by
  change execTxBuild b = _ at h
  rw [execTxBuild, txBuild_fits b.pin b hq hn] at h
  cases h
  simpa using hrep.symm

/-- Settles O33: the body, the matching checksum bytes before the last, and DONE. -/
theorem builtFrameRoundTrips : Obligations.BuiltFrameRoundTrips := by
  unfold Obligations.BuiltFrameRoundTrips
  intro b u s frame hlegal hmin hmax hbuild hrep hcfg hs
  obtain ⟨hn1, hn, -⟩ := hlegal
  rw [frame_of_txBuild hmax hn hbuild hrep, ← hcfg]
  rw [← hcfg] at hn1 hn
  have hlast := lt_ckRun_length b.pin (show s.cfg.n - 1 < s.cfg.n by omega)
  obtain ⟨v, hv, hck⟩ := fed_until_checksum hs hmin hmax hn (s.cfg.n - 1) (by omega)
  obtain ⟨t, ht, hstate, hpresented⟩ := hck.done (List.getElem?_eq_getElem hlast) (Nat.sub_add_cancel hn1)
  have hfed := hv.trans ht
  rw [frameOf_eq_append hlast, List.drop_of_length_le (by simp; omega)]
  exact ⟨t, hfed.run, hfed.reports, hstate, hpresented⟩

end Sys2Proof.Machine
end

section
/-! PROOF. A frame with one flipped bit (R137). Up to the first checksum byte that differs it is a frame as any other, so
the mismatch follows from the phases of a frame; the bytes behind are too few for another DONE, whatever the draws, since
DONE takes one checksum byte for each accumulator. -/

namespace Sys2Proof.Machine

/-! Too few bytes for DONE -/

/-- How many checksum bytes of the frame being received have matched. -/
def State.matched (s : State) : Nat := if s.rx.state = .readChecksum then s.ckIndex else 0

theorem matched_of_ne {s : State} (h : s.rx.state ≠ .readChecksum) : s.matched = 0 := if_neg h

theorem matched_of_readChecksum {s : State} (h : s.rx.state = .readChecksum) :
    s.matched = s.rx.cnt.toNat - s.rx.len.toNat := if_pos h

theorem toNat_add_one_le (c : Byte) : (c + 1#8).toNat ≤ c.toNat + 1 := by
  rw [BitVec.toNat_add]
  exact Nat.mod_le _ _

/-- A byte counts at most one more match, and it returns no payload while another match would not be the last. -/
theorem rxAccept_matched {b : Byte} {rnd : Bool} {s : State} {r : RxReply} (hi : Inv s)
    (h : rxAccept b rnd s = .ok r) (hlt : s.matched + 1 < s.cfg.n) :
    r.out = none ∧ r.state.matched ≤ s.matched + 1 := by
  have idle {t : State} (ht : t.rx.state ≠ .readChecksum) : t.matched ≤ s.matched + 1 := by
    rw [matched_of_ne ht]
    exact Nat.zero_le _
  have hlegal := hi.rx.legal
  cases hs : s.rx.state with
  | waitSync =>
    rw [rxAccept_waitSync b rnd s hs] at h
    split at h <;> cases h <;> exact ⟨rfl, idle (by simp [hs])⟩
  | readLength =>
    rw [rxAccept_readLength b rnd s hs] at h
    split at h <;> cases h <;> exact ⟨rfl, idle (by simp [RxUnit.goto])⟩
  | readPayload =>
    have hcap : s.rx.cnt.toNat < maxLen := by
      obtain ⟨-, hmax, hcnt, -⟩ := hi.rx.payload hs
      exact Nat.lt_of_lt_of_le hcnt hmax
    rw [rxAccept_readPayload b rnd s hs, rxStore, if_pos hcap, rxStore, if_pos hcap] at h
    split at h
    · next hlast =>
      cases h
      have hfresh : (s.rx.cnt + 1#8).toNat - s.rx.len.toNat = 0 := by
        have := toNat_add_one_le s.rx.cnt
        omega
      exact ⟨rfl, ((matched_of_readChecksum rfl).trans hfresh).trans_le (Nat.zero_le _)⟩
    · cases h
      exact ⟨rfl, idle (by simp)⟩
  | readChecksum =>
    obtain ⟨-, a, ha, -⟩ := hi.ckExpected s hs
    have hm := matched_of_readChecksum hs
    have hnot : s.ckIndex + 1 ≠ s.cfg.n := by rw [State.ckIndex]; omega
    rw [rxAccept_readChecksum b rnd s a hs ha, if_neg hnot] at h
    split at h <;> cases h
    · have := toNat_add_one_le s.rx.cnt
      have hnext : (s.rx.cnt + 1#8).toNat - s.rx.len.toNat ≤ s.matched + 1 := by omega
      exact ⟨rfl, (matched_of_readChecksum (s := s.withRx { s.rx with cnt := s.rx.cnt + 1#8 }) hs).trans_le hnext⟩
    · exact ⟨rfl, idle (by simp [RxUnit.goto])⟩
  | failed =>
    rw [rxAccept_failed b rnd s hs] at h
    split_ifs at h <;> cases h <;> exact ⟨rfl, idle (by simp [hs])⟩
  | illegal5 | illegal6 | illegal7 => simp [hs, RxTag.isIllegal] at hlegal

/-- One byte of a feed that is too short for DONE. -/
theorem fed_byte_matched (b : Byte) {s : State} (hi : Inv s) (hlt : s.matched + 1 < s.cfg.n) :
    ∃ t resp, Fed [b] s [⟨resp, .none⟩] t ∧ t.matched ≤ s.matched + 1 := by
  obtain ⟨t, ht⟩ := execRxAccept_answers b hi
  obtain ⟨r, hr⟩ := exec_rxAccept_ends ht
  have hframe := hr.frame
  obtain ⟨⟨b', hb⟩, hend⟩ := hr
  obtain ⟨hout, hmatched⟩ := rxAccept_matched (s := s.takeDraw.2) (takeDraw_inv s hi) hb hlt
  rw [hout] at hframe
  refine ⟨t, r.resp, ⟨runInstrs_cons _ _ _ _ ht, by rw [hframe], by rw [hframe]; rfl⟩, ?_⟩
  rw [hend]
  exact hmatched

/-- A feed that ends before the last checksum byte of any frame returns no payload. -/
theorem fed_without_payload (bs : List Byte) {s : State} (hi : Inv s) (hlt : s.matched + bs.length < s.cfg.n) :
    ∃ t rs, Fed bs s rs t ∧ ∀ r ∈ rs, r.out = .none := by
  induction bs generalizing s with
  | nil => exact ⟨s, [], Fed.nil s, by simp⟩
  | cons b bs ih =>
    rw [List.length_cons] at hlt
    obtain ⟨u, resp, hu, hmatched⟩ := fed_byte_matched b hi (by omega)
    obtain ⟨t, rs, ht, hnone⟩ := ih (feed_inv hi hu.run) (by rw [hu.cfg]; omega)
    exact ⟨t, _, hu.trans ht, by simpa using hnone⟩

/-! The first checksum byte that differs -/

/-- `bad` is a frame of order `n` around the payload `q`, but for its checksum bytes from `i` on: byte `i` is not the
accumulator `i` of `q`. -/
def MismatchAt (n : Nat) (q : List Byte) (i : Nat) (bad : List Byte) : Prop :=
  ∃ a c rest, (ckRun (ckSeed n) q)[i]? = some a ∧ c ≠ a ∧ i + 1 + rest.length = n ∧
    bad = frameUntilChecksum n q i ++ [c] ++ rest

theorem reportsUntilChecksum_length {len : Nat} (i : Nat) (h : 1 ≤ len) :
    (reportsUntilChecksum len i).length = 2 + len + i := by
  simp only [reportsUntilChecksum, bodyReports, List.length_append, List.length_cons, List.length_nil,
    List.length_replicate]
  omega

theorem mem_reportsUntilChecksum {len i : Nat} {r : Report} (h : r ∈ reportsUntilChecksum len i) :
    r.out = .none ∧ r.resp ≠ .ckMismatch := by
  simp only [reportsUntilChecksum, bodyReports, List.mem_append, List.mem_cons, List.not_mem_nil, or_false,
    List.mem_replicate] at h
  rcases h with (((rfl | rfl) | ⟨-, rfl⟩) | rfl) | ⟨-, rfl⟩ <;> exact ⟨rfl, by decide⟩

/-- Such a frame is answered CK_MISMATCH at that byte and not before, and it returns no payload (R127, R137). -/
theorem MismatchAt.detected {s : State} {q bad : List Byte} {i : Nat} (hi : Inv s) (hs : s.rx.state = .waitSync)
    (hmin : 1 ≤ q.length) (hmax : q.length ≤ 127) (h : MismatchAt s.cfg.n q i bad) :
    ∃ (t v : State) (rs : List Report),
      feed bad s = .next t ∧ t.reports = s.reports ++ rs ∧ (∀ r ∈ rs, r.out = .none) ∧
      rs[2 + q.length + i]? = some ⟨.ckMismatch, .none⟩ ∧
      (∀ m, m < 2 + q.length + i → rs[m]? ≠ some ⟨.ckMismatch, .none⟩) ∧
      feed (bad.take (2 + q.length + i + 1)) s = .next v ∧ v.rx.state = .failed := by
  obtain ⟨a, c, rest, ha, hne, hlen, rfl⟩ := h
  obtain ⟨u, hu, hck⟩ := fed_until_checksum hs hmin hmax hi.cfg.2.1 i (by omega)
  obtain ⟨v, hv, hfailed⟩ := hck.mismatch ha hne
  have huv := hu.trans hv
  obtain ⟨t, rs, ht, hnone⟩ := fed_without_payload rest (feed_inv hi huv.run) (by
    rw [matched_of_ne (by simp [hfailed]), huv.cfg]
    omega)
  have hall := huv.trans ht
  have hreps := reportsUntilChecksum_length i hmin
  have hbytes : (frameUntilChecksum s.cfg.n q i ++ [c]).length = 2 + q.length + i + 1 := by
    rw [List.length_append, frameUntilChecksum_length q (by omega), List.length_singleton]
  refine ⟨t, v, _, hall.run, hall.reports, fun r hr => ?_, ?_, fun m hm hr => ?_, ?_, hfailed⟩
  · rw [List.append_assoc, List.mem_append, List.mem_append, List.mem_singleton] at hr
    rcases hr with hr | rfl | hr
    · exact (mem_reportsUntilChecksum hr).1
    · rfl
    · exact hnone r hr
  · rw [List.append_assoc, List.getElem?_append_right (by omega), hreps, Nat.sub_self]
    rfl
  · rw [List.append_assoc, List.getElem?_append_left (by omega)] at hr
    exact (mem_reportsUntilChecksum (List.mem_of_getElem? hr)).2 rfl
  · rw [← hbytes, List.take_left, huv.run]

/-! A flipped bit -/

theorem xor_twoPow_ne (x : Byte) {j : Nat} (hj : j < 8) : x ^^^ BitVec.ofNat 8 (2 ^ j) ≠ x := by
  intro h
  have hzero : BitVec.ofNat 8 (2 ^ j) = 0#8 := by
    rw [← BitVec.xor_right_inj x, h, BitVec.xor_zero]
  have hpow : 2 ^ j % 2 ^ 8 = 2 ^ j := Nat.mod_eq_of_lt (Nat.pow_lt_pow_right (by decide) hj)
  have hnat := congrArg BitVec.toNat hzero
  rw [BitVec.toNat_ofNat, hpow] at hnat
  exact (Nat.two_pow_pos j).ne' hnat

/-- Accumulator 0 sees every other byte in one place (R106). -/
theorem accAfter_zero_set_ne {q : List Byte} {k : Nat} {b : Byte} (hk : k < q.length) (hb : b ≠ q[k]) :
    accAfter 0 q ≠ accAfter 0 (q.set k b) := by
  have hset : q.set k b = q.take k ++ b :: q.drop (k + 1) := by rw [List.set_eq_take_append_cons_drop, if_pos hk]
  have hq : q.take k ++ q[k] :: q.drop (k + 1) = q := by rw [List.getElem_cons_drop, List.take_append_drop]
  have hdiff := accAfter_substitute 0 (q.take k) (q.drop (k + 1)) q[k] b
  rw [hq, ← hset, Nat.choose_zero_right, Nat.cast_one, one_mul] at hdiff
  intro heq
  rw [heq, sub_self] at hdiff
  exact hb (sub_eq_zero.1 hdiff.symm)

/-- With another payload byte the first checksum byte differs. -/
theorem mismatchAt_payload {n k : Nat} {q : List Byte} {b : Byte} (hn : 1 ≤ n) (hk : k < q.length) (hb : b ≠ q[k]) :
    MismatchAt n (q.set k b) 0 ((frameOf n q).set (k + 2) b) := by
  have hlen := lt_ckRun_length q (show 0 < n by omega)
  have hfirst : (ckRun (ckSeed n) q)[0] = accAfter 0 q :=
    Option.some.inj ((List.getElem?_eq_getElem hlen).symm.trans (ckRun_ckSeed_getElem? q hn))
  refine ⟨_, accAfter 0 q, (ckRun (ckSeed n) q).drop 1, ckRun_ckSeed_getElem? (q.set k b) hn,
    accAfter_zero_set_ne hk hb, ?_, ?_⟩
  · rw [List.length_drop, ckRun_length, ckSeed_length]
    omega
  · rw [frameOf_eq_append hlen, hfirst]
    simp [frameUntilChecksum, List.set_append_left _ _ hk]

/-- Another checksum byte is the first that differs. -/
theorem mismatchAt_checksum {n i : Nat} {q : List Byte} {b : Byte} (hin : i < n)
    (hb : b ≠ (ckRun (ckSeed n) q)[i]'(lt_ckRun_length q hin)) :
    MismatchAt n q i ((frameOf n q).set (2 + q.length + i) b) := by
  have hi := lt_ckRun_length q hin
  refine ⟨_, b, (ckRun (ckSeed n) q).drop (i + 1), List.getElem?_eq_getElem hi, hb, ?_, ?_⟩
  · rw [List.length_drop, ckRun_length, ckSeed_length]
    omega
  · rw [frameOf_eq_append hi, ← frameUntilChecksum_length q hin.le, List.set_append_right _ _ le_rfl, Nat.sub_self,
      List.set_cons_zero, List.append_assoc]
    rfl

/-- Settles O34: a flipped payload bit differs first in checksum byte 0, a flipped checksum bit in its own byte. -/
theorem singleBitFlipDetected : Obligations.SingleBitFlipDetected := by
  unfold Obligations.SingleBitFlipDetected
  intro b u s frame k j hmin hmax hbuild hrep hcfg hi hs hk2 hk hj
  obtain ⟨hn1, hn, -⟩ := hi.cfg
  rw [frame_of_txBuild hmax (hcfg ▸ hn) hbuild hrep, ← hcfg]
  rw [← hcfg] at hk
  dsimp only
  split
  · next hlt =>
    obtain ⟨k, rfl⟩ : ∃ m, k = m + 2 := ⟨k - 2, by omega⟩
    have hkq : k < b.pin.length := by omega
    have hbyte : (frameOf s.cfg.n b.pin).getD (k + 2) 0#8 = b.pin[k] := by
      simp [frameOf, List.getElem?_append_left hkq, hkq]
    rw [hbyte]
    have hbad := mismatchAt_payload hn1 hkq (xor_twoPow_ne b.pin[k] hj)
    simpa using hbad.detected hi hs (by simpa using hmin) (by simpa using hmax)
  · next hge =>
    obtain ⟨i, rfl⟩ : ∃ m, k = 2 + b.pin.length + m := ⟨k - (2 + b.pin.length), by omega⟩
    have hin : i < s.cfg.n := by omega
    have hlen := lt_ckRun_length b.pin hin
    have hbyte : (frameOf s.cfg.n b.pin).getD (2 + b.pin.length + i) 0#8 = (ckRun (ckSeed s.cfg.n) b.pin)[i] := by
      rw [List.getD_eq_getElem?_getD, frameOf_eq_append hlen, ← frameUntilChecksum_length b.pin hin.le,
        List.getElem?_append_right le_rfl, Nat.sub_self, List.getElem?_cons_zero, Option.getD_some]
    rw [hbyte]
    exact (mismatchAt_checksum hin (xor_twoPow_ne _ hj)).detected hi hs hmin hmax

end Sys2Proof.Machine
end

section
/-! PROOF. TX_BUILD on the request port (R150 to R157): one equation for a payload that fits and one for a longer one.
What the core presents after the build (R155) is read off the built unit. -/

namespace Sys2Proof.Machine

/-! The operation -/

theorem exec_txBuild_fits {s : State} (hq : s.pin.length ≤ 127) (hn : s.cfg.n ≤ 127) :
    exec .txBuild s = .next { s with
      txck := ⟨ckRun (ckSeed s.cfg.n) s.pin⟩
      tx := builtTx s.cfg.n s.pin
      builds := s.builds + 1
      reports := s.reports ++ [⟨.ok, .bytes (frameOf s.cfg.n s.pin)⟩] } := by
  change execTxBuild s = _
  rw [execTxBuild, txBuild_fits s.pin s hq hn]
  rfl

theorem exec_txBuild_oversize {s : State} (hq : 127 < s.pin.length) :
    exec .txBuild s = .next { s with
      tx := { fbuf := [], flen := 0#9 }
      builds := s.builds + 1
      reports := s.reports ++ [⟨.oversize, .bytes []⟩] } := by
  change execTxBuild s = _
  rw [execTxBuild, txBuild_oversize s.pin s hq]
  rfl

/-- Settles O36: the equation for a longer payload, whose frame has no byte. -/
theorem txBuildRejectsOversize : Obligations.TxBuildRejectsOversize := by
  unfold Obligations.TxBuildRejectsOversize
  intro s hq
  exact ⟨s.builds + 1, exec_txBuild_oversize hq, rfl, fun _ => rfl⟩

/-- Settles O35: the frame, the buffer and the vector are functions of the order and the payload. -/
theorem txBuildMakesFrame : Obligations.TxBuildMakesFrame := by
  unfold Obligations.TxBuildMakesFrame
  intro n p _ hn hp
  refine ⟨ckRun (ckSeed n) p, (builtTx n p).fbuf, by simp, frameOf_length n p, builtTx_read n p, ?_⟩
  rintro s rfl rfl
  refine ⟨⟨_, ckRunInstrs_eq .tx s.pin s, ?_⟩, s.builds + 1, exec_txBuild_fits hp hn⟩
  exact congrArg CkState.acc (ckRan_ck s .tx _ _)

/-- Settles O38: a payload that fits gives L + N + 2 bytes, a longer one none. -/
theorem largestFrameFits : Obligations.LargestFrameFits := by
  unfold Obligations.LargestFrameFits
  rintro s ⟨-, hn, -⟩
  rcases Nat.lt_or_ge 127 s.pin.length with hq | hq
  · refine ⟨_, exec_txBuild_oversize hq, ?_⟩
    simp only [BitVec.toNat_ofNat]
    omega
  · refine ⟨_, exec_txBuild_fits hq hn, ?_⟩
    simp only [builtTx_flen _ _ hq hn]
    omega

/-! The frame presented -/

theorem presentedFrame_of_tx {t : State} {n : Nat} {q : List Byte} (h : t.tx = builtTx n q) (hq : q.length ≤ 127)
    (hn : n ≤ 127) : t.presentedFrame = .ok (frameOf n q) := by
  have hw := presentedFrame_built t n q hq hn
  rwa [State.presentedFrame, State.withTx_tx, ← h] at hw

/-- The presented frame is the cells of fbuf below flen. -/
theorem presentedFrame_eq_ok {t : State} {frame : List Byte} (h : t.presentedFrame = .ok frame) :
    frame.length = t.tx.flen.toNat ∧ ∀ j, j < t.tx.flen.toNat → Memory.read t.tx.fbuf j = frame[j]? := by
  unfold State.presentedFrame at h
  split at h
  · cases h
  · next bs hbs =>
    cases h
    simpa using (Memory.readSeq_eq_some _ _ _ _).1 hbs

/-- A read of the frame presented gives its byte below flen and faults from there on (R155). -/
theorem readFrameByte_of_presented {t : State} {frame : List Byte} (h : t.presentedFrame = .ok frame) (j : Nat) :
    (∀ b, frame[j]? = some b → t.readFrameByte t.builds j = .ok b) ∧
      (frame[j]? = none → t.readFrameByte t.builds j = .error .unwrittenRead) := by
  obtain ⟨hlen, hread⟩ := presentedFrame_eq_ok h
  rw [State.readFrameByte, if_pos rfl]
  refine ⟨fun b hb => ?_, fun hb => ?_⟩
  · have hj : j < t.tx.flen.toNat := hlen ▸ (List.getElem?_eq_some_iff.1 hb).1
    rw [if_pos hj, hread j hj, hb]
  · exact if_neg (by rw [← hlen]; exact (List.getElem?_eq_none_iff.1 hb).not_gt)

/-- Settles O39: the built unit presents the frame, and the build has raised the count that names it. -/
theorem builtFrameIsPresented : Obligations.BuiltFrameIsPresented := by
  unfold Obligations.BuiltFrameIsPresented
  rintro s t frame ⟨-, hn, -⟩ hq h hrep
  have hbuilds : t.builds = s.builds + 1 := exec_builds_succ (.inl rfl) h
  have hframe := frame_of_txBuild hq hn h hrep
  rw [exec_txBuild_fits hq hn] at h
  have hpres : t.presentedFrame = .ok frame := by
    cases h
    rw [hframe]
    exact presentedFrame_of_tx rfl hq hn
  refine ⟨hpres, fun j => ?_, fun k j hk => readFrameByte_stale (by omega) j⟩
  obtain ⟨hsome, hnone⟩ := readFrameByte_of_presented hpres j
  split
  · next b hb => exact hsome b hb
  · next hb => exact hnone hb

/-! The empty payload -/

/-- The frame of an empty payload is the header and the seed (R154). -/
theorem frameOf_nil {n : Nat} (hn : 1 ≤ n) :
    frameOf n [] = [0x0A#8, 0x00#8, 0x01#8] ++ List.replicate (n - 1) 0x00#8 := by
  obtain ⟨k, rfl⟩ := Nat.exists_eq_add_of_le' hn
  rw [frameOf, ckRun_nil, ckSeed_succ]
  rfl

/-- The magic byte and a zero length byte are answered SYNC and LEN_BAD (R121, R123). -/
theorem fed_zeroLength {r : State} (h : r.rx.state = .waitSync) :
    ∃ t, Fed [magic, 0x00#8] r [⟨.sync, .none⟩, ⟨.lenBad, .none⟩] t ∧ t.rx.state = .failed := by
  obtain ⟨u, hu, hurx, -⟩ := RxCompletes.fed (waitSyncLooksForMagic r h).1
  obtain ⟨t, ht, htrx, -⟩ := RxCompletes.fed (lengthRejected u (by rw [hurx])).1
  exact ⟨t, hu.trans ht, by rw [htrx]⟩

/-- Settles O37: the frame is the header and the seed, and its length byte is zero. -/
theorem emptyPayloadFrameRejected : Obligations.EmptyPayloadFrameRejected := by
  unfold Obligations.EmptyPayloadFrameRejected
  rintro s r ⟨hn1, hn, -⟩ hpin hr
  obtain ⟨t, hfed, hfailed⟩ := fed_zeroLength hr
  have hbuild := exec_txBuild_fits (s := s) (by simp [hpin]) hn
  rw [hpin] at hbuild
  dsimp only
  rw [← frameOf_nil hn1]
  refine ⟨?_, ⟨_, hbuild, rfl, presentedFrame_of_tx rfl (by simp) hn⟩, t, hfed.run, hfailed, hfed.reports⟩
  rw [frameOf_length, List.length_nil, Nat.zero_add]

end Sys2Proof.Machine
end

section
/-! PROOF. The sends inside an SC_TICK and a dispatch (R171 to R173, R178, R181): each event moves its own list of
answers and adds itself to the trace, and a send adds its frame, so a tick or a dispatch is these equations one after
the other. -/

namespace Sys2Proof.Machine

/-! The events -/

theorem bytesAvailable_frame (s : State) :
    s.bytesAvailable.2 = { s with
      env := { s.env with counts := s.env.counts.tail, drawn := s.bytesAvailable.2.env.drawn }
      trace := s.trace ++ [.bytesAvailable s.bytesAvailable.1] } :=
  congrArg (fun e => (s.withEnv e).emit (.bytesAvailable s.bytesAvailable.1)) s.env.nextCount_eq.2

theorem applyVelocity_frame (s : State) (v : Word32) :
    (s.applyVelocity v).2 = { s with
      env := { s.env with velocities := s.env.velocities.tail, drawn := (s.applyVelocity v).2.env.drawn }
      trace := s.trace ++ [.applyVelocity v (s.applyVelocity v).1] } :=
  congrArg (fun e => (s.withEnv e).emit (.applyVelocity v (s.applyVelocity v).1)) s.env.nextVelocity_eq.2

theorem refreshComm_frame (s : State) :
    s.refreshComm = { s with
      sc := { s.sc with lastComm := s.nowMicros.1 }
      env := { s.env with readings := s.env.readings.tail, drawn := s.refreshComm.env.drawn }
      trace := s.trace ++ [.nowMicros s.nowMicros.1] } :=
  congrArg (fun e => ((s.withEnv e).emit (.nowMicros s.nowMicros.1)).withSc (s.sc.comm s.nowMicros.1))
    s.env.nextReading_eq.2

/-! A send -/

/-- The state after a send of the payload `q` from `s` (R183). -/
def State.afterSend (s : State) (q : List Byte) : State :=
  { s with
    txck := ⟨ckRun (ckSeed s.cfg.n) q⟩
    tx := builtTx s.cfg.n q
    builds := s.builds + 1
    trace := s.trace ++ (frameOf s.cfg.n q).map .writeByte }

theorem sendFrame_eq_afterSend {q : List Byte} {s : State} (hq : q.length ≤ 127) (hn : s.cfg.n ≤ 127) :
    sendFrame q s = .ok (s.afterSend q) := sendFrame_fits q s hq hn

/-- The builder's unit and TXCK as a send leaves them are what Built asks for. -/
theorem built_of_units {s t : State} {n : Nat} {q : List Byte} (hs : s.cfg.n = n) (htx : t.tx = builtTx n q)
    (hck : t.txck = ⟨ckRun (ckSeed n) q⟩) (hq : q.length ≤ 127) (hn : n ≤ 127) : Built s t q := by
  subst hs
  exact ⟨presentedFrame_of_tx htx hq hn, _, ckRunInstrs_eq .tx q s, hck.trans (ckRan_ck s .tx _ _).symm⟩

/-! The AFC tick -/

/-- SC_TICK outputs the events that its tick adds to the trace (R71). -/
theorem exec_scTick_of_events {s t : State} {r : Response} {es : List Event} (h : scTick s = .ok ⟨t, r⟩)
    (ht : t.trace = s.trace ++ es) :
    exec .scTick s = .next { t with trace := s.trace ++ es, reports := t.reports ++ [⟨r, .trace es⟩] } := by
  have hnew : t.trace.drop s.trace.length = es := by rw [ht, List.drop_left]
  change execScTick s = _
  rw [execScTick, h]
  dsimp only
  rw [hnew, ← ht]
  rfl

/-- An AFC tick sends the handshake, delays and checks (R171). -/
theorem scTick_afc {s : State} (hn : s.cfg.n ≤ 127) (hs : s.sc.state = .afc) :
    scTick s = .ok (afcCheck (s.afterSend (handshakePayload s.cfg.flag)).delay) := by
  rw [scTick, hs]
  simp only [tickAfc, sendFrame_eq_afterSend (q := handshakePayload s.cfg.flag) (by simp) hn]

theorem afcCheck_waits {s : State} (h : s.bytesAvailable.1 = 0) :
    afcCheck s = ⟨{ s with
      env := { s.env with counts := s.env.counts.tail, drawn := s.bytesAvailable.2.env.drawn }
      trace := s.trace ++ [.bytesAvailable 0] }, .afcWait⟩ := by
  rw [afcCheck, if_neg (by omega), bytesAvailable_frame, h]

theorem afcCheck_contacts {s : State} (h : 0 < s.bytesAvailable.1) :
    afcCheck s = ⟨{ s with
      sc := { s.sc with state := .active, lastComm := s.bytesAvailable.2.nowMicros.1 }
      env := { s.env with
        counts := s.env.counts.tail, readings := s.env.readings.tail
        drawn := s.bytesAvailable.2.refreshComm.env.drawn }
      trace := s.trace ++ [.bytesAvailable s.bytesAvailable.1, .nowMicros s.bytesAvailable.2.nowMicros.1] },
      .contact⟩ := by
  rw [afcCheck, if_pos h, refreshComm_frame, bytesAvailable_frame]
  simp [State.withSc, ScUnit.goto]

/-- Settles O41: the check after the delay finds no byte. -/
theorem afcTickWithoutContact : Obligations.AfcTickWithoutContact := by
  unfold Obligations.AfcTickWithoutContact
  rintro s ⟨-, hn, -⟩ hs hcount es
  have hcheck := afcCheck_waits (s := (s.afterSend (handshakePayload s.cfg.flag)).delay) hcount
  have htick := (scTick_afc hn hs).trans (congrArg Except.ok hcheck)
  refine ⟨_, exec_scTick_of_events (es := es) htick ?_, built_of_units rfl rfl rfl (by simp) hn, rfl⟩
  exact (List.append_assoc _ _ _).trans (List.append_assoc _ _ _)

/-- Settles O42: the check after the delay finds bytes. -/
theorem afcTickFirstContact : Obligations.AfcTickFirstContact := by
  unfold Obligations.AfcTickFirstContact
  rintro s ⟨-, hn, -⟩ hs hcount now es
  have hcheck := afcCheck_contacts (s := (s.afterSend (handshakePayload s.cfg.flag)).delay) hcount
  have htick := (scTick_afc hn hs).trans (congrArg Except.ok hcheck)
  have hreadings : s.bytesAvailable.2.env.readings = s.env.readings := by rw [bytesAvailable_frame]
  refine ⟨s.bytesAvailable.2.nowMicros_lt, hreadings ▸ s.bytesAvailable.2.nowMicros_head,
    _, exec_scTick_of_events (es := es) htick ?_, built_of_units rfl rfl rfl (by simp) hn, rfl⟩
  exact (List.append_assoc _ _ _).trans (List.append_assoc _ _ _)

/-! Dispatch -/

/-- A dispatch sends its echo after the events `es` of its actuation, and then reads the clock into SC.last_comm (R178,
R180, R181). -/
theorem afterSend_refreshComm {s : State} {tr es : List Event} (q : List Byte) (h : s.trace = tr ++ es) :
    (s.afterSend q).refreshComm = { s with
      txck := ⟨ckRun (ckSeed s.cfg.n) q⟩
      tx := builtTx s.cfg.n q
      builds := s.builds + 1
      sc := { s.sc with lastComm := s.nowMicros.1 }
      env := { s.env with readings := s.env.readings.tail, drawn := s.refreshComm.env.drawn }
      trace := tr ++ (es ++ (frameOf s.cfg.n q).map Event.writeByte ++ [.nowMicros s.nowMicros.1]) } := by
  rw [refreshComm_frame, ← List.append_assoc, ← List.append_assoc, ← h]
  rfl

theorem exec_cmdVelocity {s : State} (v : Word32) (rest : List Byte) (hn : s.cfg.n ≤ 127) :
    exec (.cmdVelocity v rest) s =
      .next ((applyIfDiffers v s).afterSend (velocityPayload (applyIfDiffers v s).sc.lastVel)).refreshComm := by
  change ofExcept (dispatchVelocity v s) = _
  rw [dispatchVelocity, sendFrame_eq_afterSend (by simp) (by simpa using hn)]
  rfl

theorem exec_cmdTempMode {s : State} {m : Byte} (rest : List Byte) (hm : isMode m = true) (hn : s.cfg.n ≤ 127) :
    exec (.cmdTempMode m rest) s = .next ((applyMode m s).afterSend (modePayload m)).refreshComm := by
  change execCmdTempMode m rest s = _
  rw [execCmdTempMode, if_pos hm, dispatchTempMode,
    sendFrame_eq_afterSend (q := modePayload m) (s := applyMode m s) (by simp) hn]
  rfl

/-- The velocity that tag 1 records and echoes: the corrected one where the commanded one differs (R178). -/
def recordedVelocity (v : Word32) (s : State) : Word32 :=
  if f32Differs v s.sc.lastVel then (s.applyVelocity v).1 else s.sc.lastVel

/-- The actuation step of tag 1, with its event and its answer where the velocity differs (R178). -/
theorem applyIfDiffers_eq (v : Word32) (s : State) :
    applyIfDiffers v s = { s with
      sc := { s.sc with lastVel := recordedVelocity v s }
      env := { s.env with
        velocities := if f32Differs v s.sc.lastVel then s.env.velocities.tail else s.env.velocities
        drawn := (applyIfDiffers v s).env.drawn }
      trace := s.trace ++ if f32Differs v s.sc.lastVel then [.applyVelocity v (recordedVelocity v s)] else [] } := by
  unfold applyIfDiffers recordedVelocity
  split
  · rw [applyVelocity_frame]
    rfl
  · rw [List.append_nil]

theorem applyIfDiffers_nowMicros (v : Word32) (s : State) :
    (applyIfDiffers v s).nowMicros.1 =
      (if f32Differs v s.sc.lastVel then (s.applyVelocity v).2 else s).nowMicros.1 := by
  unfold applyIfDiffers
  split <;> rfl

/-- Settles O46: the mode is applied, and the echo and the refresh follow. -/
theorem temperatureDispatch : Obligations.TemperatureDispatch := by
  unfold Obligations.TemperatureDispatch
  rintro s m rest ⟨-, hn, -⟩ hm now
  refine ⟨s.nowMicros_lt, s.nowMicros_head, _, exec_cmdTempMode rest ((isMode_iff m).2 hm) hn,
    built_of_units rfl rfl rfl (by simp) hn, ?_⟩
  exact afterSend_refreshComm (tr := s.trace) (es := [.applyTemperatureMode m.toInt]) _ rfl

/-- Settles O45: the actuation step records the value that the echo sends, and the refresh follows. -/
theorem velocityDispatch : Obligations.VelocityDispatch := by
  unfold Obligations.VelocityDispatch
  rintro s v rest ⟨-, hn, -⟩ d w now
  have hact := applyIfDiffers_eq v s
  have hcfg := applyIfDiffers_cfg v s
  have hnow : now = (applyIfDiffers v s).nowMicros.1 := (applyIfDiffers_nowMicros v s).symm
  have hw : (applyIfDiffers v s).sc.lastVel = w := congrArg (·.sc.lastVel) hact
  have hreadings : (applyIfDiffers v s).env.readings = s.env.readings := congrArg (·.env.readings) hact
  have htrace := congrArg (·.trace) hact
  have hexec := exec_cmdVelocity v rest hn
  rw [hw] at hexec
  refine ⟨?_, ?_, fun hd => ?_, _, hexec, ?_, ?_⟩
  · rw [hnow, ← hcfg]
    exact (applyIfDiffers v s).nowMicros_lt
  · rw [hnow, ← hreadings, ← hcfg]
    exact (applyIfDiffers v s).nowMicros_head
  · rw [show w = (s.applyVelocity v).1 from if_pos hd]
    exact s.applyVelocity_head v
  · exact built_of_units (congrArg Config.n hcfg.symm) rfl rfl (by simp) (hcfg ▸ hn)
  · rw [afterSend_refreshComm _ htrace, ← hnow, hact]
    rfl

end Sys2Proof.Machine
end

section
/-! PROOF. The values and the idle ticks of the session controller (R179, R182, R184, R185, R187 to R189): the patterns
and readings that it compares as arithmetic, the payloads that it ignores, and the ticks outside AFC and ACTIVE. -/

namespace Sys2Proof.Machine

/-! Velocities as bit patterns -/

theorem isNan_iff (x : Word32) : isNan x = true ↔ x.toNat / 2 ^ 23 % 256 = 255 ∧ x.toNat % 2 ^ 23 ≠ 0 := by
  simp [isNan, BitVec.toNat_eq, Nat.shiftRight_eq_div_pow]

theorem isZero_iff (x : Word32) : isZero x = true ↔ x.toNat % 2 ^ 31 = 0 := by
  simp [isZero, BitVec.toNat_eq]

/-- Settles O50: `is_nan` and `is_zero` as conditions on the bit fields. -/
theorem differsIsIeeeInequality : Obligations.DiffersIsIeeeInequality := by
  unfold Obligations.DiffersIsIeeeInequality
  intro a b nan zero
  simp only [nan, zero, ← isNan_iff, ← isZero_iff]
  simp [f32Differs, or_assoc, imp_iff_not_or]

/-! Elapsed time -/

/-- `u -W v` is the difference of the readings modulo 2^W (R7). -/
theorem subW_eq_emod (w u v : Nat) : (subW w u v : Int) = ((u : Int) - v) % 2 ^ w := by
  have hle : v % 2 ^ w ≤ 2 ^ w := (Nat.mod_lt v (Nat.two_pow_pos w)).le
  rw [subW, Int.natCast_emod, Nat.cast_add, Nat.cast_sub hle, Int.natCast_emod, Nat.cast_pow, Nat.cast_ofNat,
    ← add_sub_assoc, add_sub_right_comm, Int.add_emod_right, Int.sub_emod_emod]

/-- Settles O51: the difference modulo 2^CLK_W does not see the multiples of 2^CLK_W that the readings leave out. -/
theorem elapsedSurvivesWrap : Obligations.ElapsedSurvivesWrap := by
  unfold Obligations.ElapsedSurvivesWrap
  intro s d c hdc hd
  have hgap : s.elapsed (c % 2 ^ s.cfg.clkW) = (c - d) % 2 ^ s.cfg.clkW := by
    zify [hdc]
    rw [State.elapsed, subW_eq_emod, hd]
    push_cast
    exact (Int.sub_emod _ _ _).symm
  exact ⟨hgap, fun hlt => hgap.trans (Nat.mod_eq_of_lt hlt)⟩

/-! Ignored payloads -/

/-- Settles O47: such a payload is none that R180 calls dispatched. -/
theorem otherPayloadsIgnored : Obligations.OtherPayloadsIgnored := by
  unfold Obligations.OtherPayloadsIgnored
  intro s p hvel hmode
  have hp : ¬isDispatched p = true := by
    simp only [isDispatched, Bool.or_eq_true, Bool.and_eq_true, beq_iff_eq, decide_eq_true_eq]
    rintro (h | ⟨htag, (h | h) | h⟩)
    · exact hvel h
    all_goals exact hmode ⟨htag, _, h, by decide⟩
  exact if_pos (not_ne_iff.1 (mt (isDispatched_iff p).2 hp))

/-! Ticks outside AFC and ACTIVE -/

/-- Settles O52: the tick's reply is the state it began in. -/
theorem terminalTickIsIdle : Obligations.TerminalTickIsIdle := by
  unfold Obligations.TerminalTickIsIdle
  intro s hs
  have htick : scTick s = .ok ⟨s, .terminalIdle⟩ := by rw [scTick, hs]
  rw [exec_scTick_of_events htick (List.append_nil _).symm, List.append_nil]

/-- Settles O54: the tick writes SC.state alone. -/
theorem illegalScStateReentersAfc : Obligations.IllegalScStateReentersAfc := by
  unfold Obligations.IllegalScStateReentersAfc
  intro s hs
  have htick : scTick s = .ok ⟨s.withSc (s.sc.goto .afc), .scIllegalState⟩ := by rw [scTick, hs]
  rw [exec_scTick_of_events htick (List.append_nil _).symm, List.append_nil]
  rfl

/-! The way out of TERMINAL -/

/-- A request other than RESET leaves a TERMINAL session in TERMINAL: only SC_TICK writes SC's registers, and a TERMINAL
tick is idle. -/
theorem exec_request_keeps_terminal {i : Instr} {s t : State} (hreq : i.responses ≠ []) (hs : s.sc.state = .terminal)
    (h : exec i s = .next t) (hi : i ≠ .reset) : t.sc.state = .terminal := by
  by_cases htick : i = .scTick
  · subst htick
    cases (terminalTickIsIdle s hs).symm.trans h
    exact hs
  · obtain ⟨-, -, hsc⟩ := onlySessionTouchesEnvironment i s t h (by
      cases i
      case scTick => exact htick rfl
      case cmdVelocity | cmdTempMode | txHandshake | txVelocityEcho | txTempModeEcho => exact hreq rfl
      all_goals trivial)
    rw [hsc hi, hs]

theorem serve_leaves_terminal {x : Stimulus} {s t : State} (hs : s.sc.state = .terminal) (h : serve x s = .next t)
    (ht : t.sc.state ≠ .terminal) :
    t.sc.state = .afc ∧ (x = .resetInput ∨ ∃ pin, x = .request 0x0700#13 pin) := by
  cases x with
  | resetInput => cases h; exact ⟨rfl, .inl rfl⟩
  | request w p =>
    simp only [serve] at h
    split at h
    · cases h; exact absurd hs ht
    · next i hd =>
      have hreq : i.responses ≠ [] := decodeRequest_ok hd ▸ opInstr_responses_ne_nil _ _ _
      obtain rfl : i = .reset := by_contra fun hi => ht (exec_request_keeps_terminal (s := s.withPin p) hreq hs h hi)
      have hw : encode .reset = .request w := (decodeRequest_encodes hd).2
      cases h
      cases hw
      exact ⟨rfl, .inr ⟨p, rfl⟩⟩

/-- Settles O53: a waiting core stays as it is, and of the stimuli only the two resets leave TERMINAL. -/
theorem onlyResetLeavesTerminal : Obligations.OnlyResetLeavesTerminal := by
  unfold Obligations.OnlyResetLeavesTerminal
  intro s t hs h ht
  cases hq : s.queue with
  | nil => rw [step_of_empty_queue hq] at h; cases h; exact absurd hs ht
  | cons x q =>
    rw [step_of_queue s x q hq] at h
    obtain ⟨hafc, hx⟩ := serve_leaves_terminal (s := s.withQueue q) hs h ht
    exact ⟨hafc, q, hx.imp (congrArg (· :: q)) fun ⟨pin, hpin⟩ => ⟨pin, congrArg (· :: q) hpin⟩⟩

end Sys2Proof.Machine
end

section
/-! PROOF. Step (b) of an ACTIVE tick as events (R176 to R181, R190, R192): what a byte, and so a drain, adds to the
trace and does to SC.last_comm. The order, the bound and the liveness window of a tick are read off this. -/

namespace Sys2Proof.Machine

/-! Output events -/

/-- The event commands a collaborator and answers SC nothing but a corrected velocity: the writes and the actuation
commands of a send or a dispatch. -/
def Event.isOutput : Event → Bool
  | .writeByte _ | .applyVelocity _ _ | .applyTemperatureMode _ => true
  | _ => false

/-- All events of the list are output events. -/
abbrev OutputOnly (es : List Event) : Prop := ∀ e ∈ es, e.isOutput = true

theorem OutputOnly.append {es fs : List Event} (h : OutputOnly es) (k : OutputOnly fs) : OutputOnly (es ++ fs) :=
  fun e he => (List.mem_append.1 he).elim (h e) (k e)

theorem outputOnly_writes (bs : List Byte) : OutputOnly (bs.map .writeByte) := by
  simp [OutputOnly, Event.isOutput]

theorem Event.reading_of_isOutput {e : Event} (h : e.isOutput = true) : e.reading = none := by
  cases e with
  | nowMicros => cases h
  | _ => rfl

theorem Event.byteRead_of_isOutput {e : Event} (h : e.isOutput = true) : e.byteRead = none := by
  cases e with
  | readByte => cases h
  | _ => rfl

theorem OutputOnly.readings {es : List Event} (h : OutputOnly es) : es.filterMap Event.reading = [] :=
  List.filterMap_eq_nil_iff.2 fun e he => Event.reading_of_isOutput (h e he)

theorem OutputOnly.bytesRead {es : List Event} (h : OutputOnly es) : es.filterMap Event.byteRead = [] :=
  List.filterMap_eq_nil_iff.2 fun e he => Event.byteRead_of_isOutput (h e he)

/-- The event is neither of the two that open an ACTIVE tick (R175, R176). -/
abbrev Event.FollowsOpening (e : Event) : Prop := e ≠ .tickActuation ∧ ∀ k, e ≠ .bytesAvailable k

theorem Event.followsOpening_of_isOutput {e : Event} (h : e.isOutput = true) : e.FollowsOpening := by
  refine ⟨?_, fun k => ?_⟩ <;> rintro rfl <;> cases h

/-! A send and a dispatch -/

/-- A build that answers presents the frame of its payload, under any configuration (R150, R155). -/
theorem txBuild_next {q : List Byte} {s : State} {r : TxReply} (hq : q.length ≤ 127) (h : txBuild q s = .ok r) :
    r.state = (s.withTxck ⟨ckRun (ckSeed s.cfg.n) q⟩).withTx (builtTx s.cfg.n q) ∧
      r.state.presentedFrame = .ok (frameOf s.cfg.n q) := by
  rw [txBuild, if_neg (show ¬maxLen < q.length from not_lt.2 hq)] at h
  split at h
  · cases h
  · next hfit =>
    have hlen : (builtTx s.cfg.n q).flen.toNat = (frameOf s.cfg.n q).length :=
      Nat.mod_eq_of_lt (lt_of_le_of_lt (not_lt.1 hfit) (by decide))
    have hread : Memory.readSeq (builtTx s.cfg.n q).fbuf 0 (builtTx s.cfg.n q).flen.toNat =
        some (frameOf s.cfg.n q) := hlen ▸ Memory.readSeq_writeSeq _ _ _
    cases h
    exact ⟨rfl, by rw [State.presentedFrame, State.withTx_tx, ← builtTx, hread]⟩

/-- A send that answers has written the whole frame of its payload, under any configuration (R183). -/
theorem sendFrame_next {q : List Byte} {s t : State} (hq : q.length ≤ 127) (h : sendFrame q s = .ok t) :
    t = s.afterSend q := by
  unfold sendFrame at h
  split at h
  · cases h
  · next r hr =>
    obtain ⟨hstate, hframe⟩ := txBuild_next hq hr
    rw [hframe, hstate] at h
    cases h
    exact State.writeBytes_eq _ _

/-- A dispatch ends with the clock reading that it stores in SC.last_comm, after at most N + 8 output events (R178,
R180, R181). -/
structure DispatchEnds (s t : State) (out : List Event) (now : Nat) : Prop where
  cfg : t.cfg = s.cfg
  output : OutputOnly out
  length : out.length ≤ s.cfg.n + 8
  trace : t.trace = s.trace ++ (out ++ [.nowMicros now])
  comm : t.sc.lastComm = now

/-- A dispatch of at most one actuation command `act`, which leads to `u`, then the echo `q` and the refresh. -/
theorem dispatchEnds_of_send {s u v : State} {act : List Event} {q : List Byte} (hcfg : u.cfg = s.cfg)
    (hact : OutputOnly act) (hone : act.length ≤ 1) (htrace : u.trace = s.trace ++ act) (hq : q.length ≤ 5)
    (h : sendFrame q u = .ok v) :
    DispatchEnds s v.refreshComm (act ++ (frameOf s.cfg.n q).map .writeByte) u.nowMicros.1 := by
  obtain rfl := sendFrame_next (by omega) h
  have hend := afterSend_refreshComm q htrace
  exact {
    cfg := hcfg
    output := hact.append (outputOnly_writes _)
    length := by simp only [List.length_append, List.length_map, frameOf_length]; omega
    trace := by rw [hend, hcfg]
    comm := by rw [hend] }

theorem dispatchVelocity_ends {v : Word32} {s t : State} (h : dispatchVelocity v s = .ok t) :
    ∃ out now, DispatchEnds s t out now := by
  unfold dispatchVelocity at h
  split at h
  · cases h
  · next u hu =>
    cases h
    refine ⟨_, _, dispatchEnds_of_send (applyIfDiffers_cfg v s) ?_ ?_ (congrArg (·.trace) (applyIfDiffers_eq v s))
      le_rfl hu⟩
    · split <;> simp [OutputOnly, Event.isOutput]
    · split <;> simp

theorem dispatchTempMode_ends {m : Byte} {s t : State} (h : dispatchTempMode m s = .ok t) :
    ∃ out now, DispatchEnds s t out now := by
  unfold dispatchTempMode at h
  split at h
  · cases h
  · next u hu =>
    cases h
    exact ⟨_, _, dispatchEnds_of_send (u := applyMode m s) (act := [.applyTemperatureMode (sext8 m)]) rfl
      (by simp [OutputOnly, Event.isOutput]) le_rfl rfl (by simp) hu⟩

/-- The handling of a payload is a dispatch where R180 says so, and nothing elsewhere (R182). -/
theorem dispatch_ends {p : List Byte} {s t : State} (h : dispatch p s = .ok t) :
    (isDispatched p = true ∧ ∃ out now, DispatchEnds s t out now) ∨ (isDispatched p = false ∧ t = s) := by
  rw [← Bool.not_eq_true, isDispatched_iff, not_ne_iff]
  unfold dispatch at h
  split at h
  · next hp => exact .inl ⟨by simp [hp], dispatchVelocity_ends h⟩
  · next hp => exact .inl ⟨by simp [hp], dispatchTempMode_ends h⟩
  · next hp => cases h; exact .inr ⟨hp, rfl⟩

/-! A span of the drain -/

/-- From `s` to `t` step (b) has read the bytes `bs` and dispatched with the clock readings `ds`, in order: it issued
the events `es`, and SC.last_comm holds the last of the readings. -/
structure DrainSpan (bs : List Byte) (ds : List Nat) (es : List Event) (s t : State) : Prop where
  cfg : t.cfg = s.cfg
  trace : t.trace = s.trace ++ es
  comm : t.sc.lastComm = ds.getLastD s.sc.lastComm
  bytesRead : es.filterMap Event.byteRead = bs
  readings : es.filterMap Event.reading = ds
  follows : ∀ e ∈ es, e.FollowsOpening
  length : es.length ≤ bs.length + ds.length * (s.cfg.n + 9)

theorem DrainSpan.refl (s : State) : DrainSpan [] [] [] s s where
  cfg := rfl
  trace := (List.append_nil _).symm
  comm := rfl
  bytesRead := rfl
  readings := rfl
  follows := nofun
  length := Nat.zero_le _

theorem DrainSpan.trans {as bs : List Byte} {cs ds : List Nat} {es fs : List Event} {s t u : State}
    (h : DrainSpan as cs es s t) (k : DrainSpan bs ds fs t u) : DrainSpan (as ++ bs) (cs ++ ds) (es ++ fs) s u where
  cfg := k.cfg.trans h.cfg
  trace := by rw [k.trace, h.trace, List.append_assoc]
  comm := by simp only [k.comm, h.comm, List.getLastD_eq_getLast?, List.getLast?_append, Option.getD_or]
  bytesRead := by rw [List.filterMap_append, h.bytesRead, k.bytesRead]
  readings := by rw [List.filterMap_append, h.readings, k.readings]
  follows := fun e he => (List.mem_append.1 he).elim (h.follows e) (k.follows e)
  length := by
    have hk := k.length
    rw [h.cfg] at hk
    simp only [List.length_append, add_mul]
    linarith [h.length]

/-- The span of one byte, up to the end of its RX_ACCEPT. -/
theorem drainSpan_of_readByte {b : Byte} {s t : State} (hcfg : t.cfg = s.cfg) (hsc : t.sc = s.sc)
    (htrace : t.trace = s.trace ++ [.readByte b]) : DrainSpan [b] [] [.readByte b] s t where
  cfg := hcfg
  trace := htrace
  comm := by rw [hsc]; rfl
  bytesRead := rfl
  readings := rfl
  follows := by
    rintro e he
    cases List.mem_singleton.1 he
    exact ⟨nofun, nofun⟩
  length := Nat.le_add_right _ _

theorem DispatchEnds.drainSpan {s t : State} {out : List Event} {now : Nat} (h : DispatchEnds s t out now) :
    DrainSpan [] [now] (out ++ [.nowMicros now]) s t where
  cfg := h.cfg
  trace := h.trace
  comm := h.comm
  bytesRead := by rw [List.filterMap_append, h.output.bytesRead]; rfl
  readings := by rw [List.filterMap_append, h.output.readings]; rfl
  follows := by
    simp only [List.mem_append, List.mem_singleton]
    rintro e (he | rfl)
    · exact Event.followsOpening_of_isOutput (h.output e he)
    · exact ⟨nofun, nofun⟩
  length := by
    have := h.length
    simp only [List.length_append, List.length_cons, List.length_nil]
    omega

/-- The span of a payload's handling: one reading where it is dispatched, and none elsewhere. -/
theorem dispatch_drainSpan {p : List Byte} {s t : State} (h : dispatch p s = .ok t) :
    ∃ ds es, DrainSpan [] ds es s t ∧ ds.length = ([p].filter isDispatched).length := by
  rcases dispatch_ends h with ⟨hp, out, now, hend⟩ | ⟨hp, rfl⟩
  · exact ⟨_, _, hend.drainSpan, by simp [hp]⟩
  · exact ⟨_, _, .refl t, by simp [hp]⟩

/-- The span of one byte: one reading where it completes a dispatched payload, and none elsewhere. -/
theorem DrainedByte.drainSpan {b : Byte} {s t : State} {p : Option (List Byte)} (h : DrainedByte b s t p) :
    ∃ ds es, DrainSpan [b] ds es s t ∧ ds.length = (p.toList.filter isDispatched).length := by
  obtain ⟨u, r, hu, -, hm⟩ := h
  obtain ⟨r', hends⟩ := exec_rxAccept_ends hu
  have hread : DrainSpan [b] [] [.readByte b] s { u with reports := s.reports } :=
    drainSpan_of_readByte (congrArg (·.cfg) hends.frame) (congrArg (·.sc) hends.frame)
      (congrArg (·.trace) hends.frame)
  split at hm
  · next q _ =>
    obtain ⟨rfl, hq⟩ := hm
    rw [exec_decodeCommand, ofExcept_eq_next] at hq
    obtain ⟨ds, es, hspan, hlen⟩ := dispatch_drainSpan hq
    exact ⟨_, _, hread.trans hspan, hlen⟩
  all_goals
    obtain ⟨rfl, rfl⟩ := hm
    exact ⟨_, _, hread, rfl⟩

/-- The span of a drain: one reading for each of its dispatched payloads. -/
theorem Drained.drainSpan {bs : List Byte} {s t : State} {ps : List (List Byte)} (h : Drained bs s ps t) :
    ∃ ds es, DrainSpan bs ds es s t ∧ ds.length = (ps.filter isDispatched).length := by
  induction bs generalizing s ps with
  | nil =>
    obtain ⟨rfl, rfl⟩ := h
    exact ⟨_, _, .refl t, rfl⟩
  | cons b bs ih =>
    obtain ⟨u, p, qs, hb, hbs, rfl⟩ := h
    obtain ⟨ds, es, hspan, hlen⟩ := hb.drainSpan
    obtain ⟨ds', es', hspan', hlen'⟩ := ih hbs
    exact ⟨_, _, hspan.trans hspan', by
      rw [List.filter_append, List.length_append, List.length_append, hlen, hlen']⟩

/-- A byte completes at most one payload. -/
theorem Drained.payloads_le {bs : List Byte} {s t : State} {ps : List (List Byte)} (h : Drained bs s ps t) :
    ps.length ≤ bs.length := by
  induction bs generalizing s ps with
  | nil =>
    obtain ⟨rfl, -⟩ := h
    exact le_rfl
  | cons b bs ih =>
    obtain ⟨u, p, qs, -, hbs, rfl⟩ := h
    have hone : p.toList.length ≤ 1 := by cases p <;> simp
    rw [List.length_append, List.length_cons]
    linarith [ih hbs]

/-- The dispatches of a byte are one where it completes a dispatched payload, and none elsewhere. -/
theorem length_filter_isDispatched (p : Option (List Byte)) :
    (p.toList.filter isDispatched).length = if p.any isDispatched then 1 else 0 := by
  cases p with
  | none => rfl
  | some q => cases hq : isDispatched q <;> simp [hq]

end Sys2Proof.Machine
end

section
/-! PROOF. The ticks of the session controller (R174 to R186, R190, R192): the liveness check as one equation, the
ACTIVE tick as the span of its drain with that check behind it, and the events that a tick issues. -/

namespace Sys2Proof.Machine

/-! The liveness check -/

/-- The check of an ACTIVE tick that starts it in `u` times out (R184). -/
abbrev State.overdue (u : State) : Prop :=
  (u.cfg.timeoutUs : Int) < ((u.nowMicros.1 : Int) - u.sc.lastComm) % 2 ^ u.cfg.clkW

/-- The events of the safe default, after a check that starts in `u` (R186). -/
def State.safeDefault (u : State) : List Event :=
  [.applyVelocity 0x00000000#32 (u.nowMicros.2.applyVelocity 0x00000000#32).1, .applyTemperatureMode 0]

/-- Where an ACTIVE tick of `s` ends whose check starts in `u`, after the events `es`. -/
def activeEnd (s u : State) (es : List Event) : State :=
  if u.overdue then
    { u with
      sc := { u.sc with state := .terminal, lastVel := 0x00000000#32, lastTemp := 0x00#8 }
      env := (u.nowMicros.2.applyVelocity 0x00000000#32).2.env
      trace := s.trace ++ (es ++ [.nowMicros u.nowMicros.1] ++ u.safeDefault)
      reports := s.reports ++ [⟨.timeout, .trace (es ++ [.nowMicros u.nowMicros.1] ++ u.safeDefault)⟩] }
  else
    { u with
      env := u.nowMicros.2.env
      trace := s.trace ++ (es ++ [.nowMicros u.nowMicros.1])
      reports := s.reports ++ [⟨.activeOk, .trace (es ++ [.nowMicros u.nowMicros.1])⟩] }

theorem livenessCheck_eq (u : State) :
    livenessCheck u =
      if u.overdue then ⟨enterTerminal u.nowMicros.2, .timeout⟩ else ⟨u.nowMicros.2, .activeOk⟩ := by
  have h : u.cfg.timeoutUs < u.elapsed u.nowMicros.1 ↔ u.overdue := by
    rw [State.overdue, ← subW_eq_emod, Nat.cast_lt]
    rfl
  simp only [livenessCheck, h]

/-- A tick that ends with a liveness check reports the events before it, the reading and, on timeout, the safe
default. -/
theorem exec_scTick_check {s u : State} {es : List Event} (h : scTick s = .ok (livenessCheck u))
    (ht : u.trace = s.trace ++ es) (hr : u.reports = s.reports) : exec .scTick s = .next (activeEnd s u es) := by
  rw [livenessCheck_eq] at h
  unfold activeEnd
  split at h
  · next hlate =>
    rw [if_pos hlate, exec_scTick_of_events h (es := es ++ [.nowMicros u.nowMicros.1] ++ u.safeDefault)]
    · rw [enterTerminal_frame, ← hr]
      rfl
    · simp [enterTerminal_frame, State.safeDefault, ht]
  · next hintime =>
    rw [if_neg hintime, exec_scTick_of_events h (es := es ++ [.nowMicros u.nowMicros.1])]
    · rw [← hr]
      rfl
    · simp [ht]

/-- Only a check that times out writes SC's registers (R184, R186). -/
theorem activeEnd_sc (s u : State) (es : List Event) :
    (activeEnd s u es).sc =
      if u.overdue then { u.sc with state := .terminal, lastVel := 0x00000000#32, lastTemp := 0x00#8 } else u.sc := by
  unfold activeEnd
  split <;> rfl

/-! The tick -/

theorem tickActuation_bytesAvailable (s : State) : s.tickActuation.bytesAvailable.2 = drainStart s :=
  congrArg (fun es => { s with env := s.bytesAvailable.2.env, trace := es }) (List.append_assoc _ _ _)

/-- An ACTIVE tick whose drain ends in `u` ends with the check of `u` (R175, R176, R184). -/
theorem scTick_active {s u : State} (hs : s.sc.state = .active)
    (hu : drain (s.env.fifo.take s.bytesAvailable.1) (drainStart s) = .ok u) : scTick s = .ok (livenessCheck u) := by
  rw [← tickActuation_bytesAvailable] at hu
  rw [scTick, hs]
  change tickActive s = _
  rw [tickActive, show s.tickActuation.bytesAvailable.1 = s.bytesAvailable.1 from rfl, hu]

/-- A reading takes the head of its list of answers. -/
theorem nowMicros_env (s : State) :
    s.nowMicros.2.env = { s.env with readings := s.env.readings.tail, drawn := s.nowMicros.2.env.drawn } :=
  s.env.nextReading_eq.2

/-- A corrected velocity takes the head of its list of answers. -/
theorem applyVelocity_env (s : State) (v : Word32) :
    (s.applyVelocity v).2.env =
      { s.env with velocities := s.env.velocities.tail, drawn := (s.applyVelocity v).2.env.drawn } :=
  congrArg (·.env) (applyVelocity_frame s v)

/-- The environment at the start of the reads of an ACTIVE tick. -/
theorem drainStart_env (s : State) :
    (drainStart s).env = { s.env with counts := s.env.counts.tail, drawn := s.bytesAvailable.2.env.drawn } :=
  congrArg (·.env) (bytesAvailable_frame s)

/-- Settles O43: nothing is drained, so the check starts where the reads would. -/
theorem activeTickWithoutBytes : Obligations.ActiveTickWithoutBytes := by
  unfold Obligations.ActiveTickWithoutBytes
  intro s hs hcount now w es fs
  have hdrain : drain (s.env.fifo.take s.bytesAvailable.1) (drainStart s) = .ok (drainStart s) := by
    rw [hcount]; rfl
  have hexec := exec_scTick_check (es := [.tickActuation, .bytesAvailable 0]) (scTick_active hs hdrain)
    (by rw [← hcount]; rfl) rfl
  have hstart := drainStart_env s
  have hcheck := nowMicros_env (drainStart s)
  have hsafe := applyVelocity_env (drainStart s).nowMicros.2 0x00000000#32
  refine ⟨s.bytesAvailable.2.nowMicros_lt, fun x hx => ?_, fun x hx => ?_, _, hexec, ?_⟩
  · exact (drainStart s).nowMicros_head x (by rwa [hstart])
  · exact (drainStart s).nowMicros.2.applyVelocity_head 0x00000000#32 x (by rwa [hcheck, hstart])
  · by_cases hlate : (drainStart s).overdue
    · refine Eq.trans ?_ (if_pos hlate).symm
      rw [activeEnd, if_pos hlate, hsafe, hcheck, hstart]
      rfl
    · refine Eq.trans ?_ (if_neg hlate).symm
      rw [activeEnd, if_neg hlate, hcheck, hstart]
      rfl

/-! An ACTIVE tick under the invariant -/

/-- The two events that open the ACTIVE tick of `s` (R175, R176). -/
def State.openingEvents (s : State) : List Event := [.tickActuation, .bytesAvailable s.bytesAvailable.1]

/-- The ACTIVE tick of `s` drains the bytes available up to `u`, with the payloads `ps`, the dispatch readings `ds` and
the events `mid`, and ends with the check of `u`. -/
structure ActiveTick (s u : State) (ps : List (List Byte)) (ds : List Nat) (mid : List Event) : Prop where
  drained : Drained (s.env.fifo.take s.bytesAvailable.1) (drainStart s) ps u
  span : DrainSpan (s.env.fifo.take s.bytesAvailable.1) ds mid (drainStart s) u
  dispatches : ds.length = (ps.filter isDispatched).length
  state : u.sc.state = .active
  fifo : u.env.fifo = s.env.fifo.drop s.bytesAvailable.1
  runs : exec .scTick s = .next (activeEnd s u (s.openingEvents ++ mid))

theorem bytesAvailable_length_take (s : State) :
    (s.env.fifo.take s.bytesAvailable.1).length = s.bytesAvailable.1 :=
  List.length_take_of_le s.bytesAvailable_le

theorem activeTick_of_inv {s : State} (hi : Inv s) (hs : s.sc.state = .active) :
    ∃ u ps ds mid, ActiveTick s u ps ds mid := by
  have hstart : Inv (drainStart s) := Inv.of_sc s _ hi rfl rfl rfl rfl rfl hi.sc hi.comm
  obtain ⟨u, hu, -⟩ := drain_inv (s.env.fifo.take s.bytesAvailable.1) _ hstart
  obtain ⟨ps, hps⟩ := drained_of_drain _ _ _ hu
  obtain ⟨ds, mid, hspan, hlen⟩ := hps.drainSpan
  obtain ⟨hlater, hstate, hfifo⟩ := drain_frame _ _ _ hu
  have htrace : u.trace = s.trace ++ (s.openingEvents ++ mid) :=
    hspan.trace.trans (List.append_assoc _ _ _)
  refine ⟨u, ps, ds, mid, hps, hspan, hlen, hstate.trans hs, ?_,
    exec_scTick_check (scTick_active hs hu) htrace hlater.reports⟩
  rw [hfifo, bytesAvailable_length_take]
  exact congrArg (List.drop _) s.bytesAvailable_fifo

/-- Settles O44: the drain of the tick with its span, and the check behind it. -/
theorem activeTickOrder : Obligations.ActiveTickOrder := by
  unfold Obligations.ActiveTickOrder
  intro s hi hs
  obtain ⟨u, ps, ds, mid, htick⟩ := activeTick_of_inv hi hs
  refine ⟨s.bytesAvailable_head, s.bytesAvailable_le, _, u, ps, mid, htick.runs, htick.drained, htick.state,
    htick.fifo, htick.span.trace, htick.span.bytesRead, htick.span.follows, ?_⟩
  have hcfg : u.cfg = s.cfg := htick.span.cfg
  rw [← hcfg]
  rfl

/-! The events of a tick -/

/-- What an ACTIVE tick adds to the trace: the events up to its check, the reading of the check, and nothing or the two
output events of the safe default. -/
theorem activeEnd_trace (s u : State) (es : List Event) :
    ∃ safe, OutputOnly safe ∧ safe.length ≤ 2 ∧
      (activeEnd s u es).trace = s.trace ++ (es ++ [.nowMicros u.nowMicros.1] ++ safe) := by
  unfold activeEnd
  split
  · exact ⟨u.safeDefault, by simp [OutputOnly, State.safeDefault, Event.isOutput], le_rfl, rfl⟩
  · exact ⟨[], by simp [OutputOnly], Nat.zero_le _, by simp⟩

/-- The events of an ACTIVE tick, and of them the bytes read and the clock readings (R190, R192). -/
theorem ActiveTick.events {s u : State} {ps : List (List Byte)} {ds : List Nat} {mid : List Event}
    (h : ActiveTick s u ps ds mid) :
    ∃ es, (activeEnd s u (s.openingEvents ++ mid)).trace = s.trace ++ es ∧
      es.filterMap Event.reading = ds ++ [u.nowMicros.1] ∧
      es.filterMap Event.byteRead = s.env.fifo.take s.bytesAvailable.1 ∧
      es.length ≤ 2 + s.bytesAvailable.1 + ds.length * (s.cfg.n + 9) + 3 := by
  obtain ⟨safe, hsafe, hlen, htrace⟩ := activeEnd_trace s u (s.openingEvents ++ mid)
  have hopening : s.openingEvents = [.tickActuation, .bytesAvailable s.bytesAvailable.1] := rfl
  refine ⟨_, htrace, ?_, ?_, ?_⟩
  · simp [hopening, h.span.readings, hsafe.readings, List.filterMap_cons, Event.reading]
  · simp [hopening, h.span.bytesRead, hsafe.bytesRead, List.filterMap_cons, Event.byteRead]
  · have hmid := h.span.length
    rw [bytesAvailable_length_take, show (drainStart s).cfg = s.cfg from rfl] at hmid
    simp only [hopening, List.length_append, List.length_cons, List.length_nil]
    omega

/-- An AFC tick writes the N + 4 bytes of the handshake frame, delays, asks, and reads the clock at most once (R171 to
R173). -/
theorem afcTick_events {s : State} (hi : Inv s) (hs : s.sc.state = .afc) :
    ∃ t es, exec .scTick s = .next t ∧ t.trace = s.trace ++ es ∧ es.length ≤ s.cfg.n + 7 := by
  rcases Nat.eq_zero_or_pos s.bytesAvailable.1 with hcount | hcount
  · obtain ⟨t, ht, -, heq⟩ := afcTickWithoutContact s hi.cfg hs hcount
    exact ⟨t, _, ht, congrArg (·.trace) heq, by simp; omega⟩
  · obtain ⟨-, -, t, ht, -, heq⟩ := afcTickFirstContact s hi.cfg hs hcount
    exact ⟨t, _, ht, congrArg (·.trace) heq, by simp; omega⟩

/-- Settles O55: the events of an ACTIVE and of an AFC tick; under the invariant the other ticks are TERMINAL ones,
which issue none. -/
theorem tickEventBound : Obligations.TickEventBound := by
  unfold Obligations.TickEventBound
  intro s hi
  cases hs : s.sc.state with
  | afc =>
    obtain ⟨t, es, ht, htrace, hlen⟩ := afcTick_events hi hs
    exact ⟨t, es, ht, htrace, nofun, fun _ => hlen⟩
  | active =>
    obtain ⟨u, ps, ds, mid, htick⟩ := activeTick_of_inv hi hs
    obtain ⟨es, htrace, hreadings, hbytes, hlen⟩ := htick.events
    refine ⟨_, es, htick.runs, htrace, fun _ => ⟨ds.length, ?_, ?_, ?_, hlen⟩, nofun⟩
    · rw [hreadings, List.length_append, List.length_singleton]
    · rw [hbytes, htick.dispatches]
      exact (List.length_filter_le _ _).trans htick.drained.payloads_le
    · rw [hbytes, bytesAvailable_length_take]
  | terminal => exact ⟨_, [], terminalTickIsIdle s hs, (List.append_nil _).symm, nofun, nofun⟩
  | illegal3 => exact absurd hs hi.sc

/-- Settles O56: the span of a byte says what it reads and refreshes, the span of the drain what the check compares
with. -/
theorem livenessWindow : Obligations.LivenessWindow := by
  unfold Obligations.LivenessWindow
  refine ⟨fun b s t p h => ?_, fun s hi hs => ?_⟩
  · obtain ⟨ds, es, hspan, hlen⟩ := h.drainSpan
    refine ⟨es, hspan.trace, ?_⟩
    rw [hspan.readings, hspan.comm]
    rw [length_filter_isDispatched] at hlen
    split at hlen
    · next hp =>
      obtain ⟨now, rfl⟩ := List.length_eq_one_iff.1 hlen
      rw [if_pos hp]
      exact ⟨now, rfl, rfl⟩
    · next hp =>
      obtain rfl := List.length_eq_zero_iff.1 hlen
      rw [if_neg hp]
      exact ⟨rfl, rfl⟩
  · obtain ⟨u, ps, ds, mid, htick⟩ := activeTick_of_inv hi hs
    obtain ⟨es, htrace, hreadings, -, -⟩ := htick.events
    refine ⟨_, u, ps, es, ds, htick.runs, htick.drained, htrace, hreadings, htick.dispatches, ?_⟩
    have hcfg : u.cfg = s.cfg := htick.span.cfg
    rw [← hcfg, show s.sc.lastComm = (drainStart s).sc.lastComm from rfl, ← htick.span.comm, activeEnd_sc]
    by_cases hlate : u.overdue
    · rw [if_pos hlate]
      exact ⟨rfl, ⟨fun _ => hlate, fun _ => rfl⟩, fun _ => ⟨rfl, rfl⟩, fun h => absurd rfl h⟩
    · rw [if_neg hlate]
      have hne : u.sc.state ≠ .terminal := by rw [htick.state]; exact nofun
      exact ⟨rfl, ⟨fun h => absurd h hne, fun h => absurd h hlate⟩, fun h => absurd h hne, fun _ => htick.state⟩

end Sys2Proof.Machine
end

section
/-! PROOF. The control operations (R200, R201, R203, R250 to R252): a request that decodes is served by its instruction,
NOP answers and does no more, and RESET and the reset input are one and the same core_reset. -/

namespace Sys2Proof.Machine

/-- R203: a request word that decodes is served by its instruction, with its operand on the payload-in port. -/
theorem serve_request_of_decodeRequest {w : BitVec 13} {i : Instr} (h : decodeRequest w = .ok i) (p : List Byte)
    (s : State) : serve (.request w p) s = exec i (s.withPin p) := by
  simp only [serve, h]

/-- Settles O6: a step serves the oldest request on the queue behind it. -/
theorem stepRunsDecodedInstruction : Obligations.StepRunsDecodedInstruction := by
  unfold Obligations.StepRunsDecodedInstruction
  intro s w pin q i hqueue hdecode
  calc step s
    _ = serve (.request w pin) (s.withQueue q) := step_of_queue s _ q hqueue
    _ = exec i ((s.withQueue q).withPin pin) := serve_request_of_decodeRequest hdecode pin _

/-- Settles O11: the word of zeros is legal and selects operation 0, which only responds. -/
theorem nopOnlyResponds : Obligations.NopOnlyResponds := by
  unfold Obligations.NopOnlyResponds
  exact ⟨rfl, fun _ => rfl⟩

/-- R251, R252: core_reset puts the reset record of the configuration in place of the core's record, which invalidates
the frame presented before; nothing else changes. -/
theorem coreReset_eq (s : State) :
    s.coreReset = { s with toRecord := Record.reset s.cfg, builds := s.builds + 1 } := rfl

theorem isSeed_reset_rxck (c : Config) : IsSeed c.n (Record.reset c).rxck.acc := isSeed_ckSeed c.n

theorem isSeed_reset_txck (c : Config) : IsSeed c.n (Record.reset c).txck.acc := isSeed_ckSeed c.n

theorem exec_reset (s : State) : exec .reset s = .next (s.coreReset.respond .ok .none) := rfl

/-- R250: the reset input resets the core and answers nothing (log entry 17). -/
theorem step_of_resetInput {s : State} {q : List Stimulus} (h : s.queue = .resetInput :: q) :
    step s = .next (s.withQueue q).coreReset :=
  step_of_queue s .resetInput q h

/-- Settles O12: the cascades of the reset record are seeds, its other elements stand in it as R38 lists them, and
both ways to reset put it in place. -/
theorem resetSetsEveryElement : Obligations.ResetSetsEveryElement := by
  unfold Obligations.ResetSetsEveryElement
  intro s
  refine ⟨(Record.reset s.cfg).rxck, (Record.reset s.cfg).txck, isSeed_reset_rxck s.cfg, isSeed_reset_txck s.cfg,
    ?_, fun q hqueue => ?_⟩
  · rw [exec_reset, coreReset_eq]
    rfl
  · rw [step_of_resetInput hqueue, coreReset_eq]
    rfl

end Sys2Proof.Machine
end

section
/-! PROOF. Response codes (R220, R238): the replies of RX_ACCEPT, TX_BUILD and SC_TICK are of their own code spaces, the
other requests answer OK, and a request that completes puts its one response after the reports it began with. -/

namespace Sys2Proof.Machine

/-! The code spaces -/

theorem responses_map_code (i : Instr) :
    i.responses.map Response.code = (List.range i.responses.length).map (BitVec.ofNat 4) := by
  cases i <;> rfl

theorem illegalRequest_notMem_responses (i : Instr) : Response.illegalRequest ∉ i.responses := by
  cases i <;> simp [Instr.responses]

/-! The responses of the operations -/

theorem rxStore_resp {b : Byte} {st : RxTag} {resp : Response} {s : State} {r : RxReply}
    (h : rxStore b st resp s = .ok r) : r.resp = resp := by
  unfold rxStore at h
  split at h
  · cases h; rfl
  · cases h

theorem rxActDone_resp {s : State} {r : RxReply} (h : rxActDone s = .ok r) : r.resp = .done := by
  unfold rxActDone at h
  split at h
  · cases h
  · cases h; rfl

/-- Every row of R80 answers within the code space of RX_ACCEPT. -/
theorem rxRun_resp_mem {row : RxRow} {b c : Byte} {s : State} {r : RxReply} (h : rxRun row b s = .ok r) :
    r.resp ∈ (Instr.rxAccept c).responses := by
  cases row
  case payload | payloadLast => rw [rxStore_resp h]; simp [Instr.responses]
  case done => rw [rxActDone_resp h]; simp [Instr.responses]
  all_goals cases h; simp [Instr.responses]

theorem rxAccept_resp_mem {b c : Byte} {rnd : Bool} {s : State} {r : RxReply} (h : rxAccept b rnd s = .ok r) :
    r.resp ∈ (Instr.rxAccept c).responses := by
  unfold rxAccept at h
  split at h
  · cases h
  · exact rxRun_resp_mem h

theorem txBuild_resp_mem {q : List Byte} {s : State} {r : TxReply} (h : txBuild q s = .ok r) :
    r.resp ∈ Instr.txBuild.responses := by
  unfold txBuild at h
  split_ifs at h
  all_goals cases h; simp [Instr.responses]

theorem afcCheck_resp_mem (s : State) : (afcCheck s).resp ∈ Instr.scTick.responses := by
  unfold afcCheck
  split <;> simp [Instr.responses]

theorem livenessCheck_resp_mem (s : State) : (livenessCheck s).resp ∈ Instr.scTick.responses := by
  unfold livenessCheck
  split <;> simp [Instr.responses]

/-- An AFC tick answers by its availability check, an ACTIVE tick by its liveness check, the others at once. -/
theorem scTick_resp_mem {s : State} {r : ScReply} (h : scTick s = .ok r) : r.resp ∈ Instr.scTick.responses := by
  unfold scTick at h
  split at h
  · unfold tickAfc at h
    split at h
    · cases h
    · cases h; exact afcCheck_resp_mem _
  · unfold tickActive at h
    split at h
    · cases h
    · cases h; exact livenessCheck_resp_mem _
  all_goals cases h; simp [Instr.responses]

/-! The answer of a request -/

/-- `t` holds the reports of `s` and one more, whose response is one of `codes`. -/
def AnswersWithin (codes : List Response) (s t : State) : Prop :=
  ∃ r : Report, t.reports = s.reports ++ [r] ∧ r.resp ∈ codes

theorem Later.answersWithin {s t : State} (h : Later s t) {resp : Response} {codes : List Response}
    (hresp : resp ∈ codes) (o : Output) : AnswersWithin codes s (t.respond resp o) :=
  ⟨⟨resp, o⟩, by rw [State.respond_reports, h.reports], hresp⟩

theorem RxEnds.answersWithin {s t : State} {r : RxReply} (h : RxEnds s t r) (b : Byte) :
    AnswersWithin (Instr.rxAccept b).responses s t :=
  have ⟨⟨_, hr⟩, _⟩ := h
  ⟨_, congrArg State.reports h.frame, rxAccept_resp_mem hr⟩

theorem execTxBuild_answersWithin {s t : State} (h : execTxBuild s = .next t) :
    AnswersWithin Instr.txBuild.responses s t := by
  unfold execTxBuild at h
  split at h
  · cases h
  · next r hr => cases h; exact (txBuild_later s.pin s r hr).answersWithin (txBuild_resp_mem hr) _

theorem execScTick_answersWithin {s t : State} (h : execScTick s = .next t) :
    AnswersWithin Instr.scTick.responses s t := by
  unfold execScTick at h
  split at h
  · cases h
  · next r hr => cases h; exact (scTick_later s r hr).answersWithin (scTick_resp_mem hr) _

/-- A request that completes adds one response, of its own code space. -/
theorem exec_request_answersWithin {i : Instr} {s t : State} (hreq : i.responses ≠ []) (h : exec i s = .next t) :
    AnswersWithin i.responses s t := by
  cases i
  case nop | ckFinal => cases h; exact (Later.refl s).answersWithin (List.mem_singleton_self _) _
  case ckInit x | ckUpdate x _ => cases h; exact (withCk_later s x _).answersWithin (List.mem_singleton_self _) _
  case reset => cases h; exact (coreReset_later s).answersWithin (List.mem_singleton_self _) _
  case rxAccept b =>
    obtain ⟨r, hr⟩ := exec_rxAccept_ends h
    exact hr.answersWithin b
  case txBuild => exact execTxBuild_answersWithin h
  case scTick => exact execScTick_answersWithin h
  all_goals exact absurd rfl hreq

/-- Settles O8: each request answers within its code space, and the spaces are numbered as R220 lists them. -/
theorem responsesStayInCodeSpace : Obligations.ResponsesStayInCodeSpace := by
  unfold Obligations.ResponsesStayInCodeSpace
  exact ⟨fun _ _ _ => exec_request_answersWithin, responses_map_code, illegalRequest_notMem_responses, rfl⟩

end Sys2Proof.Machine
end

section
/-! PROOF. Where a row of an inner table is refused (R80, R81, R77 to R79, log entry 8): a row of the byte decode is the
RX_ACCEPT of its byte exactly where the decode selects the instruction itself, and a row of the payload tables runs for
the operands that SC gives it. -/

namespace Sys2Proof.Machine

/-! The byte decode -/

/-- The key of a row's instruction names that row. -/
theorem row_eq_of_instr_eq {i : Instr} {row r : RxRow} {st st' : RxTag} {b b' : Byte}
    (hkey : i.rxRowKey = some (row, st, b)) (h : r.instr st' b' = i) : r = row := by
  subst h
  cases r <;> cases hkey <;> rfl

/-- A row that the decode does not select is refused. -/
theorem rxRowExec_unselected {s : State} {b : Byte} {row r : RxRow} (hsel : s.rxSelect b s.takeDraw.1 = .ok r)
    (hne : r ≠ row) : rxRowExec row b s = .refused .rowNotSelected := by
  have hd : s.takeDraw.2.rxSelect b s.takeDraw.1 = .ok r := hsel
  simp only [rxRowExec, hd, if_neg hne]

/-- The rows of the illegal states run in the state that their key names, the other rows in any state. -/
theorem exec_of_rxRowKey {i : Instr} {row : RxRow} {st : RxTag} {b : Byte} (hkey : i.rxRowKey = some (row, st, b))
    (s : State) :
    exec i s = if row.instr s.rx.state b = i then rxRowExec row b s else .refused .rowNotSelected := by
  cases i <;> cases hkey
  case rxIllegalStateSync => simp only [RxRow.instr, Instr.rxIllegalStateSync.injEq]; rfl
  case rxIllegalState => simp only [RxRow.instr, Instr.rxIllegalState.injEq, and_true]; rfl
  all_goals exact (if_pos rfl).symm

/-- Settles O20: the instruction of the selected row has the selected row in its key, and any other instruction of the
decode names a row or an illegal state that is not selected. -/
theorem rxRowRefusedUnlessSelected : Obligations.RxRowRefusedUnlessSelected := by
  unfold Obligations.RxRowRefusedUnlessSelected
  intro i row st b s r hkey hsel
  rw [exec_of_rxRowKey hkey]
  by_cases hr : r = row
  · subst hr
    rw [rxRowExec_selected hsel]
  · rw [if_neg fun h => hr (row_eq_of_instr_eq hkey h), rxRowExec_unselected hsel hr, ite_self]

/-! The payload tables -/

/-- A payload whose handling is a dispatch (R180) is not the row of ignored payloads. -/
theorem exec_cmdIgnored_of_isDispatched {p : List Byte} (h : isDispatched p = true) (s : State) :
    exec (.cmdIgnored p) s = .refused .rowNotSelected :=
  if_neg ((isDispatched_iff p).1 h)

theorem isDispatched_of_velocity {p : List Byte} (htag : p[0]? = some 0x01#8) (hlen : 5 ≤ p.length) :
    isDispatched p = true := by
  simp [isDispatched, htag, hlen]

theorem isDispatched_of_mode {p : List Byte} {m : Byte} (htag : p[0]? = some 0x02#8) (hmode : p[1]? = some m)
    (hm : m ∈ [0xFF#8, 0x00#8, 0x01#8]) : isDispatched p = true := by
  simpa [isDispatched, htag, hmode, or_assoc] using hm

/-- Settles O49: each guard of the payload rows reads the operand that SC would give. -/
theorem payloadRowRefusedUnlessSelected : Obligations.PayloadRowRefusedUnlessSelected := by
  unfold Obligations.PayloadRowRefusedUnlessSelected
  intro s m f w p
  have hmode (hm : m ∉ [0xFF#8, 0x00#8, 0x01#8]) : ¬isMode m = true := mt (isMode_iff m).1 hm
  refine ⟨fun hm _ => if_neg (hmode hm), fun hm => if_neg (hmode hm), fun hf => if_neg hf, fun hw => if_neg hw,
    fun htag hlen => ?_, fun htag hbyte hm => ?_⟩
  · exact exec_cmdIgnored_of_isDispatched (isDispatched_of_velocity htag hlen) s
  · exact exec_cmdIgnored_of_isDispatched (isDispatched_of_mode htag hbyte hm) s

end Sys2Proof.Machine
end

section
/-! PROOF. Where RX_ACCEPT and TX_BUILD stop (R50, R56, log entry 12): an index outside its range or an unwritten cell,
in states and configurations that no run reaches. -/

namespace Sys2Proof.Machine

theorem exec_rxAccept_fault {s : State} {b : Byte} {f : Fault}
    (h : rxAccept b s.takeDraw.1 s.takeDraw.2 = .error f) : exec (.rxAccept b) s = .fault f :=
  congrArg rxFinish h

/-! READ_PAYLOAD -/

theorem rxStore_outside {s : State} (h : 127 ≤ s.rx.cnt.toNat) (b : Byte) (st : RxTag) (resp : Response) :
    rxStore b st resp s = .error .pbufIndex :=
  if_neg (Nat.not_lt.2 h)

/-- Past the end of RX.pbuf both rows of READ_PAYLOAD fault. -/
theorem exec_rxAccept_pbufIndex {s : State} (hs : s.rx.state = .readPayload) (hcnt : 127 ≤ s.rx.cnt.toNat)
    (b : Byte) : exec (.rxAccept b) s = .fault .pbufIndex := by
  refine exec_rxAccept_fault ?_
  have hstore := rxStore_outside (s := s.takeDraw.2) hcnt b
  rw [rxAccept_readPayload b _ s.takeDraw.2 hs, hstore, hstore, ite_self]

/-- Past the declared length a byte is still stored and counted, and the receiver stays in READ_PAYLOAD. -/
theorem exec_rxAccept_past_length {s : State} (hs : s.rx.state = .readPayload) (hcap : s.rx.cnt.toNat < 127)
    (hpast : s.rx.len.toNat ≤ s.rx.cnt.toNat) (b : Byte) :
    ∃ t, exec (.rxAccept b) s = .next t ∧ t.rx.state = .readPayload ∧
      t.reports = s.reports ++ [⟨.payload, .none⟩] := by
  obtain ⟨t, ht, hframe⟩ := payload_completes hs hcap (by omega) b (.rxAccept b) (by simp)
  exact ⟨t, ht, by rw [hframe]; exact hs, by rw [hframe]⟩

/-! READ_CHECKSUM -/

/-- Without an expected accumulator the decode of READ_CHECKSUM has no row. -/
theorem exec_rxAccept_ckIndex {s : State} (hs : s.rx.state = .readChecksum) (hnone : s.ckExpected = none) (b : Byte) :
    exec (.rxAccept b) s = .fault .ckIndex := by
  have hd : s.takeDraw.2.ckExpected = none := hnone
  refine exec_rxAccept_fault ?_
  simp only [rxAccept, State.rxSelect, State.takeDraw_rx, hs, hd]

theorem ckExpected_before_checksum {s : State} (h : s.rx.cnt.toNat < s.rx.len.toNat) : s.ckExpected = none :=
  if_neg (Nat.not_le.2 h)

theorem ckExpected_past_vector {s : State} (hle : s.rx.len.toNat ≤ s.rx.cnt.toNat)
    (h : s.rxck.acc.length ≤ s.rx.cnt.toNat - s.rx.len.toNat) : s.ckExpected = none :=
  (if_pos hle).trans (List.getElem?_eq_none h)

/-- A consecutive read from index 0 that answers finds all its cells written. -/
theorem written_of_readSeq {m : Memory} {n : Nat} {p : List Byte} (h : Memory.readSeq m 0 n = some p) :
    Written m n := by
  obtain ⟨hlen, hread⟩ := (Memory.readSeq_eq_some m 0 n p).1 h
  intro j hj
  rw [← Nat.zero_add j, hread j hj, List.getElem?_eq_getElem (hlen ▸ hj)]
  rfl

theorem rxActDone_unwritten {s : State} (h : ¬Written s.rx.pbuf s.rx.len.toNat) :
    rxActDone s = .error .unwrittenRead := by
  have hnone : Memory.readSeq s.rx.pbuf 0 s.rx.len.toNat = none :=
    Option.eq_none_iff_forall_ne_some.2 fun _ hp => h (written_of_readSeq hp)
  simp only [rxActDone, hnone]

/-- DONE reads the payload to give it out, and an unwritten cell faults. -/
theorem exec_rxAccept_done_unwritten {s : State} {b : Byte} (hs : s.rx.state = .readChecksum)
    (hle : s.rx.len.toNat ≤ s.rx.cnt.toNat) (ha : s.rxck.acc[s.rx.cnt.toNat - s.rx.len.toNat]? = some b)
    (hlast : s.rx.cnt.toNat - s.rx.len.toNat + 1 = s.cfg.n) (hw : ¬Written s.rx.pbuf s.rx.len.toNat) :
    exec (.rxAccept b) s = .fault .unwrittenRead := by
  have hexp : s.takeDraw.2.ckExpected = some b := (if_pos hle).trans ha
  have hend : s.takeDraw.2.ckIndex + 1 = s.takeDraw.2.cfg.n := hlast
  refine exec_rxAccept_fault ?_
  rw [rxAccept_readChecksum b _ s.takeDraw.2 b hs hexp, if_pos rfl, if_pos hend]
  exact rxActDone_unwritten hw

/-! TX_BUILD -/

/-- A payload that fits makes a frame longer than TX.fbuf only under an N that R5 does not allow (R157). -/
theorem exec_txBuild_fbufIndex {s : State} (hq : s.pin.length ≤ 127) (hcap : 256 < s.pin.length + s.cfg.n + 2) :
    exec .txBuild s = .fault .fbufIndex := by
  have hfits : ¬maxLen < s.pin.length := Nat.not_lt.2 hq
  have hlong : frameCap < (frameOf s.cfg.n s.pin).length := by rwa [frameOf_length]
  have hbuild : txBuild s.pin s = .error .fbufIndex := (if_neg hfits).trans (if_pos hlong)
  change execTxBuild s = _
  rw [execTxBuild, hbuild]

/-- Settles O30: the two index ranges of RX_ACCEPT, the read of DONE, and the capacity of TX.fbuf. -/
theorem operationsStopOutsideRanges : Obligations.OperationsStopOutsideRanges := by
  unfold Obligations.OperationsStopOutsideRanges
  intro s b
  refine ⟨fun hs hcnt => exec_rxAccept_pbufIndex hs hcnt b,
    fun hs hcap hpast => exec_rxAccept_past_length hs hcap hpast b,
    fun hs hbefore => exec_rxAccept_ckIndex hs (ckExpected_before_checksum hbefore) b,
    fun hs hle hpast => exec_rxAccept_ckIndex hs (ckExpected_past_vector hle hpast) b,
    exec_rxAccept_done_unwritten, exec_txBuild_fbufIndex⟩

end Sys2Proof.Machine
end

section
/-! PROOF. The steps that run no instruction (R202 with log entry 7, R251 with log entry 6). -/

namespace Sys2Proof.Machine

/-- R202: a request word that does not decode is served by its response alone. -/
theorem serve_request_of_decodeRequest_error {w : BitVec 13} {e : DecodeError} (h : decodeRequest w = .error e)
    (p : List Byte) (s : State) :
    serve (.request w p) s = .next ((s.withPin p).respond .illegalRequest .none) := by
  simp only [serve, h, takeIllegalRequest]

/-- Settles O7: an illegal request is served by its response, and an empty queue leaves the core waiting. -/
theorem stepWithoutInstruction : Obligations.StepWithoutInstruction := by
  unfold Obligations.StepWithoutInstruction
  refine ⟨fun s w pin q e hqueue hdecode => ?_, fun _ => step_of_empty_queue⟩
  calc step s
    _ = serve (.request w pin) (s.withQueue q) := step_of_queue s _ q hqueue
    _ = .next (((s.withQueue q).withPin pin).respond .illegalRequest .none) :=
      serve_request_of_decodeRequest_error hdecode pin _

end Sys2Proof.Machine
end
